-- ==== Sys2Proof/Word.lean ====
section
/-! DEFINITION. The word types of the block: 32-bit words (binary32 patterns and `u32` registers), ring addresses, lags, and the
64-bit words that cross the interface. -/

namespace Sys2Proof

/-- A 32-bit word: a binary32 bit pattern or a `u32` register (00_scope.md R8, R9). -/
abbrev Word := BitVec 32

/-- One byte of a serialised 64-bit word (20_memory.md R55). -/
abbrev Byte := BitVec 8

/-- A ring address of `X` or `Y`, and an index of `W`: a `u8` (00_scope.md R9, 20_memory.md R51). -/
abbrev RingAddr := BitVec 8

/-- A lag `0 <= L < 128`, the index of `R` (20_memory.md R51, R54). -/
abbrev Lag := BitVec 7

/-- A note number `0 <= n <= 127` (00_scope.md R16, 30_encoding.md R73). -/
abbrev Note := BitVec 7

/-- A 64-bit command word, host to core (30_encoding.md R71). -/
abbrev CommandWord := BitVec 64

/-- A 64-bit response word, core to host (30_encoding.md R75). -/
abbrev ResponseWord := BitVec 64

end Sys2Proof
end

