-- ==== Sys2Proof/Machine/Binary32.lean ====
section
/-! DEFINITION. Binary32 arithmetic (00_scope.md R11 to R14): the format, correct rounding to nearest with ties to even, and the
four operations. Exact magnitudes are held as whole numbers of UNITS, one unit being `2^-149`, the smallest subnormal; every finite
binary32 magnitude is a whole number of units (DEDUCED, log entry 12). -/

namespace Sys2Proof.Machine

/-- What a bit pattern stands for (00_scope.md R11): a NaN, an infinity, or the value `(-1)^neg * units * 2^-149`. -/
inductive FloatClass where
  | nan
  | infinite (neg : Bool)
  | finite (neg : Bool) (units : Nat)
deriving DecidableEq, Repr

/-- Bit 31, the sign (00_scope.md R11). -/
def signBit (w : Word) : Bool := w.msb

/-- Bits 30:23, the biased exponent `e` (00_scope.md R11). -/
def exponentField (w : Word) : Nat := w.toNat / 2 ^ 23 % 2 ^ 8

/-- Bits 22:0, the fraction `f` (00_scope.md R11). -/
def fractionField (w : Word) : Nat := w.toNat % 2 ^ 23

/-- The magnitude, in units, of a pattern whose exponent field is not 255 (00_scope.md R11): `f` where `e = 0`, and
`(2^23 + f) * 2^(e-1)` elsewhere, since `2^(e-127) * (1 + f/2^23) = (2^23 + f) * 2^(e-1) * 2^-149`. -/
def magnitudeUnits (w : Word) : Nat :=
  if exponentField w = 0 then fractionField w else (2 ^ 23 + fractionField w) * 2 ^ (exponentField w - 1)

/-- The reading of a bit pattern (00_scope.md R11). -/
def classify (w : Word) : FloatClass :=
  if exponentField w = 255 then
    if fractionField w = 0 then .infinite (signBit w) else .nan
  else .finite (signBit w) (magnitudeUnits w)

/-- The canonical NaN, the result of every operation that yields a NaN (00_scope.md R13). -/
def canonicalNaN : Word := 0x7FC00000#32

/-- Bits 30:0 of an infinity (00_scope.md R11). -/
def infinityMagnitude : Nat := 0x7F800000

/-- A pattern from its sign and its bits 30:0. -/
def packFloat (neg : Bool) (magnitude : Nat) : Word := BitVec.ofNat 32 ((if neg then 2 ^ 31 else 0) + magnitude)

/-- `num / den` rounded to the nearest whole number, ties to even. -/
def roundHalfEven (num den : Nat) : Nat :=
  let q := num / den
  let r := num % den
  if 2 * r < den then q else if den < 2 * r then q + 1 else q + q % 2

/-- Bits 30:0 of the binary32 nearest to `num / den` units, ties to even (00_scope.md R12). Near `num / den` the binary32 numbers
are `2^k` units apart, `k` being 0 below `2^24` units. The value is rounded to a whole number `m` of those steps, and
`k * 2^23 + m` is its pattern: for `k = 0` the pattern of a number below `2^24` units is that number, and for `k > 0` the exponent
field is `k + 1` and the fraction `m - 2^23`; a carry out of the fraction steps the exponent. What lies at or past the infinity's
pattern is an overflow and gives the infinity. -/
def roundMagnitude (num den : Nat) : Nat :=
  let k := Nat.log2 (num / den) - 23
  min infinityMagnitude (k * 2 ^ 23 + roundHalfEven num (den * 2 ^ k))

/-- A signed number of units. -/
def signedUnits (neg : Bool) (units : Nat) : Int := if neg then -(units : Int) else units

/-- The greatest `r < acc + 2^bits` at or above `acc` with `r ^ k <= v`, found bit by bit from the top, where `acc ^ k <= v`. -/
def rootFloor (k v : Nat) : (bits : Nat) → (acc : Nat) → Nat
  | 0, acc => acc
  | b + 1, acc => if (acc + 2 ^ b) ^ k ≤ v then rootFloor k v b (acc + 2 ^ b) else rootFloor k v b acc

/-- `fmul` (00_scope.md R12, R13). The product of `m` and `n` units is `m * n * 2^-149` units. -/
def fmul (a b : Word) : Word :=
  match classify a, classify b with
  | .nan, _ => canonicalNaN
  | .infinite _, .nan => canonicalNaN
  | .finite _ _, .nan => canonicalNaN
  | .infinite s, .infinite t => packFloat (s ^^ t) infinityMagnitude
  | .infinite s, .finite t n => if n = 0 then canonicalNaN else packFloat (s ^^ t) infinityMagnitude
  | .finite s m, .infinite t => if m = 0 then canonicalNaN else packFloat (s ^^ t) infinityMagnitude
  | .finite s m, .finite t n => packFloat (s ^^ t) (roundMagnitude (m * n) (2 ^ 149))

/-- `fadd` (00_scope.md R12, R13). The sum of finite operands is a whole number of units. An exact zero sum is -0 where both operands
are negative (both -0), and +0 elsewhere. -/
def fadd (a b : Word) : Word :=
  match classify a, classify b with
  | .nan, _ => canonicalNaN
  | .infinite _, .nan => canonicalNaN
  | .finite _ _, .nan => canonicalNaN
  | .infinite s, .infinite t => if s = t then packFloat s infinityMagnitude else canonicalNaN
  | .infinite s, .finite _ _ => packFloat s infinityMagnitude
  | .finite _ _, .infinite t => packFloat t infinityMagnitude
  | .finite s m, .finite t n =>
    let sum := signedUnits s m + signedUnits t n
    if sum = 0 then packFloat (s && t) 0 else packFloat (decide (sum < 0)) (roundMagnitude sum.natAbs 1)

/-- `fdiv` (00_scope.md R12, R13). The quotient of `m` by `n` units is `m / n`, which is `m * 2^149 / n` units. -/
def fdiv (a b : Word) : Word :=
  match classify a, classify b with
  | .nan, _ => canonicalNaN
  | .infinite _, .nan => canonicalNaN
  | .finite _ _, .nan => canonicalNaN
  | .infinite _, .infinite _ => canonicalNaN
  | .infinite s, .finite t _ => packFloat (s ^^ t) infinityMagnitude
  | .finite s _, .infinite t => packFloat (s ^^ t) 0
  | .finite s m, .finite t n =>
    if n = 0 then
      if m = 0 then canonicalNaN else packFloat (s ^^ t) infinityMagnitude
    else packFloat (s ^^ t) (roundMagnitude (m * 2 ^ 149) n)

/-- `fsqrt` (00_scope.md R12, R13). The root of `m` units is `sqrt (m * 2^149)` units. Its floor `r` has at most 214 bits. Where the
root is not exact it lies strictly between `r` and `r + 1`, and rounding it gives what rounding `r + 1/2` gives: for `m > 0` the
root has at least 75 bits, so no rounding boundary lies strictly between two whole numbers of units
(DEDUCED, log entry 12). -/
def fsqrt (a : Word) : Word :=
  match classify a with
  | .nan => canonicalNaN
  | .infinite s => if s then canonicalNaN else packFloat false infinityMagnitude
  | .finite s m =>
    if m = 0 then packFloat s 0
    else if s then canonicalNaN
    else
      let r := rootFloor 2 (m * 2 ^ 149) 214 0
      packFloat false (roundMagnitude (2 * r + if r ^ 2 = m * 2 ^ 149 then 0 else 1) 2)

end Sys2Proof.Machine
end

