-- ==== Sys2Proof/Machine/Pitch.lean ====
section
/-! DEFINITION. The default `DELTA_OF` (42_phase_accumulator_trigger.md R123), evaluated exactly in whole numbers. -/

namespace Sys2Proof.Machine

/-- The default of `DELTA_OF(fs, n)`: `floor (440 * 2^((n - 69) / 12) * 2^32 / fs)` in exact real arithmetic, for `fs >= 1` and
`0 <= n <= 127` (42_phase_accumulator_trigger.md R123). The 12th power of that real is `440^12 * 2^(n + 315) / fs^12`, since
`12 * 32 - 69 = 315`; so the floor is the greatest `d` with `d^12 <= 440^12 * 2^(n + 315) / fs^12`, and the quotient may itself be
rounded down. At most `f(127) * 2^32 < 2^46`, so 46 bits hold it. DEDUCED, log entry 11. -/
def defaultDeltaOf (fs n : Nat) : Nat := rootFloor 12 (440 ^ 12 * 2 ^ (n + 315) / fs ^ 12) 46 0

/-- The bitwise root of a number from 1 on is at least 1. -/
theorem rootFloor_pos {k v : Nat} (hv : 1 ≤ v) : ∀ bits : Nat, 1 ≤ bits → 1 ≤ rootFloor k v bits 0
  | 1, _ => by simp [rootFloor, hv]
  | b + 2, _ => by
    have hup : ∀ c acc : Nat, acc ≤ rootFloor k v c acc := by
      intro c
      induction c with
      | zero => exact fun acc => Nat.le_refl acc
      | succ c ih =>
        intro acc
        simp only [rootFloor]
        split
        · exact Nat.le_trans (Nat.le_add_right _ _) (ih _)
        · exact ih acc
    rw [rootFloor]
    split
    · exact Nat.le_trans (by simp [Nat.one_le_two_pow]) (hup _ _)
    · exact rootFloor_pos hv (b + 1) (Nat.le_add_left 1 b)

/-- The default `DELTA_OF` is never 0 for a 32-bit rate: below `2^32` Hz the radicand is at least 1, since `440^12 >= 2^69`
(42_phase_accumulator_trigger.md R124). -/
theorem defaultDeltaOf_pos (fs n : Nat) (h1 : 1 ≤ fs) (h2 : fs < 2 ^ 32) (_ : n ≤ 127) : 1 ≤ defaultDeltaOf fs n := by
  have hpow : fs ^ 12 ≤ 440 ^ 12 * 2 ^ (n + 315) :=
    calc fs ^ 12 ≤ (2 ^ 32) ^ 12 := Nat.pow_le_pow_left (Nat.le_of_lt h2) 12
      _ = 2 ^ 69 * 2 ^ 315 := (Nat.pow_mul 2 32 12).symm.trans (Nat.pow_add 2 69 315)
      _ ≤ 440 ^ 12 * 2 ^ 315 := Nat.mul_le_mul_right _ (show 2 ^ 69 ≤ 440 ^ 12 by norm_num)
      _ ≤ 440 ^ 12 * 2 ^ (n + 315) := Nat.mul_le_mul_left _ (Nat.pow_le_pow_right (by decide) (Nat.le_add_left 315 n))
  exact rootFloor_pos (Nat.div_pos hpow (Nat.pow_pos h1)) 46 (by decide)

end Sys2Proof.Machine
end

