-- ==== Sys2Proof/Config.lean ====
section
/-! DEFINITION. What is fixed for one block: the sizes of 00_scope.md R6 and the record of the two named parameters of
00_scope.md R7. The parameters' default values stand in Machine/Parameters.lean. -/

namespace Sys2Proof.Config

/-- `NLAG`: lags 0..127 (00_scope.md R6). -/
abbrev nlag : Nat := 128

/-- `NRING`: entries in each of `X` and `Y` (00_scope.md R6). -/
abbrev nring : Nat := 256

/-- `NWIN`: entries of the window table (00_scope.md R6). -/
abbrev nwin : Nat := 256

/-- The two named parameters that the model takes as an argument (00_scope.md R7). -/
structure Parameters where
  /-- `DELTA_OF(fs, n)`, an unbounded non-negative integer (42_phase_accumulator_trigger.md R123). -/
  deltaOf : Nat → Nat → Nat
  /-- With any `DELTA_OF`, `DELTA >= 1` whenever `CFG = 1` (10_state.md R26, 90_conflicts.md C3, C9). No command checks for a zero, so
  the bound is one on the parameter, over every rate and note a command can ask for (DEDUCED, log entry 20). -/
  deltaOf_pos : ∀ fs n, 1 ≤ fs → fs < 2 ^ 32 → n ≤ 127 → 1 ≤ deltaOf fs n
  /-- `WINDOW_ROM` (43_overlap_add_synthesizer.md R147). -/
  windowRom : Vector Word nwin

end Sys2Proof.Config
end

