-- ==== Sys2Proof/Machine/Window.lean ====
section
/-! DEFINITION. The default `WINDOW_ROM`, the periodic 256-point Hann window rounded once to binary32
(43_overlap_add_synthesizer.md R147). The table is the spec's, row by row. -/

namespace Sys2Proof.Machine

/-- `W[0]` to `W[31]` of the default table (43_overlap_add_synthesizer.md R147). -/
def hannRows0 : List Word :=
  [0x00000000#32, 0x391DE7DF#32, 0x3A1DE1C8#32, 0x3AB19298#32, 0x3B1DC971#32, 0x3B766E3C#32, 0x3BB15502#32, 0x3BF1360B#32,
   0x3C1D6830#32, 0x3C470C54#32, 0x3C758104#32, 0x3C945F8C#32, 0x3CB05F55#32, 0x3CCEBB8A#32, 0x3CEF6F7E#32, 0x3D093B12#32,
   0x3D1BE50C#32, 0x3D2FB2CC#32, 0x3D44A143#32, 0x3D5AAD38#32, 0x3D71D344#32, 0x3D8507EA#32, 0x3D91AF97#32, 0x3D9EDEB5#32,
   0x3DAC933B#32, 0x3DBACB0C#32, 0x3DC983F7#32, 0x3DD8BBB7#32, 0x3DE86FF3#32, 0x3DF89E3F#32, 0x3E04A20E#32, 0x3E0D2F7D#32]

/-- `W[32]` to `W[63]` of the default table (43_overlap_add_synthesizer.md R147). -/
def hannRows1 : List Word :=
  [0x3E15F61A#32, 0x3E1EF48B#32, 0x3E28296D#32, 0x3E319354#32, 0x3E3B30CE#32, 0x3E45005D#32, 0x3E4F0080#32, 0x3E592FAB#32,
   0x3E638C4C#32, 0x3E6E14CB#32, 0x3E78C786#32, 0x3E81D16D#32, 0x3E87528B#32, 0x3E8CE646#32, 0x3E928BC0#32, 0x3E98421B#32,
   0x3E9E0875#32, 0x3EA3DDEB#32, 0x3EA9C196#32, 0x3EAFB28E#32, 0x3EB5AFE7#32, 0x3EBBB8B6#32, 0x3EC1CC0D#32, 0x3EC7E8FB#32,
   0x3ECE0E90#32, 0x3ED43BD7#32, 0x3EDA6FDF#32, 0x3EE0A9B2#32, 0x3EE6E859#32, 0x3EED2ADF#32, 0x3EF3704D#32, 0x3EF9B7AB#32]

/-- `W[64]` to `W[95]` of the default table (43_overlap_add_synthesizer.md R147). -/
def hannRows2 : List Word :=
  [0x3F000000#32, 0x3F03242B#32, 0x3F0647D9#32, 0x3F096A90#32, 0x3F0C8BD3#32, 0x3F0FAB27#32, 0x3F12C810#32, 0x3F15E214#32,
   0x3F18F8B8#32, 0x3F1C0B82#32, 0x3F1F19F9#32, 0x3F2223A5#32, 0x3F25280C#32, 0x3F2826B9#32, 0x3F2B1F35#32, 0x3F2E110A#32,
   0x3F30FBC5#32, 0x3F33DEF3#32, 0x3F36BA20#32, 0x3F398CDD#32, 0x3F3C56BA#32, 0x3F3F174A#32, 0x3F41CE1E#32, 0x3F447ACD#32,
   0x3F471CED#32, 0x3F49B415#32, 0x3F4C3FE0#32, 0x3F4EBFE9#32, 0x3F5133CD#32, 0x3F539B2B#32, 0x3F55F5A5#32, 0x3F5842DD#32]

/-- `W[96]` to `W[127]` of the default table (43_overlap_add_synthesizer.md R147). -/
def hannRows3 : List Word :=
  [0x3F5A827A#32, 0x3F5CB421#32, 0x3F5ED77D#32, 0x3F60EC38#32, 0x3F62F202#32, 0x3F64E889#32, 0x3F66CF81#32, 0x3F68A69F#32,
   0x3F6A6D99#32, 0x3F6C2429#32, 0x3F6DCA0D#32, 0x3F6F5F03#32, 0x3F70E2CC#32, 0x3F72552D#32, 0x3F73B5EC#32, 0x3F7504D3#32,
   0x3F7641AF#32, 0x3F776C4F#32, 0x3F788484#32, 0x3F798A24#32, 0x3F7A7D05#32, 0x3F7B5D04#32, 0x3F7C29FC#32, 0x3F7CE3CF#32,
   0x3F7D8A5F#32, 0x3F7E1D94#32, 0x3F7E9D56#32, 0x3F7F0992#32, 0x3F7F6237#32, 0x3F7FA737#32, 0x3F7FD888#32, 0x3F7FF622#32]

/-- `W[128]` to `W[159]` of the default table (43_overlap_add_synthesizer.md R147). -/
def hannRows4 : List Word :=
  [0x3F800000#32, 0x3F7FF622#32, 0x3F7FD888#32, 0x3F7FA737#32, 0x3F7F6237#32, 0x3F7F0992#32, 0x3F7E9D56#32, 0x3F7E1D94#32,
   0x3F7D8A5F#32, 0x3F7CE3CF#32, 0x3F7C29FC#32, 0x3F7B5D04#32, 0x3F7A7D05#32, 0x3F798A24#32, 0x3F788484#32, 0x3F776C4F#32,
   0x3F7641AF#32, 0x3F7504D3#32, 0x3F73B5EC#32, 0x3F72552D#32, 0x3F70E2CC#32, 0x3F6F5F03#32, 0x3F6DCA0D#32, 0x3F6C2429#32,
   0x3F6A6D99#32, 0x3F68A69F#32, 0x3F66CF81#32, 0x3F64E889#32, 0x3F62F202#32, 0x3F60EC38#32, 0x3F5ED77D#32, 0x3F5CB421#32]

/-- `W[160]` to `W[191]` of the default table (43_overlap_add_synthesizer.md R147). -/
def hannRows5 : List Word :=
  [0x3F5A827A#32, 0x3F5842DD#32, 0x3F55F5A5#32, 0x3F539B2B#32, 0x3F5133CD#32, 0x3F4EBFE9#32, 0x3F4C3FE0#32, 0x3F49B415#32,
   0x3F471CED#32, 0x3F447ACD#32, 0x3F41CE1E#32, 0x3F3F174A#32, 0x3F3C56BA#32, 0x3F398CDD#32, 0x3F36BA20#32, 0x3F33DEF3#32,
   0x3F30FBC5#32, 0x3F2E110A#32, 0x3F2B1F35#32, 0x3F2826B9#32, 0x3F25280C#32, 0x3F2223A5#32, 0x3F1F19F9#32, 0x3F1C0B82#32,
   0x3F18F8B8#32, 0x3F15E214#32, 0x3F12C810#32, 0x3F0FAB27#32, 0x3F0C8BD3#32, 0x3F096A90#32, 0x3F0647D9#32, 0x3F03242B#32]

/-- `W[192]` to `W[223]` of the default table (43_overlap_add_synthesizer.md R147). -/
def hannRows6 : List Word :=
  [0x3F000000#32, 0x3EF9B7AB#32, 0x3EF3704D#32, 0x3EED2ADF#32, 0x3EE6E859#32, 0x3EE0A9B2#32, 0x3EDA6FDF#32, 0x3ED43BD7#32,
   0x3ECE0E90#32, 0x3EC7E8FB#32, 0x3EC1CC0D#32, 0x3EBBB8B6#32, 0x3EB5AFE7#32, 0x3EAFB28E#32, 0x3EA9C196#32, 0x3EA3DDEB#32,
   0x3E9E0875#32, 0x3E98421B#32, 0x3E928BC0#32, 0x3E8CE646#32, 0x3E87528B#32, 0x3E81D16D#32, 0x3E78C786#32, 0x3E6E14CB#32,
   0x3E638C4C#32, 0x3E592FAB#32, 0x3E4F0080#32, 0x3E45005D#32, 0x3E3B30CE#32, 0x3E319354#32, 0x3E28296D#32, 0x3E1EF48B#32]

/-- `W[224]` to `W[255]` of the default table (43_overlap_add_synthesizer.md R147). -/
def hannRows7 : List Word :=
  [0x3E15F61A#32, 0x3E0D2F7D#32, 0x3E04A20E#32, 0x3DF89E3F#32, 0x3DE86FF3#32, 0x3DD8BBB7#32, 0x3DC983F7#32, 0x3DBACB0C#32,
   0x3DAC933B#32, 0x3D9EDEB5#32, 0x3D91AF97#32, 0x3D8507EA#32, 0x3D71D344#32, 0x3D5AAD38#32, 0x3D44A143#32, 0x3D2FB2CC#32,
   0x3D1BE50C#32, 0x3D093B12#32, 0x3CEF6F7E#32, 0x3CCEBB8A#32, 0x3CB05F55#32, 0x3C945F8C#32, 0x3C758104#32, 0x3C470C54#32,
   0x3C1D6830#32, 0x3BF1360B#32, 0x3BB15502#32, 0x3B766E3C#32, 0x3B1DC971#32, 0x3AB19298#32, 0x3A1DE1C8#32, 0x391DE7DF#32]

/-- The default table as a list, index 0 first (43_overlap_add_synthesizer.md R147). -/
def hannTable : List Word :=
  hannRows0 ++ hannRows1 ++ hannRows2 ++ hannRows3 ++ hannRows4 ++ hannRows5 ++ hannRows6 ++ hannRows7

/-- The default `WINDOW_ROM` (43_overlap_add_synthesizer.md R147). -/
def defaultWindowRom : Vector Word Config.nwin := ⟨hannTable.toArray, by decide +kernel⟩

end Sys2Proof.Machine
end

