-- ==== Sys2Proof/Machine/Parameters.lean ====
section
/-! DEFINITION. The constants of 00_scope.md R6 and the default values of the parameters of 00_scope.md R7. -/

namespace Sys2Proof.Machine

/-- `DECAY`, the binary32 nearest 0.9975 (00_scope.md R6, 41_leaky_autocorrelator.md R101). -/
def decayWord : Word := 0x3F7F5C29#32

/-- `CW`, the complementary weight: the literal 0.0025 rounded once, not `1 - DECAY` (41_leaky_autocorrelator.md R101,
90_conflicts.md C6). -/
def weightWord : Word := 0x3B23D70A#32

/-- `EPS`, exactly `2^-10` (00_scope.md R6). -/
def epsilonWord : Word := 0x3A800000#32

/-- 1.0, the numerator of the grain scale (43_overlap_add_synthesizer.md R140). -/
def oneWord : Word := 0x3F800000#32

/-- `+0.0` (00_scope.md R11). -/
def zeroWord : Word := 0x00000000#32

/-- `DEFAULT_NOTE` (00_scope.md R7, 92_eei_decisions.md D9). -/
def defaultNote : Note := 57#7

/-- The defaults of the named parameters, used everywhere in the spec (00_scope.md R7). -/
def defaultParameters : Config.Parameters where
  deltaOf := defaultDeltaOf
  deltaOf_pos := defaultDeltaOf_pos
  windowRom := defaultWindowRom

end Sys2Proof.Machine
end

