-- ==== Sys2Proof/Machine/State.lean ====
section
/-! DEFINITION. The state record of the block (10_state.md R20 to R33, 30_encoding.md R70), its power-on value (70_reset_and_hazards.md
R230), and the reasons a step could stop. -/

namespace Sys2Proof.Machine

/-- Why a step of the model could end in a fault: never. It has no constructor. The block has no condition that stops it: the four
conditions of 60_exceptions.md R202 are taken as the spec describes them, with a next state that has `ERR` set and a response
(`raiseFault` in Machine/Ops.lean), no arithmetic and no addressing condition faults (60_exceptions.md R200), and `Execute` gives a
meaning to all 2^64 words (30_encoding.md R76). DEDUCED, log entry 8. -/
inductive Fault where
deriving DecidableEq, Repr

/-- Why a step of the model could be refused. -/
inductive Refusal where
  /-- An instruction that has no meaning yet, raised by its arm of `exec` alone. Safe. No arm raises it: all four commands have their
  meaning. -/
  | notModelled (mnemonic : String)
deriving DecidableEq, Repr

/-- The whole state. The first eleven fields are the elements of 10_state.md R20; the last two are the interface of 30_encoding.md
R70. The internal memories are vectors of whole 32-bit entries, because every access moves one whole entry at an index that is always
in range and there is no byte-addressed storage (20_memory.md R51, R52, R55, R56). DEDUCED, log entry 6. -/
structure State where
  /-- `X`, input history (10_state.md R21). -/
  x : Vector Word Config.nring
  /-- `Y`, output accumulator (10_state.md R22). -/
  y : Vector Word Config.nring
  /-- `R`, autocorrelation profile (10_state.md R23). -/
  r : Vector Word Config.nlag
  /-- `W`, window table (10_state.md R24). -/
  w : Vector Word Config.nwin
  /-- `PHASE` (10_state.md R25). -/
  phase : Word
  /-- `DELTA` (10_state.md R26). -/
  delta : Word
  /-- `POS` (10_state.md R27). -/
  pos : RingAddr
  /-- `FS` (10_state.md R28). -/
  fs : Word
  /-- `CFG`, configured (10_state.md R29). -/
  cfg : Bool
  /-- `ERR`, faulted (10_state.md R30). -/
  err : Bool
  /-- `CAUSE`, the first fault's cause code (10_state.md R31). -/
  cause : BitVec 4
  /-- The command channel: the words the host will issue, in order, the head first (30_encoding.md R70, 10_state.md R35).
  DESIGN CHOICE, log entry 1. -/
  commands : List CommandWord
  /-- The response channel: the responses the core has returned, in order, the oldest first (30_encoding.md R70). DESIGN CHOICE,
  log entry 4. -/
  responses : List ResponseWord
deriving DecidableEq, Repr

/-- Power-on reset: the value of every element after it (70_reset_and_hazards.md R230), with both channels empty (DESIGN CHOICE,
log entry 5). -/
def State.powerOn (P : Config.Parameters) : State where
  x := Vector.replicate Config.nring zeroWord
  y := Vector.replicate Config.nring zeroWord
  r := Vector.replicate Config.nlag zeroWord
  w := P.windowRom
  phase := 0#32
  delta := 0#32
  pos := 0#8
  fs := 0#32
  cfg := false
  err := false
  cause := 0#4
  commands := []
  responses := []

/-- The machine right after power-on reset, with the default parameters (70_reset_and_hazards.md R230, 00_scope.md R7; DESIGN
CHOICE, log entry 7). Power-on itself is no step (DEDUCED, log entry 17). -/
def State.reset : State := State.powerOn defaultParameters

end Sys2Proof.Machine
end

