-- ==== Sys2Proof/Machine/Flags.lean ====
section
/-! DEFINITION. The flag and the two read-out words: `TRIG` (10_state.md R33, 42_phase_accumulator_trigger.md R120), the STATUS
register (10_state.md R32) and the response word (30_encoding.md R75). -/

namespace Sys2Proof.Machine

/-- `TRIG`: the NEW `PHASE` is below `DELTA`, as unsigned numbers (42_phase_accumulator_trigger.md R120). -/
def trigFlag (newPhase delta : Word) : Bool := newPhase.ult delta

/-- One bit of a word from a flag. -/
def flagBit (b : Bool) : BitVec 1 := BitVec.ofBool b

/-- The STATUS register: `CFG` in bit 0, `ERR` in bit 1, `CAUSE` in bits 7:4, `POS` in bits 15:8, every other bit 0
(10_state.md R32, 45_control.md R182). -/
def statusWord (s : State) : Word :=
  0#16 ++ s.pos ++ s.cause ++ 0#2 ++ flagBit s.err ++ flagBit s.cfg

/-- `rsp = (30'b0, ERR, trig, data32)` (30_encoding.md R75). -/
def responseWord (err trig : Bool) (data : Word) : ResponseWord :=
  0#30 ++ flagBit err ++ flagBit trig ++ data

end Sys2Proof.Machine
end

