-- ==== Sys2Proof/Machine/Operands.lean ====
section
/-! DEFINITION. The operand forms: ring addresses (20_memory.md R52, R53), the indices of `R` and `W` (20_memory.md R54), and reads and
writes of the four internal memories (20_memory.md R51, R56). The operands of the commands are assembled by the decoder
(30_encoding.md R74). -/

namespace Sys2Proof.Machine

/-- `p ⊕ k`, which is `(p + k) mod 256`, for any integer `k` (00_scope.md R9). -/
def ringPlus (p : RingAddr) (k : Int) : RingAddr := p + BitVec.ofInt 8 k

/-- `p ⊖ k`, which is `(p - k) mod 256`, for any integer `k` (00_scope.md R9). -/
def ringMinus (p : RingAddr) (k : Int) : RingAddr := p - BitVec.ofInt 8 k

/-- The lag `L`, for `0 <= L < 128` (20_memory.md R54). -/
def lagIndex (L : Nat) : Lag := BitVec.ofNat 7 L

/-- The window index `i`, for `0 <= i < 256` (20_memory.md R54). -/
def windowIndex (i : Nat) : RingAddr := BitVec.ofNat 8 i

/-- `X[a]` (00_scope.md R10). -/
def State.readX (s : State) (a : RingAddr) : Word := s.x[a.toNat]'a.isLt

/-- `Y[a]` (00_scope.md R10). -/
def State.readY (s : State) (a : RingAddr) : Word := s.y[a.toNat]'a.isLt

/-- `R[L]` (00_scope.md R10). -/
def State.readR (s : State) (L : Lag) : Word := s.r[L.toNat]'L.isLt

/-- `W[i]` (00_scope.md R10). -/
def State.readW (s : State) (i : RingAddr) : Word := s.w[i.toNat]'i.isLt

/-- `X[a] <- v` (00_scope.md R10). -/
def State.writeX (s : State) (a : RingAddr) (v : Word) : State := { s with x := s.x.set a.toNat v a.isLt }

/-- `Y[a] <- v` (00_scope.md R10). -/
def State.writeY (s : State) (a : RingAddr) (v : Word) : State := { s with y := s.y.set a.toNat v a.isLt }

/-- `R[L] <- v` (00_scope.md R10). -/
def State.writeR (s : State) (L : Lag) (v : Word) : State := { s with r := s.r.set L.toNat v L.isLt }

/-- `POS <- p` (10_state.md R27). -/
def State.setPos (s : State) (p : RingAddr) : State := { s with pos := p }

/-- `PHASE <- v` (10_state.md R25). -/
def State.setPhase (s : State) (v : Word) : State := { s with phase := v }

/-- `DELTA <- v` (10_state.md R26). -/
def State.setDelta (s : State) (v : Word) : State := { s with delta := v }

/-- `for i in [a, b)`: the body at `i = a, a+1, ..., b-1` in that order, every write seen by every later read (00_scope.md R10). -/
def forRange (a b : Nat) (body : Nat → State → State) (s : State) : State :=
  (List.range' a (b - a)).foldl (fun t i => body i t) s

end Sys2Proof.Machine
end

