-- ==== Sys2Proof/Machine/Ops.lean ====
section
/-! DEFINITION. The shared operations: responding, taking a fault, the faulted state, and the two channels (30_encoding.md R70, R75,
60_exceptions.md R200 to R205). There is no return from a fault: power-on reset (`State.powerOn`) is the one way out. -/

namespace Sys2Proof.Machine

/-- The outcome of a step of this machine. -/
abbrev StepOutcome := Host.Outcome State Fault Refusal

/-- The fault causes (60_exceptions.md R202). -/
inductive FaultCause where
  /-- The word is no legal command. -/
  | illegalCommand
  /-- NOTE_ON or SAMPLE while `CFG = 0`. -/
  | notConfigured
  /-- RESET with `fs = 0`. -/
  | badRate
  /-- RESET or NOTE_ON whose `DELTA_OF` is `2^32` or more. -/
  | deltaRange
deriving DecidableEq, Repr

/-- The code a cause leaves in `CAUSE` (60_exceptions.md R202). -/
def faultCode : FaultCause → BitVec 4
  | .illegalCommand => 1#4
  | .notConfigured => 2#4
  | .badRate => 3#4
  | .deltaRange => 4#4

/-- `respond(data32, trig)`: the response word with the value of `ERR` after the command goes to the host (30_encoding.md R75). -/
def respond (data : Word) (trig : Bool) (s : State) : State :=
  { s with responses := s.responses ++ [responseWord s.err trig data] }

/-- `raise Fault(c)`: `ERR` and `CAUSE` are written, the response is `respond(0, 0)`, and the command ends
(60_exceptions.md R201). -/
def raiseFault (c : FaultCause) (s : State) : State :=
  respond zeroWord false { s with err := true, cause := faultCode c }

/-- A command in the faulted state: no state changes, and the response is `respond(0, 0)` (60_exceptions.md R204,
30_encoding.md R76). -/
def ignoreCommand (s : State) : State := respond zeroWord false s

/-- A command that the faulted state ignores: its body runs only while `ERR = 0` (60_exceptions.md R204, 30_encoding.md R76).
The check stands here and not ahead of the case split (DEDUCED, log entry 13). -/
def unlessFaulted (body : State → State) (s : State) : State := if s.err then ignoreCommand s else body s

/-- What an illegal word does (30_encoding.md R76, R77). -/
def illegalCommand (s : State) : StepOutcome := .next (unlessFaulted (raiseFault .illegalCommand) s)

/-- The next command word of the command channel, and the state with it taken off the channel; none while the host has issued nothing
(30_encoding.md R70). -/
def takeCommand (s : State) : Option (CommandWord × State) :=
  match s.commands with
  | [] => none
  | w :: rest => some (w, { s with commands := rest })

/-- The host issues `w` after everything it has issued before (30_encoding.md R70). -/
def issueCommand (w : CommandWord) (s : State) : State := { s with commands := s.commands ++ [w] }

/-- The host issues `w` next, ahead of the commands still on the channel. -/
def issueNext (w : CommandWord) (s : State) : State := { s with commands := w :: s.commands }

end Sys2Proof.Machine
end

