-- ==== Sys2Proof/Machine/Control.lean ====
section
/-! DEFINITION. The control commands RESET and STATUS (45_control.md R180 to R183, 70_reset_and_hazards.md R232, R233). -/

namespace Sys2Proof.Machine

/-- The writes of a RESET that does not fault (45_control.md R180, 70_reset_and_hazards.md R232): `W`, `ERR` and `CAUSE` are left alone
(70_reset_and_hazards.md R233). -/
def warmReset (fs : Word) (d : Nat) (s : State) : State :=
  { s with
    x := Vector.replicate Config.nring zeroWord
    y := Vector.replicate Config.nring zeroWord
    r := Vector.replicate Config.nlag zeroWord
    pos := 0#8
    phase := 0#32
    delta := BitVec.ofNat 32 d
    fs := fs
    cfg := true }

/-- `RESET(fs)` of a block that is not faulted, over any parameters (45_control.md R180, R181). -/
def resetCommand (P : Config.Parameters) (fs : Word) (s : State) : State :=
  if fs = 0#32 then raiseFault .badRate s
  else
    let d := P.deltaOf fs.toNat defaultNote.toNat
    if 2 ^ 32 ≤ d then raiseFault .deltaRange s
    else respond zeroWord false (warmReset fs d s)

/-- RESET `fs` over any parameters (45_control.md R180, 60_exceptions.md R204). -/
def execResetOver (P : Config.Parameters) (fs : Word) (s : State) : StepOutcome :=
  .next (unlessFaulted (resetCommand P fs) s)

/-- RESET `fs` (45_control.md R180, 60_exceptions.md R204). -/
def execReset (fs : Word) (s : State) : StepOutcome := execResetOver defaultParameters fs s

/-- STATUS, the one command that works in the faulted state too (45_control.md R182, R183, 60_exceptions.md R204). -/
def execStatus (s : State) : StepOutcome := .next (respond (statusWord s) false s)

end Sys2Proof.Machine
end

