-- ==== Sys2Proof/Machine/Autocorrelator.lean ====
section
/-! DEFINITION. The leaky autocorrelator, step (b) of SAMPLE (41_leaky_autocorrelator.md R100, R101). -/

namespace Sys2Proof.Machine

/-- Decay then blend, in the grouping of 41_leaky_autocorrelator.md R100 and R101: the new `R[L]` from the old one, `X[now]` and
`X[now - L]`. -/
def blendLag (old xNow xLag : Word) : Word :=
  let t1 := fmul old decayWord
  let t2 := fmul weightWord xNow
  let t3 := fmul t2 xLag
  fadd t1 t3

/-- The update of one lag (41_leaky_autocorrelator.md R100). -/
def updateLag (p : RingAddr) (xNow : Word) (L : Nat) (s : State) : State :=
  s.writeR (lagIndex L) (blendLag (s.readR (lagIndex L)) xNow (s.readX (ringMinus p L)))

/-- `ACU_UPDATE(p)`: every lag 0..127 in ascending order (41_leaky_autocorrelator.md R100). -/
def acuUpdate (p : RingAddr) (s : State) : State :=
  let xNow := s.readX p
  forRange 0 Config.nlag (updateLag p xNow) s

end Sys2Proof.Machine
end

