-- ==== Sys2Proof/Machine/Synthesizer.lean ====
section
/-! DEFINITION. The windowed overlap-add synthesizer, step (d) of SAMPLE (43_overlap_add_synthesizer.md R140 to R144). -/

namespace Sys2Proof.Machine

/-- The grain scale `1 / sqrt(R[0] + EPS)`, three rounded operations (43_overlap_add_synthesizer.md R141). -/
def grainScale (s : State) : Word := fdiv oneWord (fsqrt (fadd (s.readR (lagIndex 0)) epsilonWord))

/-- One windowed, scaled term of a grain (43_overlap_add_synthesizer.md R142, R143). -/
def grainTerm (lagValue windowValue scale : Word) : Word := fmul (fmul lagValue windowValue) scale

/-- `Y[a] <- fadd(Y[a], term)` (43_overlap_add_synthesizer.md R140). -/
def addToSlot (a : RingAddr) (term : Word) (s : State) : State := s.writeY a (fadd (s.readY a) term)

/-- Term `k` of the backward half, for `1 <= k < 128` (43_overlap_add_synthesizer.md R142). -/
def addBackwardTerm (p : RingAddr) (scale : Word) (k : Nat) (s : State) : State :=
  addToSlot (ringPlus p k) (grainTerm (s.readR (lagIndex (128 - k))) (s.readW (windowIndex k)) scale) s

/-- Term `k` of the forward half, for `0 <= k < 128` (43_overlap_add_synthesizer.md R143). -/
def addForwardTerm (p : RingAddr) (scale : Word) (k : Nat) (s : State) : State :=
  addToSlot (ringPlus p (128 + k)) (grainTerm (s.readR (lagIndex k)) (s.readW (windowIndex (k + 128))) scale) s

/-- `OLA_GRAIN(p)`: the backward half, then the forward half (43_overlap_add_synthesizer.md R140). -/
def olaGrain (p : RingAddr) (s : State) : State :=
  let scale := grainScale s
  forRange 0 128 (addForwardTerm p scale) (forRange 1 128 (addBackwardTerm p scale) s)

end Sys2Proof.Machine
end

