-- ==== Sys2Proof/Machine/Trigger.lean ====
section
/-! DEFINITION. The phase accumulator and trigger, step (c) of SAMPLE (42_phase_accumulator_trigger.md R120), and NOTE_ON
(42_phase_accumulator_trigger.md R122, R125). -/

namespace Sys2Proof.Machine

/-- `PHASE_STEP()`: `PHASE` advances by `DELTA` modulo `2^32`, and `TRIG` compares the new `PHASE` with `DELTA`
(42_phase_accumulator_trigger.md R120). -/
def phaseStep (s : State) : State × Bool :=
  let newPhase := s.phase + s.delta
  (s.setPhase newPhase, trigFlag newPhase s.delta)

/-- `NOTE_ON(n)` of a block that is not faulted, over any parameters (42_phase_accumulator_trigger.md R122). -/
def noteOnCommand (P : Config.Parameters) (n : Note) (s : State) : State :=
  if s.cfg = false then raiseFault .notConfigured s
  else
    let d := P.deltaOf s.fs.toNat n.toNat
    if 2 ^ 32 ≤ d then raiseFault .deltaRange s
    else respond zeroWord false (s.setDelta (BitVec.ofNat 32 d))

/-- NOTE_ON `n` over any parameters (42_phase_accumulator_trigger.md R122, 60_exceptions.md R204). -/
def execNoteOnOver (P : Config.Parameters) (n : Note) (s : State) : StepOutcome :=
  .next (unlessFaulted (noteOnCommand P n) s)

/-- NOTE_ON `n` (42_phase_accumulator_trigger.md R122, 60_exceptions.md R204). -/
def execNoteOn (n : Note) (s : State) : StepOutcome := execNoteOnOver defaultParameters n s

end Sys2Proof.Machine
end

