-- ==== Sys2Proof/Machine/Sample.lean ====
section
/-! DEFINITION. The SAMPLE command (44_sample_step.md R160 to R164). -/

namespace Sys2Proof.Machine

/-- Step (d): the grain, gated on `TRIG` (44_sample_step.md R160). -/
def grainIf (trig : Bool) (p : RingAddr) (s : State) : State := if trig then olaGrain p s else s

/-- Steps (e), (f), (g) and the response: emit `Y[p]`, clear it to `+0.0`, advance `POS` (44_sample_step.md R160). -/
def emitSample (trig : Bool) (p : RingAddr) (s : State) : State :=
  let out := s.readY p
  respond out trig ((s.writeY p zeroWord).setPos (ringPlus p 1))

/-- Steps (a) to (g) of a sample step, in order (44_sample_step.md R160, R162). -/
def sampleStep (x : Word) (s : State) : State :=
  let p := s.pos
  let written := s.writeX p x
  let blended := acuUpdate p written
  let phased := phaseStep blended
  emitSample phased.2 p (grainIf phased.2 p phased.1)

/-- `SAMPLE(x)` of a block that is not faulted (44_sample_step.md R160, R161). -/
def sampleCommand (x : Word) (s : State) : State :=
  if s.cfg = false then raiseFault .notConfigured s else sampleStep x s

/-- SAMPLE `x` (44_sample_step.md R160, 60_exceptions.md R204). -/
def execSample (x : Word) (s : State) : StepOutcome := .next (unlessFaulted (sampleCommand x) s)

end Sys2Proof.Machine
end

