-- ==== Sys2Proof/Syntax.lean ====
section
/-! DEFINITION. The four commands of the block, one constructor for each row of spec/opcode_table.json. -/

namespace Sys2Proof

/-- A legal command (30_encoding.md R72 to R74). Every operand has exactly the width of its payload field, so no operand out of
range can be written down. -/
inductive Instr where
  /-- RESET `fs`: reset the state and set the sample rate in Hz (45_control.md R180). -/
  | reset (fs : Word)
  /-- NOTE_ON `n`: set the pitch from a note number (42_phase_accumulator_trigger.md R122). -/
  | noteOn (n : Note)
  /-- SAMPLE `x`: take one binary32 input sample and emit one output sample (44_sample_step.md R160). -/
  | sample (x : Word)
  /-- STATUS: read the STATUS register (45_control.md R182). -/
  | status
deriving DecidableEq, Repr

end Sys2Proof
end

