-- ==== Sys2Proof/Machine/Dispatch.lean ====
section
/-! DEFINITION. The meaning of each command, one arm for each constructor of `Instr`. -/

namespace Sys2Proof.Machine

/-- The case split of `Execute` (30_encoding.md R76). -/
def exec (i : Instr) (s : State) : Host.Outcome State Fault Refusal :=
  match i with
  | .reset fs => Sys2Proof.Machine.execReset fs s
  | .noteOn n => Sys2Proof.Machine.execNoteOn n s
  | .sample x => Sys2Proof.Machine.execSample x s
  | .status => Sys2Proof.Machine.execStatus s

end Sys2Proof.Machine
end

