-- ==== Sys2Proof/WellFormed.lean ====
section
/-! DEFINITION. Which 64-bit words are legal commands (30_encoding.md R73, R76, R77). The operands of `Instr` are typed at their
encoded widths, so every term of `Instr` is well formed by construction, and well-formedness is a check on command words. -/

namespace Sys2Proof

/-- `OP`, bits 63:56 of a command word (30_encoding.md R71). -/
def CommandWord.op (w : CommandWord) : BitVec 8 := w.extractLsb' 56 8

/-- `RSV`, bits 55:32 of a command word (30_encoding.md R71). -/
def CommandWord.rsv (w : CommandWord) : BitVec 24 := w.extractLsb' 32 24

/-- `PAY`, bits 31:0 of a command word (30_encoding.md R71). -/
def CommandWord.pay (w : CommandWord) : Word := w.extractLsb' 0 32

/-- `PAY[31:7]`, the reserved payload bits of NOTE_ON (30_encoding.md R73). -/
def CommandWord.noteReserved (w : CommandWord) : BitVec 25 := w.extractLsb' 7 25

/-- `legal` of `Execute`, clause by clause (30_encoding.md R76). -/
def CommandWord.legal (w : CommandWord) : Bool :=
  (w.op == 0x01#8 && w.rsv == 0#24)
    || (w.op == 0x02#8 && w.rsv == 0#24 && w.noteReserved == 0#25)
    || (w.op == 0x03#8 && w.rsv == 0#24)
    || (w.op == 0x04#8 && w.rsv == 0#24 && w.pay == 0#32)

end Sys2Proof
end

