-- ==== Sys2Proof/Decode.lean ====
section
/-! DEFINITION. The decoder of command words, total and rejecting by name, the encoder, and the byte serialisation of 64-bit words
(30_encoding.md R71 to R77, 20_memory.md R55). -/

namespace Sys2Proof

/-- Why a word, or a run of bytes, is no legal command. A word with several faults is named by its OP, then RSV, then PAY (DESIGN CHOICE,
log entry 15). -/
inductive DecodeError where
  /-- `OP` is 0x00 or 0x05..0xFF (30_encoding.md R72, R77). -/
  | illegalOpcode (op : BitVec 8)
  /-- A reserved bit of RSV is nonzero (30_encoding.md R77). -/
  | reservedBits (op : BitVec 8)
  /-- A reserved bit of PAY is nonzero: `PAY[31:7]` of NOTE_ON, or any bit of PAY in STATUS (30_encoding.md R77). -/
  | reservedPayload (op : BitVec 8)
  /-- Fewer than the eight bytes of a command word have arrived (30_encoding.md R71, R78). -/
  | shortCommand
deriving DecidableEq, Repr

/-- The decoder: the command a 64-bit word stands for, or why it is illegal (30_encoding.md R72 to R77). -/
def decode (w : CommandWord) : Except DecodeError Instr :=
  let op := w.extractLsb' 56 8
  let rsv := w.extractLsb' 32 24
  let pay := w.extractLsb' 0 32
  if op = 0x01#8 then
    if rsv = 0#24 then .ok (.reset pay) else .error (.reservedBits op)
  else if op = 0x02#8 then
    if rsv = 0#24 then
      if pay.extractLsb' 7 25 = 0#25 then .ok (.noteOn (pay.extractLsb' 0 7)) else .error (.reservedPayload op)
    else .error (.reservedBits op)
  else if op = 0x03#8 then
    if rsv = 0#24 then .ok (.sample pay) else .error (.reservedBits op)
  else if op = 0x04#8 then
    if rsv = 0#24 then
      if pay = 0#32 then .ok .status else .error (.reservedPayload op)
    else .error (.reservedBits op)
  else .error (.illegalOpcode op)

/-- A command word from its three fields (30_encoding.md R71). -/
def commandWord (op : BitVec 8) (rsv : BitVec 24) (pay : Word) : CommandWord := op ++ rsv ++ pay

/-- The encoder: the one word of a command (30_encoding.md R72, R73). -/
def encode : Instr → CommandWord
  | .reset fs => commandWord 0x01#8 0#24 fs
  | .noteOn n => commandWord 0x02#8 0#24 (0#25 ++ n)
  | .sample x => commandWord 0x03#8 0#24 x
  | .status => commandWord 0x04#8 0#24 0#32

/-- A 64-bit word over a byte-wide link (DEDUCED, log entry 16): byte `i` carries bits `8i+7:8i`, least significant first
(20_memory.md R55). -/
def wordBytes (w : BitVec 64) : List Byte := (List.range 8).map fun i => w.extractLsb' (8 * i) 8

/-- The 64-bit word that eight bytes carry, the first byte the least significant (20_memory.md R55). -/
def wordOfBytes (bs : List Byte) : BitVec 64 :=
  BitVec.ofNat 64 (bs.foldr (fun b acc => b.toNat + 256 * acc) 0)

/-- The decoder over a byte-wide link: the command of the first eight bytes, and the bytes after it. Every command has the same
length (30_encoding.md R78). -/
def decodeBytes (bs : List Byte) : Except DecodeError (Instr × List Byte) :=
  if bs.length < 8 then .error .shortCommand
  else (decode (wordOfBytes (bs.take 8))).map fun i => (i, bs.drop 8)

/-- The command the decoder reads from the low `nbits` bits of `w`, numbered as spec/opcode_table.json numbers them, the bits above
zero. The bits are laid out as the eight bytes of a command word and read back through `decodeBytes`. -/
def decodeTableWord (nbits w : Nat) : Option Instr :=
  match decodeBytes (wordBytes (BitVec.ofNat 64 (w % 2 ^ nbits))) with
  | .ok (i, _) => some i
  | .error _ => none

end Sys2Proof
end

