-- ==== Sys2Proof/Machine/Execute.lean ====
section
/-! DEFINITION. `Execute` and one step, over the case split that says what each command does (30_encoding.md R70, R76). -/

namespace Sys2Proof.Machine

/-- `Execute(w)`: the meaning of the command `w` stands for, or of an illegal word (30_encoding.md R76). -/
def executeWith (command : Instr → State → StepOutcome) (w : CommandWord) (s : State) : StepOutcome :=
  match decode w with
  | .ok i => command i s
  | .error _ => illegalCommand s

/-- One step: the next command of the command channel is executed, as one atomic step with one response (30_encoding.md R70,
20_memory.md R57). While the host has issued no command the block waits: it holds its state and does nothing
(70_reset_and_hazards.md R231, 60_exceptions.md R211; DESIGN CHOICE, log entry 2). -/
def stepWith (command : Instr → State → StepOutcome) (s : State) : StepOutcome :=
  match takeCommand s with
  | none => .next s
  | some (w, t) => executeWith command w t

end Sys2Proof.Machine
end

