-- ==== Sys2Proof/Machine/Step.lean ====
section
/-! DEFINITION. One step of the machine: one command with its response (30_encoding.md R70, R76). -/

namespace Sys2Proof.Machine

/-- `Execute(w)` of the machine (30_encoding.md R76). -/
def execute (w : CommandWord) (s : State) : StepOutcome := executeWith exec w s

/-- One step of the machine (30_encoding.md R70). -/
def step (s : State) : Host.Outcome State Fault Refusal := stepWith exec s

/-- `s` with the command whose low `nbits` bits are those of `w`, the bits above zero, as the next word of the command channel:
the host issues it next (DESIGN CHOICE, log entry 3). -/
def State.withFetchWord (s : State) (nbits w : Nat) : State := issueNext (BitVec.ofNat 64 (w % 2 ^ nbits)) s

end Sys2Proof.Machine
end

