-- ==== Sys2Proof/Machine/Assembler.lean ====
section
/-! DEFINITION. The assembler of the spec's programs (30_encoding.md R79, R80): one command a line, the pseudo-instructions, and the
operands it refuses. It belongs to the host's side of the interface; no step of the machine uses it. What
the syntax leaves open is a DESIGN CHOICE, log entry 14. -/

namespace Sys2Proof.Machine

/-- One line of assembler source after its text is read (30_encoding.md R79, R80). -/
inductive AsmLine where
  /-- `RESET <fs>`. -/
  | reset (fs : Nat)
  /-- `NOTE_ON <n>`. -/
  | noteOn (n : Nat)
  /-- `SAMPLE <x>` with `x` the decimal real `mantissa / 10^places`. -/
  | sampleDecimal (mantissa : Int) (places : Nat)
  /-- `SAMPLE 0x<8 hex digits>`, a raw bit pattern. -/
  | sampleBits (bits : Nat)
  /-- `STATUS`. -/
  | status
  /-- `.word64 <hex>`, any raw command word. -/
  | word64 (w : Nat)
  /-- `SILENCE <k>`. -/
  | silence (k : Nat)
  /-- `IMPULSE`. -/
  | impulse
deriving DecidableEq, Repr

/-- Bits 30:0 of a decimal real rounded to binary32, nearest even (30_encoding.md R79). One unit is `2^-149`. -/
def decimalMagnitude (mantissa : Int) (places : Nat) : Nat :=
  roundMagnitude (mantissa.natAbs * 2 ^ 149) (10 ^ places)

/-- The command words of a line, none where the assembler refuses it (30_encoding.md R79, R80). -/
def assemble : AsmLine → Option (List CommandWord)
  | .reset fs => if fs < 2 ^ 32 then some [encode (.reset (BitVec.ofNat 32 fs))] else none
  | .noteOn n => if n ≤ 127 then some [encode (.noteOn (BitVec.ofNat 7 n))] else none
  | .sampleDecimal m places =>
    if decimalMagnitude m places < infinityMagnitude then
      some [encode (.sample (packFloat (decide (m < 0)) (decimalMagnitude m places)))]
    else none
  | .sampleBits b => if b < 2 ^ 32 then some [encode (.sample (BitVec.ofNat 32 b))] else none
  | .status => some [encode .status]
  | .word64 w => if w < 2 ^ 64 then some [BitVec.ofNat 64 w] else none
  | .silence k => if 1 ≤ k then some (List.replicate k (encode (.sample 0x00000000#32))) else none
  | .impulse => some [encode (.sample 0x3F800000#32)]

/-- The value of a decimal digit. -/
def decimalDigit (c : Char) : Option Nat :=
  "0123456789".toList.idxOf? c

/-- The value of a hexadecimal digit, either case: the letters go on where the decimal digits end. -/
def hexDigit (c : Char) : Option Nat :=
  (decimalDigit c).or (("ABCDEF".toList.idxOf? c.toUpper).map fun letter => 10 + letter)

/-- The number that a nonempty run of digits in the given base stands for. -/
def digitsValue (base : Nat) (digit : Char → Option Nat) (cs : List Char) : Option Nat :=
  if cs.isEmpty then none
  else cs.foldl (fun acc c => acc.bind fun n => (digit c).map fun d => base * n + d) (some 0)

/-- A hexadecimal constant without its `0x`: its underscores are only for reading (30_encoding.md R79). -/
def hexValue (cs : List Char) : Option Nat := digitsValue 16 hexDigit (cs.filter (· ≠ '_'))

/-- The hexadecimal digits after a leading `0x`. -/
def afterHexMark : List Char → Option (List Char)
  | '0' :: 'x' :: rest => some rest
  | _ => none

/-- A RESET operand: decimal, or hexadecimal after `0x` (30_encoding.md R79). -/
def parseNumber (cs : List Char) : Option Nat :=
  match afterHexMark cs with
  | some hs => hexValue hs
  | none => digitsValue 10 decimalDigit cs

/-- An unsigned decimal real: digits, with at most one decimal point among or after them. -/
def parseReal (cs : List Char) : Option (Nat × Nat) :=
  let whole := cs.takeWhile (· ≠ '.')
  match cs.dropWhile (· ≠ '.') with
  | [] => (digitsValue 10 decimalDigit whole).map fun n => (n, 0)
  | _ :: fraction => (digitsValue 10 decimalDigit (whole ++ fraction)).map fun n => (n, fraction.length)

/-- A SAMPLE operand: `0x` and eight hexadecimal digits, or a decimal real with an optional sign (30_encoding.md R79). -/
def parseSample (cs : List Char) : Option AsmLine :=
  match afterHexMark cs with
  | some hs =>
    if (hs.filter (· ≠ '_')).length = 8 then (hexValue hs).map .sampleBits else none
  | none =>
    match cs with
    | '-' :: rest => (parseReal rest).map fun r => .sampleDecimal (-(r.1 : Int)) r.2
    | '+' :: rest => (parseReal rest).map fun r => .sampleDecimal r.1 r.2
    | _ => (parseReal cs).map fun r => .sampleDecimal r.1 r.2

/-- The words of a line between its blanks. -/
def tokens (cs : List Char) : List (List Char) :=
  let cut := cs.foldr (fun c acc =>
    if c = ' ' ∨ c = '\t' then [] :: acc
    else match acc with
      | [] => [[c]]
      | t :: ts => (c :: t) :: ts) [[]]
  cut.filter fun t => !t.isEmpty

/-- The text of one line: `;` begins a comment. `some none` is a line without a command, `none` a line that cannot be read
(30_encoding.md R79, R80). -/
def parseLine (cs : List Char) : Option (Option AsmLine) :=
  match tokens (cs.takeWhile (· ≠ ';')) with
  | [] => some none
  | [m] =>
    if m = ['S', 'T', 'A', 'T', 'U', 'S'] then some (some .status)
    else if m = ['I', 'M', 'P', 'U', 'L', 'S', 'E'] then some (some .impulse)
    else none
  | [m, operand] =>
    if m = ['R', 'E', 'S', 'E', 'T'] then (parseNumber operand).map fun n => some (.reset n)
    else if m = ['N', 'O', 'T', 'E', '_', 'O', 'N'] then
      (digitsValue 10 decimalDigit operand).map fun n => some (.noteOn n)
    else if m = ['S', 'A', 'M', 'P', 'L', 'E'] then (parseSample operand).map some
    else if m = ['S', 'I', 'L', 'E', 'N', 'C', 'E'] then
      (digitsValue 10 decimalDigit operand).map fun n => some (.silence n)
    else if m = ['.', 'w', 'o', 'r', 'd', '6', '4'] then
      ((afterHexMark operand).bind hexValue).map fun n => some (.word64 n)
    else none
  | _ => none

/-- The command words of one line of text, none where the assembler refuses it (30_encoding.md R79, R80). -/
def assembleText (cs : List Char) : Option (List CommandWord) :=
  match parseLine cs with
  | none => none
  | some none => some []
  | some (some line) => assemble line

end Sys2Proof.Machine
end

