-- ==== Sys2Proof/Machine/AnyParameters.lean ====
section
/-! DEFINITION. The machine over any value of its two named parameters (00_scope.md R7): `DELTA_OF` and `WINDOW_ROM` are arguments, and
`exec`, `step` and `State.reset` are these at `defaultParameters`. -/

namespace Sys2Proof.Machine

/-- The case split of `Execute` over any parameters (30_encoding.md R76, 00_scope.md R7). SAMPLE reads the window that stands in the
state, and neither it nor STATUS asks for `DELTA_OF`. -/
def execOver (P : Config.Parameters) (i : Instr) (s : State) : StepOutcome :=
  match i with
  | .reset fs => execResetOver P fs s
  | .noteOn n => execNoteOnOver P n s
  | .sample x => execSample x s
  | .status => execStatus s

/-- `Execute(w)` over any parameters (30_encoding.md R76, 00_scope.md R7). -/
def executeOver (P : Config.Parameters) (w : CommandWord) (s : State) : StepOutcome := executeWith (execOver P) w s

/-- One step over any parameters (30_encoding.md R70, 00_scope.md R7). -/
def stepOver (P : Config.Parameters) (s : State) : StepOutcome := stepWith (execOver P) s

/-- The whole machine over any parameters: its step, and its power-on reset with `W` at `WINDOW_ROM` (00_scope.md R7,
70_reset_and_hazards.md R230). -/
def machineOver (P : Config.Parameters) : Host.Core where
  State := State
  Fault := Fault
  Refusal := Refusal
  step := stepOver P
  reset := State.powerOn P

end Sys2Proof.Machine
end

