-- ==== Sys2Proof/Safety.lean ====
section
/-! DEFINITION. The terms that claims use: the real value of a pattern and correct rounding (00_scope.md R11, R12), the value a grain
adds to a slot (43_overlap_add_synthesizer.md R144), the invariant of the machine, streams of commands, and states that differ only in
dead input history (10_state.md R36). -/

namespace Sys2Proof.Machine

section Binary32

/-- A NaN pattern (00_scope.md R11). -/
abbrev isNaN (w : Word) : Prop := exponentField w = 255 ∧ fractionField w ≠ 0

/-- A pattern that stands for a number (00_scope.md R11). -/
abbrev isFinite (w : Word) : Prop := exponentField w ≠ 255

/-- `(-1)^s` of a pattern. -/
def signFactor (w : Word) : ℚ := if signBit w then -1 else 1

/-- The value of a finite pattern, in the words of 00_scope.md R11: `(-1)^s * 2^(e-127) * (1 + f/2^23)` where `0 < e < 255`, and
`(-1)^s * 2^-126 * (f/2^23)` where `e = 0`. -/
def binary32Value (w : Word) : ℚ :=
  if exponentField w = 0 then signFactor w * 2 ^ (-126 : ℤ) * ((fractionField w : ℚ) / 2 ^ 23)
  else signFactor w * 2 ^ ((exponentField w : ℤ) - 127) * (1 + (fractionField w : ℚ) / 2 ^ 23)

/-- `w` is the binary32 that the nonzero real `x` rounds to, to nearest with ties to even (00_scope.md R12): from `2^128 - 2^103` on
the infinity of the same sign, below it a finite pattern of the same sign that no finite pattern is nearer than, with an even last bit
where a pattern of another value is as near. -/
def RoundsTo (x : ℝ) (w : Word) : Prop :=
  ((2 : ℝ) ^ 128 - 2 ^ 103 ≤ |x| → (0 < x → w = 0x7F800000#32) ∧ (x < 0 → w = 0xFF800000#32)) ∧
  (|x| < (2 : ℝ) ^ 128 - 2 ^ 103 →
    isFinite w ∧ (0 < x → signBit w = false) ∧ (x < 0 → signBit w = true) ∧
    ∀ v, isFinite v →
      |x - (binary32Value w : ℝ)| ≤ |x - (binary32Value v : ℝ)| ∧
      (|x - (binary32Value w : ℝ)| = |x - (binary32Value v : ℝ)| → binary32Value v ≠ binary32Value w →
        fractionField w % 2 = 0))

/-- Bits 30:0 of a pattern: patterns of finite values of one sign are ordered as these are (00_scope.md R11). -/
def magnitudeBits (w : Word) : Nat := w.toNat % 2 ^ 31

/-- A value the block may compute and keep: never -0, and never a NaN with a payload (00_scope.md R13, 92_eei_decisions.md D31). -/
abbrev isClean (w : Word) : Prop := w ≠ 0x80000000#32 ∧ (isNaN w → w = canonicalNaN)

/-- A value `R[0]` may hold: +0, a positive number, +inf, or the canonical NaN (41_leaky_autocorrelator.md R104). -/
abbrev isEnergy (w : Word) : Prop := w.toNat ≤ 0x7F800000 ∨ w = canonicalNaN

end Binary32

/-- `g(d) = fmul(fmul(R[|d|], W[128 + d]), s)`, the value a grain adds to the slot at distance `d` from its centre
(43_overlap_add_synthesizer.md R144). -/
def grainValue (s : State) (d : Int) : Word :=
  grainTerm (s.readR (lagIndex d.natAbs)) (s.readW (windowIndex (128 + d).toNat)) (grainScale s)

/-- What every step keeps, whatever the parameters are (00_scope.md R7). -/
structure InvOver (P : Config.Parameters) (s : State) : Prop where
  /-- `CAUSE = 0` means no fault (10_state.md R31). -/
  noCause : s.err = false → s.cause = 0#4
  /-- A faulted block holds a cause of 60_exceptions.md R202, and codes 5..15 are never written (10_state.md R31). -/
  someCause : s.err = true → 1 ≤ s.cause.toNat ∧ s.cause.toNat ≤ 4
  /-- NOT_CONFIGURED is the cause only of a block that is still unconfigured (60_exceptions.md R202, R204). -/
  notConfigured : s.err = true → s.cause = 2#4 → s.cfg = false
  /-- A block no RESET has configured is as power-on left it (70_reset_and_hazards.md R230, 44_sample_step.md R161). -/
  unconfigured : s.cfg = false →
    (∀ a, s.readX a = 0#32) ∧ (∀ a, s.readY a = 0#32) ∧ (∀ L, s.readR L = 0#32) ∧
      s.phase = 0#32 ∧ s.delta = 0#32 ∧ s.pos = 0#8 ∧ s.fs = 0#32
  /-- With any `DELTA_OF`, `FS >= 1` whenever `CFG = 1` (10_state.md R28). -/
  rate : s.cfg = true → 1 ≤ s.fs.toNat
  /-- With any `DELTA_OF`, `DELTA >= 1` whenever `CFG = 1`, and it is `DELTA_OF(FS, n)` of some note (10_state.md R26, R37,
  90_conflicts.md C9). -/
  pitch : s.cfg = true → 1 ≤ s.delta.toNat ∧ ∃ n : Note, s.delta.toNat = P.deltaOf s.fs.toNat n.toNat
  /-- The window is computed once and never mutated (10_state.md R24, R37). -/
  window : s.w = P.windowRom
  /-- `R[0]` is never negative and never -0 (41_leaky_autocorrelator.md R104). -/
  energy : isEnergy (s.readR 0#7)
  /-- The profile holds no -0 and no NaN payload. -/
  cleanR : ∀ L, isClean (s.readR L)
  /-- The output accumulator holds no -0 and no NaN payload. -/
  cleanY : ∀ a, isClean (s.readY a)

/-- What every step of the machine keeps: the default parameters add their own bounds. -/
structure Inv (s : State) : Prop extends InvOver defaultParameters s where
  /-- With the default `DELTA_OF`, `FS >= 221` whenever `CFG = 1` (10_state.md R28). -/
  defaultRate : s.cfg = true → 221 ≤ s.fs.toNat
  /-- With the default `DELTA_OF`, `DELTA >= 8` whenever `CFG = 1` (10_state.md R26, R37). -/
  defaultPitch : s.cfg = true → 8 ≤ s.delta.toNat

/-- The first check that a command word fails, in the order of 60_exceptions.md R203, read from the word's own fields: none where it
fails none. -/
def firstFailedCheck (w : CommandWord) (s : State) : Option FaultCause :=
  if CommandWord.legal w = false then some .illegalCommand
  else if (CommandWord.op w = 0x02#8 ∨ CommandWord.op w = 0x03#8) ∧ s.cfg = false then some .notConfigured
  else if CommandWord.op w = 0x01#8 ∧ CommandWord.pay w = 0#32 then some .badRate
  else if (CommandWord.op w = 0x01#8 ∧ 2 ^ 32 ≤ defaultDeltaOf (CommandWord.pay w).toNat 57) ∨
      (CommandWord.op w = 0x02#8 ∧ 2 ^ 32 ≤ defaultDeltaOf s.fs.toNat (CommandWord.pay w).toNat) then some .deltaRange
  else none

/-- The outcome of a block in state `s` whose host issues exactly the words `ws`, in order, one step for each. -/
def afterCommands (ws : List CommandWord) (s : State) : StepOutcome :=
  Host.Core.run Sys2Proof.core ws.length { s with commands := ws }

/-- The command words of a run of samples. -/
def sampleWords (xs : List Word) : List CommandWord := xs.map fun x => encode (.sample x)

/-- Bit 32 of a response, `TRIG` (30_encoding.md R75). -/
def responseTrig (r : ResponseWord) : Bool := r.getLsbD 32

/-- How many of the responses `rs` have `TRIG` set (42_phase_accumulator_trigger.md R121). -/
def triggerCount (rs : List ResponseWord) : Nat := (rs.filter responseTrig).length

/-- The block's memories and registers with the channels put aside: what a command may change besides its response. -/
def State.sameBlock (s t : State) : Prop :=
  s.x = t.x ∧ s.y = t.y ∧ s.r = t.r ∧ s.w = t.w ∧ s.phase = t.phase ∧ s.delta = t.delta ∧ s.pos = t.pos ∧ s.fs = t.fs ∧
    s.cfg = t.cfg ∧ s.err = t.err ∧ s.cause = t.cause

/-- `s` and `t` agree in everything but the entries `X[POS ⊕ j]` for `0 <= j <= 128`, which no later command reads before it overwrites
them (10_state.md R36). -/
def sameButDeadInput (s t : State) : Prop :=
  t = { s with x := t.x } ∧ ∀ L : Nat, 1 ≤ L → L ≤ 127 → s.readX (ringMinus s.pos L) = t.readX (ringMinus s.pos L)

end Sys2Proof.Machine
end

