-- ==== Sys2Proof/Certificates/Slice0/Obligations.lean ====
section
/-! DEFINITION. The statements for the provers, in the order of OBLIGATIONS.json. -/

open Sys2Proof Sys2Proof.Machine

section Encoding

/-- Decode and encode agree on every command, and each legal word has one meaning (30_encoding.md R71 to R74). -/
def Obligations.DecodeEncodeAgree : Prop :=
  (∀ i : Instr, decode (encode i) = .ok i) ∧ ∀ (w : CommandWord) (i : Instr), decode w = .ok i → encode i = w

/-- Which words are illegal, and what executing one does (30_encoding.md R77). -/
def Obligations.IllegalWordsRaiseIllegalCommand : Prop :=
  (∀ w : CommandWord, (∃ e, decode w = .error e) ↔
    CommandWord.op w = 0x00#8 ∨ 5 ≤ (CommandWord.op w).toNat ∨ CommandWord.rsv w ≠ 0#24 ∨
      (CommandWord.op w = 0x02#8 ∧ CommandWord.noteReserved w ≠ 0#25) ∨
      (CommandWord.op w = 0x04#8 ∧ CommandWord.pay w ≠ 0#32)) ∧
  (∀ w : CommandWord, CommandWord.legal w = false ↔ ∃ e, decode w = .error e) ∧
  (∀ (w : CommandWord) (s : State), CommandWord.legal w = false → s.err = false →
    execute w s = .next { s with err := true, cause := 1#4, responses := s.responses ++ [0x0000000200000000#64] }) ∧
  (∀ (w : CommandWord) (s : State), CommandWord.legal w = false → s.err = true →
    execute w s = .next { s with responses := s.responses ++ [0x0000000200000000#64] })

/-- Words written out from the encoding decode to the commands they stand for (30_encoding.md R79, 95_test_vectors.md 2.9). -/
def Obligations.SpecWordsDecode : Prop :=
  decode 0x010000000000AC44#64 = .ok (.reset 44100#32) ∧
  decode 0x01000000FFFFFFFF#64 = .ok (.reset 4294967295#32) ∧
  decode 0x0200000000000045#64 = .ok (.noteOn 69#7) ∧
  decode 0x020000000000007F#64 = .ok (.noteOn 127#7) ∧
  decode 0x0200000000000080#64 = .error (.reservedPayload 0x02#8) ∧
  decode 0x030000003F800000#64 = .ok (.sample 0x3F800000#32) ∧
  decode 0x0300800000000000#64 = .error (.reservedBits 0x03#8) ∧
  decode 0x0400000000000000#64 = .ok .status ∧
  decode 0x0400000000000100#64 = .error (.reservedPayload 0x04#8) ∧
  decode 0x0600000000000000#64 = .error (.illegalOpcode 0x06#8)

/-- A 64-bit word and its eight bytes, least significant first, carry each other (20_memory.md R55). -/
def Obligations.ByteLinkCarriesWords : Prop :=
  (∀ w : BitVec 64, wordOfBytes (wordBytes w) = w) ∧
  (∀ bs : List Byte, bs.length = 8 → wordBytes (wordOfBytes bs) = bs) ∧
  (∀ (w : BitVec 64) (i : Nat), i < 8 → (wordBytes w)[i]? = some (w.extractLsb' (8 * i) 8)) ∧
  (∀ (i : Instr) (rest : List Byte), decodeBytes (wordBytes (encode i) ++ rest) = .ok (i, rest))

/-- What the assembler gives for each form of a line once its text is read, and what it refuses (30_encoding.md R79, R80). That a decimal
operand stands as an integer over a power of ten, that a decimal zero is +0, and that `SILENCE 0` and a `.word64` of more than 64 bits
are refused, is the model's reading (log entry 14). -/
def Obligations.AssemblerFollowsTheSyntax : Prop :=
  (∀ f : Nat, assemble (.reset f) = if f < 2 ^ 32 then some [BitVec.ofNat 64 (0x01 * 2 ^ 56 + f)] else none) ∧
  (∀ n : Nat, assemble (.noteOn n) = if n ≤ 127 then some [BitVec.ofNat 64 (0x02 * 2 ^ 56 + n)] else none) ∧
  (∀ b : Nat, assemble (.sampleBits b) = if b < 2 ^ 32 then some [BitVec.ofNat 64 (0x03 * 2 ^ 56 + b)] else none) ∧
  (∀ w : Nat, assemble (.word64 w) = if w < 2 ^ 64 then some [BitVec.ofNat 64 w] else none) ∧
  assemble .status = some [0x0400000000000000#64] ∧
  assemble .impulse = some [0x030000003F800000#64] ∧
  (∀ k : Nat, assemble (.silence k) = if 1 ≤ k then some (List.replicate k 0x0300000000000000#64) else none) ∧
  (∀ places : Nat, assemble (.sampleDecimal 0 places) = some [0x0300000000000000#64]) ∧
  (∀ (m : Int) (places : Nat), m ≠ 0 →
    (assemble (.sampleDecimal m places) = none ↔ (2 : ℝ) ^ 128 - 2 ^ 103 ≤ |(m : ℝ) / 10 ^ places|) ∧
    ∀ ws, assemble (.sampleDecimal m places) = some ws →
      ∃ x : Word, ws = [encode (.sample x)] ∧ RoundsTo ((m : ℝ) / 10 ^ places) x)

end Encoding

section Steps

/-- A step takes the head of the command channel off the channel and executes it, whatever word it is: `exec` of the command it decodes
to, or ILLEGAL_COMMAND, or, on a faulted block, the response of an ignored word (30_encoding.md R70, R76, R77). That the issued words
stand in the state as a list is the model's choice (log entry 1). -/
def Obligations.StepRunsTheDecodedCommand : Prop :=
  ∀ (s : State) (w : CommandWord) (ws : List CommandWord), s.commands = w :: ws →
    step s = execute w { s with commands := ws } ∧
    (∀ i, decode w = .ok i → step s = exec i { s with commands := ws }) ∧
    (∀ e, decode w = .error e → s.err = false → step s = .next { s with
      err := true, cause := 1#4, commands := ws, responses := s.responses ++ [0x0000000200000000#64] }) ∧
    (∀ e, decode w = .error e → s.err = true → step s = .next { s with
      commands := ws, responses := s.responses ++ [0x0000000200000000#64] })

/-- While the host has issued nothing, the block holds its state and does nothing (60_exceptions.md R211, 70_reset_and_hazards.md
R231). That this waiting is a step of its own, with a next state, is the model's choice (log entry 2). -/
def Obligations.StepWaitsForACommand : Prop := ∀ s : State, s.commands = [] → step s = .next s

/-- `Execute` gives a meaning to every word in every state, with exactly one response and no other traffic on the channels
(30_encoding.md R70, R76). -/
def Obligations.EveryWordGetsOneResponse : Prop :=
  ∀ (w : CommandWord) (s : State), ∃ (t : State) (rsp : ResponseWord),
    execute w s = .next t ∧ t.responses = s.responses ++ [rsp] ∧ t.commands = s.commands

/-- The fields of the response word, and what each command puts into them (30_encoding.md R75). -/
def Obligations.ResponseWordFields : Prop :=
  ∀ (w : CommandWord) (s t : State), execute w s = .next t → ∃ rsp : ResponseWord,
    t.responses = s.responses ++ [rsp] ∧
    rsp.getLsbD 33 = t.err ∧
    rsp.extractLsb' 34 30 = 0#30 ∧
    (∀ x, decode w = .ok (.sample x) → t.err = false →
      rsp.extractLsb' 0 32 = s.readY s.pos ∧ rsp.getLsbD 32 = decide (2 ^ 32 ≤ s.phase.toNat + s.delta.toNat)) ∧
    (decode w = .ok .status → rsp.extractLsb' 0 32 = statusWord s ∧ rsp.getLsbD 32 = false) ∧
    ((∀ x, decode w = .ok (.sample x) → t.err = true) → decode w ≠ .ok .status →
      rsp.extractLsb' 0 32 = 0#32 ∧ rsp.getLsbD 32 = false)

end Steps

section Control

/-- Power-on reset, element by element, for any parameters; the machine starts there with the defaults, and no step clears `ERR`, so
that power-on reset is the one event that does (70_reset_and_hazards.md R230). -/
def Obligations.PowerOnValues : Prop :=
  (∀ P : Config.Parameters,
    (∀ a, (State.powerOn P).readX a = 0x00000000#32) ∧ (∀ a, (State.powerOn P).readY a = 0x00000000#32) ∧
    (∀ L, (State.powerOn P).readR L = 0x00000000#32) ∧ (State.powerOn P).w = P.windowRom ∧
    (State.powerOn P).phase = 0#32 ∧ (State.powerOn P).delta = 0#32 ∧ (State.powerOn P).pos = 0#8 ∧
    (State.powerOn P).fs = 0#32 ∧ (State.powerOn P).cfg = false ∧ (State.powerOn P).err = false ∧
    (State.powerOn P).cause = 0#4 ∧ statusWord (State.powerOn P) = 0x00000000#32) ∧
  (State.reset = State.powerOn defaultParameters ∧ defaultParameters.windowRom = defaultWindowRom) ∧
  ∀ s t : State, step s = .next t → s.err = true → t.err = true

/-- A RESET of a rate from 221 Hz on completes on every block that is not faulted, and leaves the values of
70_reset_and_hazards.md R232, with `W`, `ERR`, `CAUSE` and the command channel as they were (70_reset_and_hazards.md R233). -/
def Obligations.ResetLeavesWarmResetValues : Prop :=
  ∀ (s : State) (f : Word), s.err = false → 221 ≤ f.toNat → ∃ t : State,
    exec (.reset f) s = .next t ∧
    (∀ a, t.readX a = 0x00000000#32) ∧ (∀ a, t.readY a = 0x00000000#32) ∧ (∀ L, t.readR L = 0x00000000#32) ∧
    t.pos = 0#8 ∧ t.phase = 0#32 ∧ t.delta.toNat = defaultDeltaOf f.toNat 57 ∧ t.fs = f ∧ t.cfg = true ∧
    (s.cause = 0#4 → statusWord t = 0x00000001#32) ∧
    t.w = s.w ∧ t.err = s.err ∧ t.cause = s.cause ∧ t.commands = s.commands ∧
    t.responses = s.responses ++ [0x0000000000000000#64]

/-- The sample-rate range of RESET (45_control.md R181). -/
def Obligations.ResetRateRange : Prop :=
  (∀ f : Nat, 1 ≤ f → f < 2 ^ 32 →
    defaultDeltaOf f 57 = 220 * 2 ^ 32 / f ∧ (2 ^ 32 ≤ defaultDeltaOf f 57 ↔ f ≤ 220)) ∧
  (∀ s : State, s.err = false → exec (.reset 0#32) s =
    .next { s with err := true, cause := 3#4, responses := s.responses ++ [0x0000000200000000#64] }) ∧
  (∀ (s : State) (f : Word), s.err = false → 1 ≤ f.toNat → f.toNat ≤ 220 → exec (.reset f) s =
    .next { s with err := true, cause := 4#4, responses := s.responses ++ [0x0000000200000000#64] }) ∧
  (∀ (s : State) (f : Word), s.err = false → 221 ≤ f.toNat →
    ∃ t : State, exec (.reset f) s = .next t ∧ t.cfg = true ∧ t.err = false) ∧
  defaultDeltaOf 221 57 = 0xFED774FE ∧ defaultDeltaOf 1760 57 = 0x20000000 ∧ defaultDeltaOf 44100 57 = 0x0146EFDC ∧
  defaultDeltaOf 48000 57 = 0x012C5F92 ∧ defaultDeltaOf 4294967295 57 = 0x000000DC

/-- STATUS completes in every state, faulted or not: it changes nothing, and its response shows the STATUS register
(45_control.md R182, 10_state.md R32). -/
def Obligations.StatusReadsTheRegister : Prop :=
  ∀ s : State, ∃ rsp : ResponseWord,
    exec .status s = .next { s with responses := s.responses ++ [rsp] } ∧
    rsp.extractLsb' 0 32 = statusWord s ∧
    rsp.getLsbD 0 = s.cfg ∧ rsp.getLsbD 1 = s.err ∧ rsp.extractLsb' 2 2 = 0#2 ∧ rsp.extractLsb' 4 4 = s.cause ∧
    rsp.extractLsb' 8 8 = s.pos ∧ rsp.extractLsb' 16 16 = 0#16 ∧
    rsp.getLsbD 32 = false ∧ rsp.getLsbD 33 = s.err ∧ rsp.extractLsb' 34 30 = 0#30

/-- A STATUS put anywhere into a command stream changes no other response and no later state (45_control.md R183). -/
def Obligations.StatusInsertionChangesNothingElse : Prop :=
  ∀ (s : State) (before after : List CommandWord),
    ∃ (t : State) (ra rb : List ResponseWord) (rsp : ResponseWord),
      afterCommands (before ++ after) s = .next t ∧
      t.responses = s.responses ++ ra ++ rb ∧ ra.length = before.length ∧ rb.length = after.length ∧
      afterCommands (before ++ encode .status :: after) s = .next { t with responses := s.responses ++ ra ++ rsp :: rb }

/-- Two blocks that are not faulted agree from a successful RESET with the same rate on, whatever came before it: the same responses to
every later stream, and the same state (70_reset_and_hazards.md R243). -/
def Obligations.ResetForgetsThePast : Prop :=
  ∀ (s t : State) (f : Word) (ws : List CommandWord),
    s.err = false → t.err = false → s.w = t.w → s.cause = t.cause → 221 ≤ f.toNat →
    ∃ (s' t' : State) (rs : List ResponseWord),
      afterCommands (encode (.reset f) :: ws) s = .next s' ∧ afterCommands (encode (.reset f) :: ws) t = .next t' ∧
      s'.responses = s.responses ++ rs ∧ t'.responses = t.responses ++ rs ∧ s'.sameBlock t'

end Control

section Faults

/-- Raising a fault writes `ERR` and `CAUSE`, answers `0x0000000200000000`, and changes nothing else; and whatever command faults, that
is all it does (60_exceptions.md R201). -/
def Obligations.FaultChangesOnlyErrAndCause : Prop :=
  (∀ (c : FaultCause) (s : State), raiseFault c s =
    { s with err := true, cause := faultCode c, responses := s.responses ++ [0x0000000200000000#64] }) ∧
  ∀ (w : CommandWord) (s t : State), s.err = false → execute w s = .next t → t.err = true →
    ∃ c : BitVec 4, 1 ≤ c.toNat ∧ c.toNat ≤ 4 ∧
      t = { s with err := true, cause := c, responses := s.responses ++ [0x0000000200000000#64] }

/-- A command raises the first check that it fails, in the order of 60_exceptions.md R203, with the code of 60_exceptions.md R202, and
raises none where it fails none. -/
def Obligations.FirstFailedCheckIsRaised : Prop :=
  (faultCode .illegalCommand = 1#4 ∧ faultCode .notConfigured = 2#4 ∧ faultCode .badRate = 3#4 ∧ faultCode .deltaRange = 4#4) ∧
  ∀ (w : CommandWord) (s t : State), s.err = false → execute w s = .next t →
    (∀ c, firstFailedCheck w s = some c → t.err = true ∧ t.cause = faultCode c) ∧
    (firstFailedCheck w s = none → t.err = false ∧ t.cause = s.cause)

/-- The faulted state: a legal STATUS word reads the register, every other word is ignored, and nothing else changes
(60_exceptions.md R204). -/
def Obligations.FaultedBlockIgnoresCommands : Prop :=
  ∀ (w : CommandWord) (s : State), s.err = true →
    execute w s = .next { s with responses := s.responses ++
      [if w = 0x0400000000000000#64 then 0#30 ++ 1#1 ++ 0#1 ++ statusWord s else 0x0000000200000000#64] }

/-- `ERR` and `CAUSE`: 0 at power-on, written by a fault, by the first one alone, and cleared by no step (10_state.md R30, R31). -/
def Obligations.FaultIsSticky : Prop :=
  (State.reset.err = false ∧ State.reset.cause = 0#4) ∧
  (∀ (c : FaultCause) (s : State), (raiseFault c s).err = true ∧ (raiseFault c s).cause = faultCode c) ∧
  ∀ s t : State, step s = .next t →
    (s.err = true → t.err = true ∧ t.cause = s.cause) ∧
    (t.cause ≠ s.cause → s.err = false ∧ t.err = true) ∧
    (s.err = false → t.err = true → 1 ≤ t.cause.toNat ∧ t.cause.toNat ≤ 4)

/-- Which commands write which state (10_state.md R38). A word that is no legal command only ever faults or is ignored. -/
def Obligations.StateWriteTable : Prop :=
  ∀ (w : CommandWord) (s t : State), execute w s = .next t →
    t.commands = s.commands ∧
    (s.err = true → s.sameBlock t) ∧
    (s.err = false → t.err = true → s.sameBlock { t with err := s.err, cause := s.cause }) ∧
    (s.err = false → t.err = false →
      t.cause = s.cause ∧
      match decode w with
      | .error _ => False
      | .ok (.reset f) =>
        (∀ a, t.readX a = 0#32) ∧ (∀ a, t.readY a = 0#32) ∧ (∀ L, t.readR L = 0#32) ∧ t.w = s.w ∧ t.phase = 0#32 ∧
          t.delta.toNat = defaultDeltaOf f.toNat 57 ∧ t.pos = 0#8 ∧ t.fs = f ∧ t.cfg = true
      | .ok (.noteOn n) =>
        t.x = s.x ∧ t.y = s.y ∧ t.r = s.r ∧ t.w = s.w ∧ t.phase = s.phase ∧
          t.delta.toNat = defaultDeltaOf s.fs.toNat n.toNat ∧ t.pos = s.pos ∧ t.fs = s.fs ∧ t.cfg = s.cfg
      | .ok (.sample x) =>
        t.readX s.pos = x ∧ (∀ a, a ≠ s.pos → t.readX a = s.readX a) ∧ t.readY s.pos = 0#32 ∧
          (s.phase.toNat + s.delta.toNat < 2 ^ 32 → ∀ a, a ≠ s.pos → t.readY a = s.readY a) ∧
          t.w = s.w ∧ t.phase = s.phase + s.delta ∧ t.delta = s.delta ∧ t.pos = ringPlus s.pos 1 ∧ t.fs = s.fs ∧
          t.cfg = s.cfg
      | .ok .status => s.sameBlock t)

end Faults

section Pitch

/-- NOTE_ON on every block that is not faulted: it faults while `CFG = 0`, it faults where `DELTA` cannot be stored, and else `DELTA`
alone is written; every note 0..127 is legal, and 128 cannot be encoded (42_phase_accumulator_trigger.md R122). -/
def Obligations.NoteOnWritesDelta : Prop :=
  (∀ n : Note, decode (0x0200000000000000#64 ||| n.setWidth 64) = .ok (.noteOn n)) ∧
  decode 0x0200000000000080#64 = .error (.reservedPayload 0x02#8) ∧
  defaultDeltaOf 1760 93 = 2 ^ 32 ∧ defaultDeltaOf 1760 69 = 0x40000000 ∧
  ∀ (s : State) (n : Note), s.err = false →
    (s.cfg = false → exec (.noteOn n) s =
      .next { s with err := true, cause := 2#4, responses := s.responses ++ [0x0000000200000000#64] }) ∧
    (s.cfg = true → 2 ^ 32 ≤ defaultDeltaOf s.fs.toNat n.toNat → exec (.noteOn n) s =
      .next { s with err := true, cause := 4#4, responses := s.responses ++ [0x0000000200000000#64] }) ∧
    (s.cfg = true → defaultDeltaOf s.fs.toNat n.toNat < 2 ^ 32 → exec (.noteOn n) s =
      .next { s with
        delta := BitVec.ofNat 32 (defaultDeltaOf s.fs.toNat n.toNat)
        responses := s.responses ++ [0x0000000000000000#64] })

/-- Several pitch hints in a row leave the `DELTA` of the last one, and nothing else (42_phase_accumulator_trigger.md R125). -/
def Obligations.LastPitchHintWins : Prop :=
  ∀ (s : State) (hints : List Note) (last : Note), s.err = false → s.cfg = true →
    (∀ n ∈ hints ++ [last], defaultDeltaOf s.fs.toNat n.toNat < 2 ^ 32) →
    afterCommands ((hints ++ [last]).map fun n => encode (.noteOn n)) s =
      .next { s with
        delta := BitVec.ofNat 32 (defaultDeltaOf s.fs.toNat last.toNat)
        commands := []
        responses := s.responses ++ List.replicate (hints.length + 1) 0x0000000000000000#64 }

/-- The default `DELTA_OF` is the exact floor (42_phase_accumulator_trigger.md R123). -/
def Obligations.DeltaOfIsTheExactFloor : Prop :=
  ∀ f n : Nat, 1 ≤ f → n ≤ 127 →
    defaultDeltaOf f n = ⌊(440 : ℝ) * (2 : ℝ) ^ (((n : ℝ) - 69) / 12) * 2 ^ 32 / f⌋₊

/-- The range of the default `DELTA_OF` and its boundary values (42_phase_accumulator_trigger.md R124). -/
def Obligations.DeltaOfRange : Prop :=
  (∀ f n : Nat, 1 ≤ f → n ≤ 127 →
    (2 ^ 32 ≤ defaultDeltaOf f n ↔ (f : ℝ) ≤ (440 : ℝ) * (2 : ℝ) ^ (((n : ℝ) - 69) / 12))) ∧
  (∀ f n : Nat, 1 ≤ f → f < 2 ^ 32 → n ≤ 127 → 8 ≤ defaultDeltaOf f n) ∧
  (∀ f : Nat, 1 ≤ f → (2 ^ 32 ≤ defaultDeltaOf f 57 ↔ f ≤ 220)) ∧
  (∀ f : Nat, 1 ≤ f → (2 ^ 32 ≤ defaultDeltaOf f 127 ↔ f ≤ 12543)) ∧
  (∀ n : Nat, n ≤ 127 → defaultDeltaOf 44100 n < 2 ^ 32 ∧ defaultDeltaOf 48000 n < 2 ^ 32) ∧
  defaultDeltaOf 4294967295 0 = 8 ∧ defaultDeltaOf 220 57 = 2 ^ 32 ∧ defaultDeltaOf 221 57 = 4275533054 ∧
  defaultDeltaOf 12544 127 = 4294917290 ∧ defaultDeltaOf 12543 127 = 4295259705 ∧ defaultDeltaOf 4294967295 127 = 12543

/-- At 1760 Hz the default `DELTA_OF` of the notes 45, 57, 69, 81 and 93 is an exact power of two (42_phase_accumulator_trigger.md
R126). -/
def Obligations.DeltaTableAt1760 : Prop :=
  defaultDeltaOf 1760 45 = 0x10000000 ∧ defaultDeltaOf 1760 57 = 0x20000000 ∧ defaultDeltaOf 1760 69 = 0x40000000 ∧
  defaultDeltaOf 1760 81 = 0x80000000 ∧ defaultDeltaOf 1760 93 = 2 ^ 32

/-- The phase step: `PHASE` alone advances, modulo `2^32`, and `TRIG` is the carry out, with the corner cases of the rule
(42_phase_accumulator_trigger.md R120). -/
def Obligations.PhaseStepTriggersOnCarry : Prop :=
  ∀ s : State,
    (phaseStep s).1 = { s with phase := BitVec.ofNat 32 ((s.phase.toNat + s.delta.toNat) % 2 ^ 32) } ∧
    ((phaseStep s).2 = true ↔ (phaseStep s).1.phase.toNat < s.delta.toNat) ∧
    ((phaseStep s).2 = true ↔ 2 ^ 32 ≤ s.phase.toNat + s.delta.toNat) ∧
    (s.phase.toNat + s.delta.toNat = 2 ^ 32 → (phaseStep s).1.phase = 0#32 ∧ (phaseStep s).2 = true) ∧
    (s.delta = 0xFFFFFFFF#32 → ((phaseStep s).2 = true ↔ s.phase ≠ 0#32)) ∧
    (s.delta = 0#32 → (phaseStep s).2 = false)

/-- Trigger counting over a run of samples with a constant `DELTA` (42_phase_accumulator_trigger.md R121): how many steps trigger, on
which step each trigger falls, how far apart they are, and where they fall when `DELTA` divides `2^32`. -/
def Obligations.TriggersFollowThePhase : Prop :=
  ∀ (s : State) (xs : List Word), s.err = false → s.cfg = true → 1 ≤ s.delta.toNat →
    ∃ (t : State) (rs : List ResponseWord),
      afterCommands (sampleWords xs) s = .next t ∧ t.responses = s.responses ++ rs ∧ rs.length = xs.length ∧
      (∀ M, M ≤ xs.length → triggerCount (rs.take M) = (s.phase.toNat + M * s.delta.toNat) / 2 ^ 32) ∧
      (∀ k i, 1 ≤ k → i < xs.length →
        (responseTrig (rs.getD i 0#64) = true ∧ triggerCount (rs.take (i + 1)) = k ↔
          i + 1 = (k * 2 ^ 32 - s.phase.toNat + s.delta.toNat - 1) / s.delta.toNat)) ∧
      (∀ i j, i < j → j < xs.length → responseTrig (rs.getD i 0#64) = true → responseTrig (rs.getD j 0#64) = true →
        (∀ l, i < l → l < j → responseTrig (rs.getD l 0#64) = false) →
        j - i = 2 ^ 32 / s.delta.toNat ∨ j - i = (2 ^ 32 + s.delta.toNat - 1) / s.delta.toNat) ∧
      (s.phase = 0#32 → ∀ N, s.delta.toNat * N = 2 ^ 32 → ∀ i, i < xs.length →
        (responseTrig (rs.getD i 0#64) = true ↔ (i + 1) % N = 0))

end Pitch

section SampleSteps

/-- SAMPLE on a configured block that is not faulted completes with the effects of steps (a) to (g), entry by entry, and leaves
everything else as it was (44_sample_step.md R160; 41_leaky_autocorrelator.md R100; 43_overlap_add_synthesizer.md R144). -/
def Obligations.SampleRunsOneSampleStep : Prop :=
  ∀ (s : State) (x : Word), s.err = false → s.cfg = true → ∃ t : State,
    exec (.sample x) s = .next t ∧
    t.readX s.pos = x ∧ (∀ a, a ≠ s.pos → t.readX a = s.readX a) ∧
    t.readR 0#7 = fadd (fmul (s.readR 0#7) decayWord) (fmul (fmul weightWord x) x) ∧
    (∀ L : Nat, 1 ≤ L → L ≤ 127 → t.readR (lagIndex L) =
      fadd (fmul (s.readR (lagIndex L)) decayWord) (fmul (fmul weightWord x) (s.readX (ringMinus s.pos L)))) ∧
    t.phase = s.phase + s.delta ∧
    t.readY s.pos = 0x00000000#32 ∧
    (∀ d : Int, -127 ≤ d → d ≤ 127 → t.readY (ringPlus s.pos (128 + d)) =
      if 2 ^ 32 ≤ s.phase.toNat + s.delta.toNat then fadd (s.readY (ringPlus s.pos (128 + d))) (grainValue t d)
      else s.readY (ringPlus s.pos (128 + d))) ∧
    t.pos = ringPlus s.pos 1 ∧ t.readX (ringMinus t.pos 1) = x ∧
    t.w = s.w ∧ t.delta = s.delta ∧ t.fs = s.fs ∧ t.cfg = s.cfg ∧ t.err = s.err ∧ t.cause = s.cause ∧
    t.commands = s.commands ∧
    t.responses = s.responses ++
      [responseWord false (decide (2 ^ 32 ≤ s.phase.toNat + s.delta.toNat)) (s.readY s.pos)]

/-- SAMPLE before the first RESET raises NOT_CONFIGURED and changes nothing else (44_sample_step.md R161). -/
def Obligations.SampleBeforeResetFaults : Prop :=
  ∀ (s : State) (x : Word), s.err = false → s.cfg = false → exec (.sample x) s =
    .next { s with err := true, cause := 2#4, responses := s.responses ++ [0x0000000200000000#64] }

/-- `POS` counts sample steps modulo 256, and the first sample step after a RESET never triggers (44_sample_step.md R164). -/
def Obligations.PosCountsSamples : Prop :=
  (∀ (s : State) (xs : List Word), s.err = false → s.cfg = true → ∃ t : State,
    afterCommands (sampleWords xs) s = .next t ∧ t.pos = ringPlus s.pos xs.length ∧
      (xs.length = 256 → t.pos = s.pos)) ∧
  (∀ (s : State) (f x : Word), s.err = false → 221 ≤ f.toNat → ∃ t : State,
    afterCommands [encode (.reset f), encode (.sample x)] s = .next t ∧
      t.responses = s.responses ++ [0x0000000000000000#64, 0x0000000000000000#64])

/-- Grain latency: the term that a triggering step adds at offset `k` is emitted by the `k`-th sample step after it, on top of what the
slot held, where no step between them triggers (44_sample_step.md R163). -/
def Obligations.GrainIsHeardAtItsOffset : Prop :=
  ∀ (s : State) (x : Word) (xs : List Word), s.err = false → s.cfg = true →
    2 ^ 32 ≤ s.phase.toNat + s.delta.toNat → 1 ≤ xs.length → xs.length ≤ 255 →
    (s.phase + s.delta).toNat + (xs.length - 1) * s.delta.toNat < 2 ^ 32 →
    ∃ (t : State) (rs : List ResponseWord) (rsp : ResponseWord),
      afterCommands (sampleWords (x :: xs)) s = .next t ∧ t.responses = s.responses ++ rs ++ [rsp] ∧
      rs.length = xs.length ∧
      rsp.extractLsb' 0 32 = fadd (s.readY (ringPlus s.pos xs.length))
        (grainValue (acuUpdate s.pos (s.writeX s.pos x)) ((xs.length : Int) - 128))

/-- The entries `X[POS ⊕ j]`, `0 <= j <= 128`, are dead: two blocks that differ only there answer every word alike and go on differing
only there (10_state.md R36). -/
def Obligations.DeadInputHistoryIsNeverRead : Prop :=
  ∀ (w : CommandWord) (s t s' : State), sameButDeadInput s t → execute w s = .next s' →
    ∃ t' : State, execute w t = .next t' ∧ sameButDeadInput s' t'

/-- Ring arithmetic for every integer offset, 32-bit addition, and the unsigned comparison (00_scope.md R9). -/
def Obligations.RingArithmeticWraps : Prop :=
  (∀ (p : RingAddr) (k : Int), ((ringPlus p k).toNat : Int) = ((p.toNat : Int) + k) % 256) ∧
  (∀ (p : RingAddr) (k : Int), ((ringMinus p k).toNat : Int) = ((p.toNat : Int) - k) % 256) ∧
  (∀ a b : Word, (a + b).toNat = (a.toNat + b.toNat) % 2 ^ 32) ∧
  (∀ a b : Word, trigFlag a b = true ↔ a.toNat < b.toNat)

end SampleSteps

section Autocorrelator

/-- The 128 lag updates are independent: each new `R[L]` is a function of the old `R[L]`, `X[p]` and `X[p ⊖ L]`, nothing but `R` is
written, and every order of the lags gives the same state (41_leaky_autocorrelator.md R102). -/
def Obligations.LagUpdatesAreIndependent : Prop :=
  ∀ (p : RingAddr) (s : State),
    (∀ L : Nat, L ≤ 127 → (acuUpdate p s).readR (lagIndex L) =
      fadd (fmul (s.readR (lagIndex L)) decayWord) (fmul (fmul weightWord (s.readX p)) (s.readX (ringMinus p L)))) ∧
    acuUpdate p s = { s with r := (acuUpdate p s).r } ∧
    ∀ order : List Nat, order.Perm (List.range 128) →
      order.foldl (fun t L => updateLag p (s.readX p) L t) s = acuUpdate p s

/-- `R[0]` is never negative and never -0: it starts so and every step keeps it so. It is the canonical NaN exactly when some SAMPLE since
the last RESET had a NaN input (41_leaky_autocorrelator.md R104). -/
def Obligations.EnergyIsNeverNegative : Prop :=
  isEnergy (State.reset.readR 0#7) ∧
  (∀ s t : State, isEnergy (s.readR 0#7) → step s = .next t → isEnergy (t.readR 0#7)) ∧
  ∀ (s t : State) (f : Word) (later : List Instr), s.err = false → 221 ≤ f.toNat → (∀ g : Word, Instr.reset g ∉ later) →
    afterCommands (encode (.reset f) :: later.map encode) s = .next t → t.err = false →
    (t.readR 0#7 = canonicalNaN ↔ ∃ x, Instr.sample x ∈ later ∧ isNaN x)

/-- Under silence an entry of `R` only decays: it is multiplied by `DECAY` and rounded (41_leaky_autocorrelator.md R105). -/
def Obligations.SilenceOnlyDecays : Prop :=
  ∀ (s t : State) (x : Word), s.err = false → s.cfg = true → (x = 0x00000000#32 ∨ x = 0x80000000#32) →
    (∀ a, isFinite (s.readX a)) → (∀ L, isClean (s.readR L)) → exec (.sample x) s = .next t →
    ∀ L, t.readR L = fmul (s.readR L) decayWord ∧ isClean (t.readR L)

/-- The silence residue: decay leaves the 200 smallest subnormal magnitudes as they are, and shrinks every larger finite one without
passing 200 (41_leaky_autocorrelator.md R105). -/
def Obligations.DecayStopsAtTheResidue : Prop :=
  (∀ m : Nat, 1 ≤ m → m ≤ 200 →
    fmul (BitVec.ofNat 32 m) decayWord = BitVec.ofNat 32 m ∧
    fmul (BitVec.ofNat 32 (2 ^ 31 + m)) decayWord = BitVec.ofNat 32 (2 ^ 31 + m)) ∧
  ∀ w : Word, isFinite w → 200 < magnitudeBits w →
    magnitudeBits (fmul w decayWord) < magnitudeBits w ∧ 200 ≤ magnitudeBits (fmul w decayWord) ∧
      signBit (fmul w decayWord) = signBit w

/-- Finiteness: inputs of magnitude at most `2^50` keep every `R[L]` below `2^101` (41_leaky_autocorrelator.md R106). -/
def Obligations.BoundedInputsKeepProfileFinite : Prop :=
  ∀ (s t : State) (x : Word), s.err = false → s.cfg = true →
    magnitudeBits x ≤ 0x58800000 → (∀ a, magnitudeBits (s.readX a) ≤ 0x58800000) →
    (∀ L, magnitudeBits (s.readR L) < 0x72000000) → exec (.sample x) s = .next t →
    (∀ a, magnitudeBits (t.readX a) ≤ 0x58800000) ∧ ∀ L, magnitudeBits (t.readR L) < 0x72000000

end Autocorrelator

section Synthesizer

/-- The footprint of a grain: slot `p` receives nothing, every slot at a distance `d` from the centre receives exactly its term `g(d)`,
the slots are distinct, nothing but `Y` is written, and every order of the 255 additions gives the same state
(43_overlap_add_synthesizer.md R144). -/
def Obligations.GrainFootprint : Prop :=
  ∀ (p : RingAddr) (s : State),
    (olaGrain p s).readY p = s.readY p ∧
    (∀ d : Int, -127 ≤ d → d ≤ 127 →
      (olaGrain p s).readY (ringPlus (ringPlus p 128) d) = fadd (s.readY (ringPlus (ringPlus p 128) d)) (grainValue s d) ∧
        ringPlus (ringPlus p 128) d = ringPlus p (128 + d)) ∧
    (∀ d e : Int, -127 ≤ d → d ≤ 127 → -127 ≤ e → e ≤ 127 →
      ringPlus (ringPlus p 128) d = ringPlus (ringPlus p 128) e → d = e) ∧
    olaGrain p s = { s with y := (olaGrain p s).y } ∧
    ∀ order : List Nat, order.Perm (List.range' 1 255) →
      order.foldl (fun t j => addToSlot (ringPlus p j) (grainValue s ((j : Int) - 128)) t) s = olaGrain p s

/-- With the default window a grain is a palindrome about its centre, and its centre term is `fmul(R[0], s)`
(43_overlap_add_synthesizer.md R145). -/
def Obligations.GrainIsAPalindrome : Prop :=
  ∀ s : State, s.w = defaultWindowRom →
    (∀ d : Int, -127 ≤ d → d ≤ 127 → grainValue s d = grainValue s (-d)) ∧
    grainValue s 0 = fmul (s.readR 0#7) (grainScale s)

/-- The window table: index 0 is never read, and the properties of the default table (43_overlap_add_synthesizer.md R148). -/
def Obligations.WindowTableProperties : Prop :=
  (∀ (p : RingAddr) (s : State) (v : Word),
    (olaGrain p { s with w := s.w.set 0 v }).y = (olaGrain p s).y) ∧
  ∀ s : State, s.w = defaultWindowRom →
    s.readW 0#8 = 0x00000000#32 ∧ s.readW 64#8 = 0x3F000000#32 ∧ s.readW 192#8 = 0x3F000000#32 ∧
    s.readW 128#8 = 0x3F800000#32 ∧ s.readW 1#8 = 0x391DE7DF#32 ∧ s.readW 255#8 = 0x391DE7DF#32 ∧
    (∀ i : Nat, 1 ≤ i → i ≤ 255 → s.readW (windowIndex i) = s.readW (windowIndex (256 - i))) ∧
    (∀ i : RingAddr, isFinite (s.readW i) ∧ 0 ≤ binary32Value (s.readW i) ∧ binary32Value (s.readW i) ≤ 1)

/-- The values of the grain scale that the rule lists (43_overlap_add_synthesizer.md R141). -/
def Obligations.GrainScaleValues : Prop :=
  ∀ s : State,
    (s.readR 0#7 = 0x00000000#32 → grainScale s = 0x42000000#32) ∧
    (s.readR 0#7 = 0x3F800000#32 → grainScale s = 0x3F7FE006#32) ∧
    (s.readR 0#7 = 0x40800000#32 → grainScale s = 0x3EFFF800#32) ∧
    (s.readR 0#7 = 0x3A800000#32 → grainScale s = 0x41B504F3#32)

/-- For every finite `R[0] >= 0` the scale is finite and positive, and at most 32 (43_overlap_add_synthesizer.md R149). -/
def Obligations.GrainScaleIsBounded : Prop :=
  ∀ s : State, (s.readR 0#7).toNat ≤ 0x7F7FFFFF → 0 < (grainScale s).toNat ∧ (grainScale s).toNat ≤ 0x42000000

/-- A silent grain changes nothing (43_overlap_add_synthesizer.md R149). -/
def Obligations.SilentGrainChangesNothing : Prop :=
  ∀ (p : RingAddr) (s : State), s.w = defaultWindowRom → (∀ L, s.readR L = 0x00000000#32) → (∀ a, isClean (s.readY a)) →
    grainScale s = 0x42000000#32 ∧ olaGrain p s = s

/-- A NaN energy fills all 255 slots of a grain with the canonical NaN; an infinite one gives a zero scale, a NaN at the centre, and a
zero term for every finite lag (43_overlap_add_synthesizer.md R149). -/
def Obligations.NaNAndInfiniteEnergyGrains : Prop :=
  ∀ (p : RingAddr) (s : State),
    (isNaN (s.readR 0#7) → ∀ j : Nat, 1 ≤ j → j ≤ 255 → (olaGrain p s).readY (ringPlus p j) = canonicalNaN) ∧
    (s.w = defaultWindowRom → s.readR 0#7 = 0x7F800000#32 →
      grainScale s = 0x00000000#32 ∧ (olaGrain p s).readY (ringPlus p 128) = canonicalNaN ∧
      ∀ d : Int, -127 ≤ d → d ≤ 127 → isFinite (s.readR (lagIndex d.natAbs)) →
        grainValue s d = 0x00000000#32 ∨ grainValue s d = 0x80000000#32)

end Synthesizer

section Arithmetic

/-- `fmul` of finite operands rounds the exact product once; a zero product has the XOR of the signs (00_scope.md R12). -/
def Obligations.FmulIsCorrectlyRounded : Prop :=
  ∀ a b : Word, isFinite a → isFinite b →
    (binary32Value a * binary32Value b ≠ 0 → RoundsTo ((binary32Value a * binary32Value b : ℚ) : ℝ) (fmul a b)) ∧
    (binary32Value a * binary32Value b = 0 → fmul a b = packFloat (signBit a ^^ signBit b) 0)

/-- `fadd` of finite operands rounds the exact sum once; an exact zero sum is -0 where both operands are negative, and +0 elsewhere
(00_scope.md R12). -/
def Obligations.FaddIsCorrectlyRounded : Prop :=
  ∀ a b : Word, isFinite a → isFinite b →
    (binary32Value a + binary32Value b ≠ 0 → RoundsTo ((binary32Value a + binary32Value b : ℚ) : ℝ) (fadd a b)) ∧
    (binary32Value a + binary32Value b = 0 → fadd a b = packFloat (signBit a && signBit b) 0)

/-- `fdiv` of finite operands by a nonzero one rounds the exact quotient once (00_scope.md R12). -/
def Obligations.FdivIsCorrectlyRounded : Prop :=
  ∀ a b : Word, isFinite a → isFinite b → binary32Value b ≠ 0 →
    (binary32Value a ≠ 0 → RoundsTo ((binary32Value a / binary32Value b : ℚ) : ℝ) (fdiv a b)) ∧
    (binary32Value a = 0 → fdiv a b = packFloat (signBit a ^^ signBit b) 0)

/-- `fsqrt` of a positive finite operand rounds the exact root once (00_scope.md R12). -/
def Obligations.FsqrtIsCorrectlyRounded : Prop :=
  ∀ a : Word, isFinite a → 0 < binary32Value a → RoundsTo (Real.sqrt (binary32Value a : ℝ)) (fsqrt a)

/-- The special operands of the four operations: zeros, and infinities on either side of each operation (00_scope.md R12,
41_leaky_autocorrelator.md R103). -/
def Obligations.SpecialOperandsFollowIeee : Prop :=
  (∀ s t : Bool, fmul (packFloat s 0) (packFloat t 0x7F800000) = canonicalNaN ∧
    fmul (packFloat t 0x7F800000) (packFloat s 0) = canonicalNaN) ∧
  (∀ s : Bool, fadd (packFloat s 0x7F800000) (packFloat (!s) 0x7F800000) = canonicalNaN) ∧
  (∀ (a : Word) (s : Bool), isFinite a → binary32Value a ≠ 0 →
    fdiv a (packFloat s 0) = packFloat (signBit a ^^ s) 0x7F800000) ∧
  (∀ s t : Bool, fdiv (packFloat s 0) (packFloat t 0) = canonicalNaN) ∧
  (∀ (a : Word) (s : Bool), isFinite a → fdiv a (packFloat s 0x7F800000) = packFloat (signBit a ^^ s) 0) ∧
  fsqrt 0x7F800000#32 = 0x7F800000#32 ∧ fsqrt 0x80000000#32 = 0x80000000#32 ∧ fsqrt 0x00000000#32 = 0x00000000#32 ∧
  (∀ a : Word, isFinite a → binary32Value a < 0 → fsqrt a = canonicalNaN) ∧ fsqrt 0xFF800000#32 = canonicalNaN ∧
  (∀ a b : Word, isFinite a → isFinite b → binary32Value a = -binary32Value b → signBit a ≠ signBit b →
    fadd a b = 0x00000000#32) ∧
  fadd 0x80000000#32 0x80000000#32 = 0x80000000#32 ∧
  (∀ s t : Bool, fmul (packFloat s 0x7F800000) (packFloat t 0x7F800000) = packFloat (s ^^ t) 0x7F800000 ∧
    fdiv (packFloat s 0x7F800000) (packFloat t 0x7F800000) = canonicalNaN) ∧
  (∀ (a : Word) (s : Bool), isFinite a → binary32Value a ≠ 0 →
    fmul a (packFloat s 0x7F800000) = packFloat (signBit a ^^ s) 0x7F800000 ∧
    fmul (packFloat s 0x7F800000) a = packFloat (s ^^ signBit a) 0x7F800000) ∧
  (∀ s : Bool, fadd (packFloat s 0x7F800000) (packFloat s 0x7F800000) = packFloat s 0x7F800000) ∧
  (∀ (a : Word) (s : Bool), isFinite a →
    fadd a (packFloat s 0x7F800000) = packFloat s 0x7F800000 ∧ fadd (packFloat s 0x7F800000) a = packFloat s 0x7F800000 ∧
    fdiv (packFloat s 0x7F800000) a = packFloat (s ^^ signBit a) 0x7F800000)

/-- Every NaN result is the canonical NaN, whatever the operands; a NaN input is stored in `X` as it is, and every value computed from it
is the canonical NaN (00_scope.md R13). -/
def Obligations.NaNResultsAreCanonical : Prop :=
  (∀ a b : Word, (isNaN (fmul a b) → fmul a b = canonicalNaN) ∧ (isNaN (fadd a b) → fadd a b = canonicalNaN) ∧
    (isNaN (fdiv a b) → fdiv a b = canonicalNaN) ∧ (isNaN (fsqrt a) → fsqrt a = canonicalNaN)) ∧
  (∀ a b : Word, isNaN a ∨ isNaN b →
    fmul a b = canonicalNaN ∧ fadd a b = canonicalNaN ∧ fdiv a b = canonicalNaN) ∧
  (∀ a : Word, isNaN a → fsqrt a = canonicalNaN) ∧
  canonicalNaN = 0x7FC00000#32 ∧
  ∀ (s : State) (x : Word), s.err = false → s.cfg = true → isNaN x → ∃ t : State,
    exec (.sample x) s = .next t ∧ t.readX s.pos = x ∧ ∀ L, t.readR L = canonicalNaN

/-- The constants: each decimal literal rounded once, and the weight is not `1 - DECAY` (41_leaky_autocorrelator.md R101, 00_scope.md
R6). -/
def Obligations.ConstantsAreNearest : Prop :=
  RoundsTo (9975 / 10000) decayWord ∧ RoundsTo (25 / 10000) weightWord ∧
  binary32Value epsilonWord = 1 / 2 ^ 10 ∧ binary32Value oneWord = 1 ∧
  fadd oneWord (decayWord ^^^ 0x80000000#32) = 0x3B23D700#32 ∧ weightWord = 0x3B23D70A#32

end Arithmetic

section Invariants

/-- The machine right after power-on meets the invariant, with the default parameters and with any (10_state.md R37,
70_reset_and_hazards.md R230). -/
def Obligations.ResetMeetsTheInvariant : Prop :=
  Inv State.reset ∧ ∀ P : Config.Parameters, InvOver P (machineOver P).reset

/-- Every step keeps the invariant, from every state that meets it (10_state.md R26, R28, R31, R37). The clauses on -0 and on NaN
payloads in `R` and `Y`, and the one on an unconfigured block, are consequences the model draws (log entry 18). -/
def Obligations.StepKeepsTheInvariant : Prop := ∀ s t : State, Inv s → step s = .next t → Inv t

end Invariants

section AnyParameters

/-- The two parameters as arguments of the machine (00_scope.md R7, 10_state.md R26): over any `DELTA_OF`, a RESET and a NOTE_ON complete
with the `DELTA` that it gives, which is at least 1, or fault with DELTA_RANGE where that cannot be stored; SAMPLE and STATUS do not
ask for it. -/
def Obligations.ParametersDecideDelta : Prop :=
  ∀ (P : Config.Parameters) (s : State), s.err = false →
    (∀ f : Word, 1 ≤ f.toNat → P.deltaOf f.toNat 57 < 2 ^ 32 → ∃ t : State,
      execOver P (.reset f) s = .next t ∧ t.delta.toNat = P.deltaOf f.toNat 57 ∧ 1 ≤ t.delta.toNat ∧
      t.fs = f ∧ t.cfg = true ∧ t.err = false ∧ t.phase = 0#32 ∧ t.pos = 0#8 ∧
      (∀ a, t.readX a = 0#32) ∧ (∀ a, t.readY a = 0#32) ∧ (∀ L, t.readR L = 0#32) ∧
      t.w = s.w ∧ t.cause = s.cause ∧ t.commands = s.commands ∧ t.responses = s.responses ++ [0x0000000000000000#64]) ∧
    (∀ f : Word, 1 ≤ f.toNat → 2 ^ 32 ≤ P.deltaOf f.toNat 57 → execOver P (.reset f) s =
      .next { s with err := true, cause := 4#4, responses := s.responses ++ [0x0000000200000000#64] }) ∧
    (∀ n : Note, s.cfg = true → 1 ≤ s.fs.toNat → P.deltaOf s.fs.toNat n.toNat < 2 ^ 32 → ∃ d : Word,
      d.toNat = P.deltaOf s.fs.toNat n.toNat ∧ 1 ≤ d.toNat ∧
      execOver P (.noteOn n) s = .next { s with delta := d, responses := s.responses ++ [0x0000000000000000#64] }) ∧
    (∀ n : Note, s.cfg = true → 2 ^ 32 ≤ P.deltaOf s.fs.toNat n.toNat → execOver P (.noteOn n) s =
      .next { s with err := true, cause := 4#4, responses := s.responses ++ [0x0000000200000000#64] }) ∧
    (∀ x : Word, execOver P (.sample x) s = exec (.sample x) s) ∧ execOver P .status s = exec .status s

/-- Over any parameters every step keeps what the rules promise whatever they are: with `CFG = 1`, `DELTA >= 1` and `FS >= 1`, and `W`
never changes (10_state.md R26, R28, R37, 90_conflicts.md C3, C9). That a zero is ruled out by a bound on the parameter, and the
clauses on -0, on NaN payloads and on an unconfigured block, are inferences of the model (log entries 18 and 20). -/
def Obligations.StepKeepsTheInvariantOverAnyParameters : Prop :=
  ∀ (P : Config.Parameters) (s t : State), InvOver P s → stepOver P s = .next t → InvOver P t

end AnyParameters
end

