-- ==== Sys2Proof/Laws/State.lean ====
section
/-! SUPPORT. One lemma for each field of the state under each named update, and the reads of the memories after a write. Each holds by
`rfl`, but is proved by `cases s; rfl`, so that `simp` cites it as an equation: a definitional step would make the kernel compare a whole
loop of a sample step with its own start, by evaluating it. -/

namespace Sys2Proof.Machine

section writeX

variable (s : State) (a : RingAddr) (v : Word)

@[simp] theorem State.writeX_x : (s.writeX a v).x = s.x.set a.toNat v a.isLt := by cases s; rfl
@[simp] theorem State.writeX_y : (s.writeX a v).y = s.y := by cases s; rfl
@[simp] theorem State.writeX_r : (s.writeX a v).r = s.r := by cases s; rfl
@[simp] theorem State.writeX_w : (s.writeX a v).w = s.w := by cases s; rfl
@[simp] theorem State.writeX_phase : (s.writeX a v).phase = s.phase := by cases s; rfl
@[simp] theorem State.writeX_delta : (s.writeX a v).delta = s.delta := by cases s; rfl
@[simp] theorem State.writeX_pos : (s.writeX a v).pos = s.pos := by cases s; rfl
@[simp] theorem State.writeX_fs : (s.writeX a v).fs = s.fs := by cases s; rfl
@[simp] theorem State.writeX_cfg : (s.writeX a v).cfg = s.cfg := by cases s; rfl
@[simp] theorem State.writeX_err : (s.writeX a v).err = s.err := by cases s; rfl
@[simp] theorem State.writeX_cause : (s.writeX a v).cause = s.cause := by cases s; rfl
@[simp] theorem State.writeX_commands : (s.writeX a v).commands = s.commands := by cases s; rfl
@[simp] theorem State.writeX_responses : (s.writeX a v).responses = s.responses := by cases s; rfl

end writeX

section writeY

variable (s : State) (a : RingAddr) (v : Word)

@[simp] theorem State.writeY_x : (s.writeY a v).x = s.x := by cases s; rfl
@[simp] theorem State.writeY_y : (s.writeY a v).y = s.y.set a.toNat v a.isLt := by cases s; rfl
@[simp] theorem State.writeY_r : (s.writeY a v).r = s.r := by cases s; rfl
@[simp] theorem State.writeY_w : (s.writeY a v).w = s.w := by cases s; rfl
@[simp] theorem State.writeY_phase : (s.writeY a v).phase = s.phase := by cases s; rfl
@[simp] theorem State.writeY_delta : (s.writeY a v).delta = s.delta := by cases s; rfl
@[simp] theorem State.writeY_pos : (s.writeY a v).pos = s.pos := by cases s; rfl
@[simp] theorem State.writeY_fs : (s.writeY a v).fs = s.fs := by cases s; rfl
@[simp] theorem State.writeY_cfg : (s.writeY a v).cfg = s.cfg := by cases s; rfl
@[simp] theorem State.writeY_err : (s.writeY a v).err = s.err := by cases s; rfl
@[simp] theorem State.writeY_cause : (s.writeY a v).cause = s.cause := by cases s; rfl
@[simp] theorem State.writeY_commands : (s.writeY a v).commands = s.commands := by cases s; rfl
@[simp] theorem State.writeY_responses : (s.writeY a v).responses = s.responses := by cases s; rfl

end writeY

section writeR

variable (s : State) (L : Lag) (v : Word)

@[simp] theorem State.writeR_x : (s.writeR L v).x = s.x := by cases s; rfl
@[simp] theorem State.writeR_y : (s.writeR L v).y = s.y := by cases s; rfl
@[simp] theorem State.writeR_r : (s.writeR L v).r = s.r.set L.toNat v L.isLt := by cases s; rfl
@[simp] theorem State.writeR_w : (s.writeR L v).w = s.w := by cases s; rfl
@[simp] theorem State.writeR_phase : (s.writeR L v).phase = s.phase := by cases s; rfl
@[simp] theorem State.writeR_delta : (s.writeR L v).delta = s.delta := by cases s; rfl
@[simp] theorem State.writeR_pos : (s.writeR L v).pos = s.pos := by cases s; rfl
@[simp] theorem State.writeR_fs : (s.writeR L v).fs = s.fs := by cases s; rfl
@[simp] theorem State.writeR_cfg : (s.writeR L v).cfg = s.cfg := by cases s; rfl
@[simp] theorem State.writeR_err : (s.writeR L v).err = s.err := by cases s; rfl
@[simp] theorem State.writeR_cause : (s.writeR L v).cause = s.cause := by cases s; rfl
@[simp] theorem State.writeR_commands : (s.writeR L v).commands = s.commands := by cases s; rfl
@[simp] theorem State.writeR_responses : (s.writeR L v).responses = s.responses := by cases s; rfl

end writeR

section setPos

variable (s : State) (p : RingAddr)

@[simp] theorem State.setPos_x : (s.setPos p).x = s.x := by cases s; rfl
@[simp] theorem State.setPos_y : (s.setPos p).y = s.y := by cases s; rfl
@[simp] theorem State.setPos_r : (s.setPos p).r = s.r := by cases s; rfl
@[simp] theorem State.setPos_w : (s.setPos p).w = s.w := by cases s; rfl
@[simp] theorem State.setPos_phase : (s.setPos p).phase = s.phase := by cases s; rfl
@[simp] theorem State.setPos_delta : (s.setPos p).delta = s.delta := by cases s; rfl
@[simp] theorem State.setPos_pos : (s.setPos p).pos = p := by cases s; rfl
@[simp] theorem State.setPos_fs : (s.setPos p).fs = s.fs := by cases s; rfl
@[simp] theorem State.setPos_cfg : (s.setPos p).cfg = s.cfg := by cases s; rfl
@[simp] theorem State.setPos_err : (s.setPos p).err = s.err := by cases s; rfl
@[simp] theorem State.setPos_cause : (s.setPos p).cause = s.cause := by cases s; rfl
@[simp] theorem State.setPos_commands : (s.setPos p).commands = s.commands := by cases s; rfl
@[simp] theorem State.setPos_responses : (s.setPos p).responses = s.responses := by cases s; rfl

end setPos

section setPhase

variable (s : State) (v : Word)

@[simp] theorem State.setPhase_x : (s.setPhase v).x = s.x := by cases s; rfl
@[simp] theorem State.setPhase_y : (s.setPhase v).y = s.y := by cases s; rfl
@[simp] theorem State.setPhase_r : (s.setPhase v).r = s.r := by cases s; rfl
@[simp] theorem State.setPhase_w : (s.setPhase v).w = s.w := by cases s; rfl
@[simp] theorem State.setPhase_phase : (s.setPhase v).phase = v := by cases s; rfl
@[simp] theorem State.setPhase_delta : (s.setPhase v).delta = s.delta := by cases s; rfl
@[simp] theorem State.setPhase_pos : (s.setPhase v).pos = s.pos := by cases s; rfl
@[simp] theorem State.setPhase_fs : (s.setPhase v).fs = s.fs := by cases s; rfl
@[simp] theorem State.setPhase_cfg : (s.setPhase v).cfg = s.cfg := by cases s; rfl
@[simp] theorem State.setPhase_err : (s.setPhase v).err = s.err := by cases s; rfl
@[simp] theorem State.setPhase_cause : (s.setPhase v).cause = s.cause := by cases s; rfl
@[simp] theorem State.setPhase_commands : (s.setPhase v).commands = s.commands := by cases s; rfl
@[simp] theorem State.setPhase_responses : (s.setPhase v).responses = s.responses := by cases s; rfl

end setPhase

section setDelta

variable (s : State) (v : Word)

@[simp] theorem State.setDelta_x : (s.setDelta v).x = s.x := by cases s; rfl
@[simp] theorem State.setDelta_y : (s.setDelta v).y = s.y := by cases s; rfl
@[simp] theorem State.setDelta_r : (s.setDelta v).r = s.r := by cases s; rfl
@[simp] theorem State.setDelta_w : (s.setDelta v).w = s.w := by cases s; rfl
@[simp] theorem State.setDelta_phase : (s.setDelta v).phase = s.phase := by cases s; rfl
@[simp] theorem State.setDelta_delta : (s.setDelta v).delta = v := by cases s; rfl
@[simp] theorem State.setDelta_pos : (s.setDelta v).pos = s.pos := by cases s; rfl
@[simp] theorem State.setDelta_fs : (s.setDelta v).fs = s.fs := by cases s; rfl
@[simp] theorem State.setDelta_cfg : (s.setDelta v).cfg = s.cfg := by cases s; rfl
@[simp] theorem State.setDelta_err : (s.setDelta v).err = s.err := by cases s; rfl
@[simp] theorem State.setDelta_cause : (s.setDelta v).cause = s.cause := by cases s; rfl
@[simp] theorem State.setDelta_commands : (s.setDelta v).commands = s.commands := by cases s; rfl
@[simp] theorem State.setDelta_responses : (s.setDelta v).responses = s.responses := by cases s; rfl

end setDelta

section respond

variable (s : State) (data : Word) (trig : Bool)

@[simp] theorem respond_x : (respond data trig s).x = s.x := by cases s; rfl
@[simp] theorem respond_y : (respond data trig s).y = s.y := by cases s; rfl
@[simp] theorem respond_r : (respond data trig s).r = s.r := by cases s; rfl
@[simp] theorem respond_w : (respond data trig s).w = s.w := by cases s; rfl
@[simp] theorem respond_phase : (respond data trig s).phase = s.phase := by cases s; rfl
@[simp] theorem respond_delta : (respond data trig s).delta = s.delta := by cases s; rfl
@[simp] theorem respond_pos : (respond data trig s).pos = s.pos := by cases s; rfl
@[simp] theorem respond_fs : (respond data trig s).fs = s.fs := by cases s; rfl
@[simp] theorem respond_cfg : (respond data trig s).cfg = s.cfg := by cases s; rfl
@[simp] theorem respond_err : (respond data trig s).err = s.err := by cases s; rfl
@[simp] theorem respond_cause : (respond data trig s).cause = s.cause := by cases s; rfl
@[simp] theorem respond_commands : (respond data trig s).commands = s.commands := by cases s; rfl
@[simp] theorem respond_responses : (respond data trig s).responses = s.responses ++ [responseWord s.err trig data] := by cases s; rfl

end respond

section ignoreCommand

variable (s : State)

@[simp] theorem ignoreCommand_x : (ignoreCommand s).x = s.x := by cases s; rfl
@[simp] theorem ignoreCommand_y : (ignoreCommand s).y = s.y := by cases s; rfl
@[simp] theorem ignoreCommand_r : (ignoreCommand s).r = s.r := by cases s; rfl
@[simp] theorem ignoreCommand_w : (ignoreCommand s).w = s.w := by cases s; rfl
@[simp] theorem ignoreCommand_phase : (ignoreCommand s).phase = s.phase := by cases s; rfl
@[simp] theorem ignoreCommand_delta : (ignoreCommand s).delta = s.delta := by cases s; rfl
@[simp] theorem ignoreCommand_pos : (ignoreCommand s).pos = s.pos := by cases s; rfl
@[simp] theorem ignoreCommand_fs : (ignoreCommand s).fs = s.fs := by cases s; rfl
@[simp] theorem ignoreCommand_cfg : (ignoreCommand s).cfg = s.cfg := by cases s; rfl
@[simp] theorem ignoreCommand_err : (ignoreCommand s).err = s.err := by cases s; rfl
@[simp] theorem ignoreCommand_cause : (ignoreCommand s).cause = s.cause := by cases s; rfl
@[simp] theorem ignoreCommand_commands : (ignoreCommand s).commands = s.commands := by cases s; rfl
@[simp] theorem ignoreCommand_responses : (ignoreCommand s).responses = s.responses ++ [responseWord s.err false zeroWord] := by cases s; rfl

end ignoreCommand

section raiseFault

variable (s : State) (c : FaultCause)

@[simp] theorem raiseFault_x : (raiseFault c s).x = s.x := by cases s; rfl
@[simp] theorem raiseFault_y : (raiseFault c s).y = s.y := by cases s; rfl
@[simp] theorem raiseFault_r : (raiseFault c s).r = s.r := by cases s; rfl
@[simp] theorem raiseFault_w : (raiseFault c s).w = s.w := by cases s; rfl
@[simp] theorem raiseFault_phase : (raiseFault c s).phase = s.phase := by cases s; rfl
@[simp] theorem raiseFault_delta : (raiseFault c s).delta = s.delta := by cases s; rfl
@[simp] theorem raiseFault_pos : (raiseFault c s).pos = s.pos := by cases s; rfl
@[simp] theorem raiseFault_fs : (raiseFault c s).fs = s.fs := by cases s; rfl
@[simp] theorem raiseFault_cfg : (raiseFault c s).cfg = s.cfg := by cases s; rfl
@[simp] theorem raiseFault_err : (raiseFault c s).err = true := by cases s; rfl
@[simp] theorem raiseFault_cause : (raiseFault c s).cause = faultCode c := by cases s; rfl
@[simp] theorem raiseFault_commands : (raiseFault c s).commands = s.commands := by cases s; rfl
@[simp] theorem raiseFault_responses : (raiseFault c s).responses = s.responses ++ [responseWord true false zeroWord] := by cases s; rfl

end raiseFault

section warmReset

variable (s : State) (f : Word) (d : Nat)

@[simp] theorem warmReset_x : (warmReset f d s).x = Vector.replicate Config.nring zeroWord := by cases s; rfl
@[simp] theorem warmReset_y : (warmReset f d s).y = Vector.replicate Config.nring zeroWord := by cases s; rfl
@[simp] theorem warmReset_r : (warmReset f d s).r = Vector.replicate Config.nlag zeroWord := by cases s; rfl
@[simp] theorem warmReset_w : (warmReset f d s).w = s.w := by cases s; rfl
@[simp] theorem warmReset_phase : (warmReset f d s).phase = 0#32 := by cases s; rfl
@[simp] theorem warmReset_delta : (warmReset f d s).delta = BitVec.ofNat 32 d := by cases s; rfl
@[simp] theorem warmReset_pos : (warmReset f d s).pos = 0#8 := by cases s; rfl
@[simp] theorem warmReset_fs : (warmReset f d s).fs = f := by cases s; rfl
@[simp] theorem warmReset_cfg : (warmReset f d s).cfg = true := by cases s; rfl
@[simp] theorem warmReset_err : (warmReset f d s).err = s.err := by cases s; rfl
@[simp] theorem warmReset_cause : (warmReset f d s).cause = s.cause := by cases s; rfl
@[simp] theorem warmReset_commands : (warmReset f d s).commands = s.commands := by cases s; rfl
@[simp] theorem warmReset_responses : (warmReset f d s).responses = s.responses := by cases s; rfl

end warmReset

section issueNext

variable (s : State) (c : CommandWord)

@[simp] theorem issueNext_x : (issueNext c s).x = s.x := by cases s; rfl
@[simp] theorem issueNext_y : (issueNext c s).y = s.y := by cases s; rfl
@[simp] theorem issueNext_r : (issueNext c s).r = s.r := by cases s; rfl
@[simp] theorem issueNext_w : (issueNext c s).w = s.w := by cases s; rfl
@[simp] theorem issueNext_phase : (issueNext c s).phase = s.phase := by cases s; rfl
@[simp] theorem issueNext_delta : (issueNext c s).delta = s.delta := by cases s; rfl
@[simp] theorem issueNext_pos : (issueNext c s).pos = s.pos := by cases s; rfl
@[simp] theorem issueNext_fs : (issueNext c s).fs = s.fs := by cases s; rfl
@[simp] theorem issueNext_cfg : (issueNext c s).cfg = s.cfg := by cases s; rfl
@[simp] theorem issueNext_err : (issueNext c s).err = s.err := by cases s; rfl
@[simp] theorem issueNext_cause : (issueNext c s).cause = s.cause := by cases s; rfl
@[simp] theorem issueNext_commands : (issueNext c s).commands = c :: s.commands := by cases s; rfl
@[simp] theorem issueNext_responses : (issueNext c s).responses = s.responses := by cases s; rfl

end issueNext

section issueCommand

variable (s : State) (c : CommandWord)

@[simp] theorem issueCommand_x : (issueCommand c s).x = s.x := by cases s; rfl
@[simp] theorem issueCommand_y : (issueCommand c s).y = s.y := by cases s; rfl
@[simp] theorem issueCommand_r : (issueCommand c s).r = s.r := by cases s; rfl
@[simp] theorem issueCommand_w : (issueCommand c s).w = s.w := by cases s; rfl
@[simp] theorem issueCommand_phase : (issueCommand c s).phase = s.phase := by cases s; rfl
@[simp] theorem issueCommand_delta : (issueCommand c s).delta = s.delta := by cases s; rfl
@[simp] theorem issueCommand_pos : (issueCommand c s).pos = s.pos := by cases s; rfl
@[simp] theorem issueCommand_fs : (issueCommand c s).fs = s.fs := by cases s; rfl
@[simp] theorem issueCommand_cfg : (issueCommand c s).cfg = s.cfg := by cases s; rfl
@[simp] theorem issueCommand_err : (issueCommand c s).err = s.err := by cases s; rfl
@[simp] theorem issueCommand_cause : (issueCommand c s).cause = s.cause := by cases s; rfl
@[simp] theorem issueCommand_commands : (issueCommand c s).commands = s.commands ++ [c] := by cases s; rfl
@[simp] theorem issueCommand_responses : (issueCommand c s).responses = s.responses := by cases s; rfl

end issueCommand

section reads

variable (s : State)

@[simp] theorem State.readX_writeX_same (a : RingAddr) (v : Word) : (s.writeX a v).readX a = v := by
  simp [State.readX]

theorem State.readX_writeX_ne {a b : RingAddr} (v : Word) (h : a ≠ b) : (s.writeX a v).readX b = s.readX b := by
  have : a.toNat ≠ b.toNat := fun e => h (BitVec.eq_of_toNat_eq e)
  simp [State.readX, this]

@[simp] theorem State.readY_writeY_same (a : RingAddr) (v : Word) : (s.writeY a v).readY a = v := by
  simp [State.readY]

theorem State.readY_writeY_ne {a b : RingAddr} (v : Word) (h : a ≠ b) : (s.writeY a v).readY b = s.readY b := by
  have : a.toNat ≠ b.toNat := fun e => h (BitVec.eq_of_toNat_eq e)
  simp [State.readY, this]

@[simp] theorem State.readR_writeR_same (L : Lag) (v : Word) : (s.writeR L v).readR L = v := by
  simp [State.readR]

theorem State.readR_writeR_ne {L K : Lag} (v : Word) (h : L ≠ K) : (s.writeR L v).readR K = s.readR K := by
  have : L.toNat ≠ K.toNat := fun e => h (BitVec.eq_of_toNat_eq e)
  simp [State.readR, this]

@[simp] theorem State.readY_writeX (a : RingAddr) (v : Word) (i : RingAddr) : (s.writeX a v).readY i = s.readY i := by cases s; rfl
@[simp] theorem State.readR_writeX (a : RingAddr) (v : Word) (i : Lag) : (s.writeX a v).readR i = s.readR i := by cases s; rfl
@[simp] theorem State.readW_writeX (a : RingAddr) (v : Word) (i : RingAddr) : (s.writeX a v).readW i = s.readW i := by cases s; rfl
@[simp] theorem State.readX_writeY (a : RingAddr) (v : Word) (i : RingAddr) : (s.writeY a v).readX i = s.readX i := by cases s; rfl
@[simp] theorem State.readR_writeY (a : RingAddr) (v : Word) (i : Lag) : (s.writeY a v).readR i = s.readR i := by cases s; rfl
@[simp] theorem State.readW_writeY (a : RingAddr) (v : Word) (i : RingAddr) : (s.writeY a v).readW i = s.readW i := by cases s; rfl
@[simp] theorem State.readX_writeR (L : Lag) (v : Word) (i : RingAddr) : (s.writeR L v).readX i = s.readX i := by cases s; rfl
@[simp] theorem State.readY_writeR (L : Lag) (v : Word) (i : RingAddr) : (s.writeR L v).readY i = s.readY i := by cases s; rfl
@[simp] theorem State.readW_writeR (L : Lag) (v : Word) (i : RingAddr) : (s.writeR L v).readW i = s.readW i := by cases s; rfl
@[simp] theorem State.readX_setPos (p : RingAddr) (i : RingAddr) : (s.setPos p).readX i = s.readX i := by cases s; rfl
@[simp] theorem State.readY_setPos (p : RingAddr) (i : RingAddr) : (s.setPos p).readY i = s.readY i := by cases s; rfl
@[simp] theorem State.readR_setPos (p : RingAddr) (i : Lag) : (s.setPos p).readR i = s.readR i := by cases s; rfl
@[simp] theorem State.readW_setPos (p : RingAddr) (i : RingAddr) : (s.setPos p).readW i = s.readW i := by cases s; rfl
@[simp] theorem State.readX_setPhase (v : Word) (i : RingAddr) : (s.setPhase v).readX i = s.readX i := by cases s; rfl
@[simp] theorem State.readY_setPhase (v : Word) (i : RingAddr) : (s.setPhase v).readY i = s.readY i := by cases s; rfl
@[simp] theorem State.readR_setPhase (v : Word) (i : Lag) : (s.setPhase v).readR i = s.readR i := by cases s; rfl
@[simp] theorem State.readW_setPhase (v : Word) (i : RingAddr) : (s.setPhase v).readW i = s.readW i := by cases s; rfl
@[simp] theorem State.readX_setDelta (v : Word) (i : RingAddr) : (s.setDelta v).readX i = s.readX i := by cases s; rfl
@[simp] theorem State.readY_setDelta (v : Word) (i : RingAddr) : (s.setDelta v).readY i = s.readY i := by cases s; rfl
@[simp] theorem State.readR_setDelta (v : Word) (i : Lag) : (s.setDelta v).readR i = s.readR i := by cases s; rfl
@[simp] theorem State.readW_setDelta (v : Word) (i : RingAddr) : (s.setDelta v).readW i = s.readW i := by cases s; rfl
@[simp] theorem State.readX_respond (data : Word) (trig : Bool) (i : RingAddr) : (respond data trig s).readX i = s.readX i := by cases s; rfl
@[simp] theorem State.readY_respond (data : Word) (trig : Bool) (i : RingAddr) : (respond data trig s).readY i = s.readY i := by cases s; rfl
@[simp] theorem State.readR_respond (data : Word) (trig : Bool) (i : Lag) : (respond data trig s).readR i = s.readR i := by cases s; rfl
@[simp] theorem State.readW_respond (data : Word) (trig : Bool) (i : RingAddr) : (respond data trig s).readW i = s.readW i := by cases s; rfl
@[simp] theorem State.readX_ignoreCommand (i : RingAddr) : (ignoreCommand s).readX i = s.readX i := by cases s; rfl
@[simp] theorem State.readY_ignoreCommand (i : RingAddr) : (ignoreCommand s).readY i = s.readY i := by cases s; rfl
@[simp] theorem State.readR_ignoreCommand (i : Lag) : (ignoreCommand s).readR i = s.readR i := by cases s; rfl
@[simp] theorem State.readW_ignoreCommand (i : RingAddr) : (ignoreCommand s).readW i = s.readW i := by cases s; rfl
@[simp] theorem State.readX_raiseFault (c : FaultCause) (i : RingAddr) : (raiseFault c s).readX i = s.readX i := by cases s; rfl
@[simp] theorem State.readY_raiseFault (c : FaultCause) (i : RingAddr) : (raiseFault c s).readY i = s.readY i := by cases s; rfl
@[simp] theorem State.readR_raiseFault (c : FaultCause) (i : Lag) : (raiseFault c s).readR i = s.readR i := by cases s; rfl
@[simp] theorem State.readW_raiseFault (c : FaultCause) (i : RingAddr) : (raiseFault c s).readW i = s.readW i := by cases s; rfl
@[simp] theorem State.readX_issueNext (c : CommandWord) (i : RingAddr) : (issueNext c s).readX i = s.readX i := by cases s; rfl
@[simp] theorem State.readY_issueNext (c : CommandWord) (i : RingAddr) : (issueNext c s).readY i = s.readY i := by cases s; rfl
@[simp] theorem State.readR_issueNext (c : CommandWord) (i : Lag) : (issueNext c s).readR i = s.readR i := by cases s; rfl
@[simp] theorem State.readW_issueNext (c : CommandWord) (i : RingAddr) : (issueNext c s).readW i = s.readW i := by cases s; rfl
@[simp] theorem State.readX_issueCommand (c : CommandWord) (i : RingAddr) : (issueCommand c s).readX i = s.readX i := by cases s; rfl
@[simp] theorem State.readY_issueCommand (c : CommandWord) (i : RingAddr) : (issueCommand c s).readY i = s.readY i := by cases s; rfl
@[simp] theorem State.readR_issueCommand (c : CommandWord) (i : Lag) : (issueCommand c s).readR i = s.readR i := by cases s; rfl
@[simp] theorem State.readW_issueCommand (c : CommandWord) (i : RingAddr) : (issueCommand c s).readW i = s.readW i := by cases s; rfl

/-- Two states with the same entries of `X` have the same `X`. -/
theorem State.x_ext {s t : State} (h : ∀ a, s.readX a = t.readX a) : s.x = t.x := by
  apply Vector.ext
  intro i hi
  have := h (BitVec.ofNat 8 i)
  simpa [State.readX, Nat.mod_eq_of_lt (show i < 256 from hi)] using this

/-- Two states with the same entries of `Y` have the same `Y`. -/
theorem State.y_ext {s t : State} (h : ∀ a, s.readY a = t.readY a) : s.y = t.y := by
  apply Vector.ext
  intro i hi
  have := h (BitVec.ofNat 8 i)
  simpa [State.readY, Nat.mod_eq_of_lt (show i < 256 from hi)] using this

/-- Two states with the same entries of `R` have the same `R`. -/
theorem State.r_ext {s t : State} (h : ∀ L, s.readR L = t.readR L) : s.r = t.r := by
  apply Vector.ext
  intro i hi
  have := h (BitVec.ofNat 7 i)
  simpa [State.readR, Nat.mod_eq_of_lt (show i < 128 from hi)] using this

end reads

end Sys2Proof.Machine
end

