-- ==== Sys2Proof/Laws/Loops.lean ====
section
/-! SUPPORT. What the two loops of a sample step do, said once: `acuUpdate` and `olaGrain`, entry by entry, and what they leave alone. -/

namespace Sys2Proof.Machine

section Range

/-- A loop is its body folded over the range. -/
theorem forRange_zero_succ (n : Nat) (body : Nat → State → State) (s : State) :
    forRange 0 (n + 1) body s = body n (forRange 0 n body s) := by
  simp [forRange, List.range'_concat]

/-- A loop from 1 whose upper end grows runs its body once more. -/
theorem forRange_one_succ (n : Nat) (body : Nat → State → State) (s : State) :
    forRange 1 (n + 2) body s = body (n + 1) (forRange 1 (n + 1) body s) := by
  simp [forRange, List.range'_concat, Nat.add_comm]

@[simp] theorem forRange_empty (a : Nat) (body : Nat → State → State) (s : State) : forRange a a body s = s := by
  simp [forRange]

/-- What holds before a loop and is kept by its body holds after it. -/
theorem forRange_invariant {a b : Nat} {body : Nat → State → State} (P : State → Prop) {s : State} (h0 : P s)
    (hstep : ∀ i t, a ≤ i → i < b → P t → P (body i t)) : P (forRange a b body s) := by
  have key : ∀ (l : List Nat) (t : State), (∀ i ∈ l, a ≤ i ∧ i < b) → P t → P (l.foldl (fun t i => body i t) t) := by
    intro l
    induction l with
    | nil => exact fun t _ ht => ht
    | cons i l ih =>
      intro t hl ht
      obtain ⟨h1, h2⟩ := hl i (by simp)
      exact ih _ (fun j hj => hl j (by simp [hj])) (hstep i t h1 h2 ht)
  apply key _ _ _ h0
  intro i hi
  rw [List.mem_range'_1] at hi
  omega

end Range

section Indices

theorem lagIndex_toNat {L : Nat} (h : L < 128) : (lagIndex L).toNat = L := by
  simp [lagIndex, Nat.mod_eq_of_lt h]

theorem lagIndex_of_toNat (L : Lag) : lagIndex L.toNat = L := by simp [lagIndex]

theorem windowIndex_toNat {i : Nat} (h : i < 256) : (windowIndex i).toNat = i := by
  simp [windowIndex, Nat.mod_eq_of_lt h]

/-- `p ⊕ k` for a natural offset. -/
theorem ringPlus_natCast (p : RingAddr) (k : Nat) : ringPlus p k = p + BitVec.ofNat 8 k := by
  simp [ringPlus]

/-- `p ⊖ k` for a natural offset. -/
theorem ringMinus_natCast (p : RingAddr) (k : Nat) : ringMinus p k = p - BitVec.ofNat 8 k := by
  simp [ringMinus]

/-- Offsets below 256 reach distinct slots. -/
theorem ringPlus_inj {p : RingAddr} {j k : Nat} (hj : j < 256) (hk : k < 256) (h : ringPlus p j = ringPlus p k) : j = k := by
  rw [ringPlus_natCast, ringPlus_natCast] at h
  have := congrArg BitVec.toNat (add_left_cancel h)
  simpa [Nat.mod_eq_of_lt hj, Nat.mod_eq_of_lt hk] using this

/-- Every slot is at exactly one offset below 256 from `p`. -/
theorem ringPlus_offset (p a : RingAddr) : ringPlus p ((a - p).toNat : Nat) = a := by
  rw [ringPlus_natCast, BitVec.ofNat_toNat, BitVec.setWidth_eq, add_sub_cancel]

end Indices

section Autocorrelator

variable (p : RingAddr) (s : State)

/-- `acuUpdate` writes `R` and nothing else (41_leaky_autocorrelator.md R100). -/
theorem acuUpdate_frame : acuUpdate p s = { s with r := (acuUpdate p s).r } := by
  apply forRange_invariant (fun t => t = { s with r := t.r }) rfl
  intro i t _ _ ht
  rw [ht]
  rfl

/-- Every lag after `acuUpdate`: decay then blend, from the values before it (41_leaky_autocorrelator.md R100, R102). -/
theorem acuUpdate_readR (L : Lag) :
    (acuUpdate p s).readR L = blendLag (s.readR L) (s.readX p) (s.readX (ringMinus p L.toNat)) := by
  have key : ∀ n ≤ 128, ∀ K : Lag, (forRange 0 n (updateLag p (s.readX p)) s).readR K =
      if K.toNat < n then blendLag (s.readR K) (s.readX p) (s.readX (ringMinus p K.toNat)) else s.readR K := by
    intro n
    induction n with
    | zero => simp
    | succ n ih =>
      intro hn K
      have hx : ∀ a, (forRange 0 n (updateLag p (s.readX p)) s).readX a = s.readX a := by
        apply forRange_invariant (fun t => ∀ a, t.readX a = s.readX a) (fun _ => rfl)
        intro i t _ _ ht a
        exact ht a
      rw [forRange_zero_succ]
      simp only [updateLag]
      by_cases hK : lagIndex n = K
      · have hKn : K.toNat = n := by rw [← hK]; exact lagIndex_toNat (by omega)
        subst hKn
        rw [hK, State.readR_writeR_same, hx, ih (by omega)]
        simp
      · have hKn : K.toNat ≠ n := fun h => hK (by rw [← h]; exact lagIndex_of_toNat K)
        rw [State.readR_writeR_ne _ _ hK, ih (by omega)]
        by_cases h : K.toNat < n
        · rw [if_pos h, if_pos (by omega)]
        · rw [if_neg h, if_neg (by omega)]
  have := key 128 (le_refl _) L
  rwa [if_pos L.isLt] at this

end Autocorrelator

section Synthesizer

variable (p : RingAddr) (s : State)

/-- The term a grain adds at offset `j` from its anchor, `1 <= j <= 255`: both halves in one form
(43_overlap_add_synthesizer.md R142 to R144). -/
def offsetTerm (t : State) (j : Nat) : Word :=
  grainTerm (t.readR (lagIndex (if j < 128 then 128 - j else j - 128))) (t.readW (windowIndex j)) (grainScale t)

/-- `addToSlot` writes `Y` and nothing else. -/
theorem addToSlot_frame (a : RingAddr) (v : Word) : addToSlot a v s = { s with y := (addToSlot a v s).y } := rfl

/-- `olaGrain` writes `Y` and nothing else (43_overlap_add_synthesizer.md R140). -/
theorem olaGrain_frame : olaGrain p s = { s with y := (olaGrain p s).y } := by
  apply forRange_invariant (fun t => t = { s with y := t.y })
  · apply forRange_invariant (fun t => t = { s with y := t.y }) rfl
    intro i t _ _ ht
    rw [ht]
    rfl
  · intro i t _ _ ht
    rw [ht]
    rfl

/-- The slots after the first `n` terms of the backward half. -/
theorem backward_readY (n : Nat) (hn : n ≤ 127) (j : Nat) (hj : j < 256) :
    (forRange 1 (n + 1) (addBackwardTerm p (grainScale s)) s).readY (ringPlus p j) =
      if 1 ≤ j ∧ j ≤ n then fadd (s.readY (ringPlus p j)) (offsetTerm s j) else s.readY (ringPlus p j) := by
  induction n with
  | zero => rw [forRange_empty, if_neg (by omega)]
  | succ n ih =>
    have hrw : ∀ t, t = forRange 1 (n + 1) (addBackwardTerm p (grainScale s)) s →
        (∀ L, t.readR L = s.readR L) ∧ ∀ i, t.readW i = s.readW i := by
      rintro t rfl
      apply forRange_invariant (fun t => (∀ L, t.readR L = s.readR L) ∧ ∀ i, t.readW i = s.readW i) (by simp)
      intro i t _ _ ht
      exact ht
    obtain ⟨hr, hw⟩ := hrw _ rfl
    have ih' := ih (by omega)
    rw [forRange_one_succ]
    simp only [addBackwardTerm, addToSlot, hr, hw]
    by_cases h : j = n + 1
    · subst h
      rw [State.readY_writeY_same, ih', if_neg (by omega), if_pos (by omega), offsetTerm, if_pos (by omega)]
    · have hne : ringPlus p (n + 1 : Nat) ≠ ringPlus p j := fun e => h (ringPlus_inj (by omega) hj e).symm
      rw [State.readY_writeY_ne _ _ hne, ih']
      by_cases h' : 1 ≤ j ∧ j ≤ n
      · rw [if_pos h', if_pos (by omega)]
      · rw [if_neg h', if_neg (by omega)]

/-- Every slot after a grain: the anchor keeps its value, and every other slot gains exactly one term
(43_overlap_add_synthesizer.md R144). -/
theorem olaGrain_readY (j : Nat) (hj : j < 256) :
    (olaGrain p s).readY (ringPlus p j) =
      if j = 0 then s.readY (ringPlus p j) else fadd (s.readY (ringPlus p j)) (offsetTerm s j) := by
  set b := forRange 1 128 (addBackwardTerm p (grainScale s)) s with hb
  have hbr : (∀ L, b.readR L = s.readR L) ∧ ∀ i, b.readW i = s.readW i := by
    rw [hb]
    apply forRange_invariant (fun t => (∀ L, t.readR L = s.readR L) ∧ ∀ i, t.readW i = s.readW i) (by simp)
    intro i t _ _ ht
    exact ht
  have key : ∀ n ≤ 128, (forRange 0 n (addForwardTerm p (grainScale s)) b).readY (ringPlus p j) =
      if 128 ≤ j ∧ j < 128 + n then fadd (b.readY (ringPlus p j)) (offsetTerm s j) else b.readY (ringPlus p j) := by
    intro n
    induction n with
    | zero => intro _; rw [forRange_empty, if_neg (by omega)]
    | succ n ih =>
      intro hn
      have hrw : ∀ t, t = forRange 0 n (addForwardTerm p (grainScale s)) b →
          (∀ L, t.readR L = s.readR L) ∧ ∀ i, t.readW i = s.readW i := by
        rintro t rfl
        apply forRange_invariant (fun t => (∀ L, t.readR L = s.readR L) ∧ ∀ i, t.readW i = s.readW i) hbr
        intro i t _ _ ht
        exact ht
      obtain ⟨hr, hw⟩ := hrw _ rfl
      have ih' := ih (by omega)
      rw [forRange_zero_succ]
      simp only [addForwardTerm, addToSlot, hr, hw]
      have hcast : ((128 : Int) + (n : Int)) = ((128 + n : Nat) : Int) := by push_cast; rfl
      rw [hcast]
      by_cases h : j = 128 + n
      · subst h
        rw [State.readY_writeY_same, ih', if_neg (by omega), if_pos (by omega), offsetTerm, if_neg (by omega),
          Nat.add_sub_cancel_left, Nat.add_comm n 128]
      · have hne : ringPlus p (128 + n : Nat) ≠ ringPlus p j := fun e => h (ringPlus_inj (by omega) hj e).symm
        rw [State.readY_writeY_ne _ _ hne, ih']
        by_cases h' : 128 ≤ j ∧ j < 128 + n
        · rw [if_pos h', if_pos (by omega)]
        · rw [if_neg h', if_neg (by omega)]
  have hfwd := key 128 (le_refl _)
  have hbwd := backward_readY p s 127 (le_refl _) j hj
  rw [← hb] at hbwd
  have hunfold : olaGrain p s = forRange 0 128 (addForwardTerm p (grainScale s)) b := rfl
  rw [hunfold, hfwd, hbwd]
  by_cases h0 : j = 0
  · rw [if_neg (by omega), if_neg (by omega), if_pos h0]
  · by_cases hlow : j ≤ 127
    · rw [if_neg (by omega), if_pos (by omega), if_neg h0]
    · rw [if_pos (by omega), if_neg (by omega), if_neg h0]

end Synthesizer

end Sys2Proof.Machine
end

