-- ==== Sys2Proof/Laws/Commands.lean ====
section
/-! SUPPORT. What each shared operation of the commands can do, said once: the gate of the faulted state, the three commands with their
faults, the sample step field by field, and a step and a stream of commands. -/

namespace Sys2Proof.Machine

section Gate

variable {body : State → State} {s : State}

@[simp] theorem unlessFaulted_of_err (h : s.err = true) : unlessFaulted body s = ignoreCommand s := by
  simp [unlessFaulted, h]

@[simp] theorem unlessFaulted_of_ok (h : s.err = false) : unlessFaulted body s = body s := by
  simp [unlessFaulted, h]

end Gate

section Cases

variable (P : Config.Parameters) (s : State)

/-- Everything RESET can do on a block that is not faulted (45_control.md R180, R181). -/
theorem resetCommand_cases (f : Word) :
    (f = 0#32 ∧ resetCommand P f s = raiseFault .badRate s) ∨
    (f ≠ 0#32 ∧ 2 ^ 32 ≤ P.deltaOf f.toNat 57 ∧ resetCommand P f s = raiseFault .deltaRange s) ∨
    (f ≠ 0#32 ∧ P.deltaOf f.toNat 57 < 2 ^ 32 ∧
      resetCommand P f s = respond zeroWord false (warmReset f (P.deltaOf f.toNat 57) s)) := by
  by_cases h0 : f = 0#32
  · exact .inl ⟨h0, by simp [resetCommand, h0]⟩
  · rcases Nat.lt_or_ge (P.deltaOf f.toNat 57) (2 ^ 32) with h | h
    · refine .inr (.inr ⟨h0, h, ?_⟩)
      simp only [resetCommand, if_neg h0]
      exact if_neg (Nat.not_le_of_lt h)
    · refine .inr (.inl ⟨h0, h, ?_⟩)
      simp only [resetCommand, if_neg h0]
      exact if_pos h

/-- Everything NOTE_ON can do on a block that is not faulted (42_phase_accumulator_trigger.md R122). -/
theorem noteOnCommand_cases (n : Note) :
    (s.cfg = false ∧ noteOnCommand P n s = raiseFault .notConfigured s) ∨
    (s.cfg = true ∧ 2 ^ 32 ≤ P.deltaOf s.fs.toNat n.toNat ∧ noteOnCommand P n s = raiseFault .deltaRange s) ∨
    (s.cfg = true ∧ P.deltaOf s.fs.toNat n.toNat < 2 ^ 32 ∧
      noteOnCommand P n s = respond zeroWord false (s.setDelta (BitVec.ofNat 32 (P.deltaOf s.fs.toNat n.toNat)))) := by
  cases hc : s.cfg with
  | false => exact .inl ⟨rfl, by simp [noteOnCommand, hc]⟩
  | true =>
    rcases Nat.lt_or_ge (P.deltaOf s.fs.toNat n.toNat) (2 ^ 32) with h | h
    · refine .inr (.inr ⟨rfl, h, ?_⟩)
      simp only [noteOnCommand, hc, if_neg (Nat.not_le_of_lt h)]
      rfl
    · refine .inr (.inl ⟨rfl, h, ?_⟩)
      simp only [noteOnCommand, hc, if_pos h]
      rfl

/-- Everything SAMPLE can do on a block that is not faulted (44_sample_step.md R160, R161). -/
theorem sampleCommand_cases (x : Word) :
    (s.cfg = false ∧ sampleCommand x s = raiseFault .notConfigured s) ∨
    (s.cfg = true ∧ sampleCommand x s = sampleStep x s) := by
  cases hc : s.cfg with
  | false => exact .inl ⟨rfl, by simp [sampleCommand, hc]⟩
  | true => exact .inr ⟨rfl, by simp [sampleCommand, hc]⟩

end Cases

section Trigger

/-- `TRIG` is the carry out of the 32-bit addition (42_phase_accumulator_trigger.md R120). -/
theorem trigFlag_eq_carry (a b : Word) : trigFlag (a + b) b = decide (2 ^ 32 ≤ a.toNat + b.toNat) := by
  have ha := a.isLt
  have hb := b.isLt
  simp only [trigFlag, BitVec.ult, BitVec.toNat_add, decide_eq_decide]
  omega

end Trigger

section SampleStep

variable (x : Word) (s : State)

/-- The state after steps (a) and (b). -/
def blendedState : State := acuUpdate s.pos (s.writeX s.pos x)

/-- The state after steps (a) to (d). -/
def grainedState : State :=
  grainIf (trigFlag (s.phase + s.delta) s.delta) s.pos ((blendedState x s).setPhase (s.phase + s.delta))

/-- `acuUpdate` leaves every field but `R` as it was, field by field. -/
theorem acuUpdate_sameButR (p : RingAddr) (t : State) :
    (acuUpdate p t).x = t.x ∧ (acuUpdate p t).y = t.y ∧ (acuUpdate p t).w = t.w ∧ (acuUpdate p t).phase = t.phase ∧
    (acuUpdate p t).delta = t.delta ∧ (acuUpdate p t).pos = t.pos ∧ (acuUpdate p t).fs = t.fs ∧ (acuUpdate p t).cfg = t.cfg ∧
    (acuUpdate p t).err = t.err ∧ (acuUpdate p t).cause = t.cause ∧ (acuUpdate p t).commands = t.commands ∧ (acuUpdate p t).responses = t.responses := by
  have h := acuUpdate_frame p t
  refine ⟨?_, ?_, ?_, ?_, ?_, ?_, ?_, ?_, ?_, ?_, ?_, ?_⟩ <;> rw [h]

@[simp] theorem blendedState_x : (blendedState x s).x = s.x.set s.pos.toNat x s.pos.isLt :=
  (acuUpdate_sameButR s.pos (s.writeX s.pos x)).1

@[simp] theorem blendedState_y : (blendedState x s).y = s.y :=
  (acuUpdate_sameButR s.pos (s.writeX s.pos x)).2.1

@[simp] theorem blendedState_w : (blendedState x s).w = s.w :=
  (acuUpdate_sameButR s.pos (s.writeX s.pos x)).2.2.1

@[simp] theorem blendedState_phase : (blendedState x s).phase = s.phase :=
  (acuUpdate_sameButR s.pos (s.writeX s.pos x)).2.2.2.1

@[simp] theorem blendedState_delta : (blendedState x s).delta = s.delta :=
  (acuUpdate_sameButR s.pos (s.writeX s.pos x)).2.2.2.2.1

@[simp] theorem blendedState_pos : (blendedState x s).pos = s.pos :=
  (acuUpdate_sameButR s.pos (s.writeX s.pos x)).2.2.2.2.2.1

@[simp] theorem blendedState_fs : (blendedState x s).fs = s.fs :=
  (acuUpdate_sameButR s.pos (s.writeX s.pos x)).2.2.2.2.2.2.1

@[simp] theorem blendedState_cfg : (blendedState x s).cfg = s.cfg :=
  (acuUpdate_sameButR s.pos (s.writeX s.pos x)).2.2.2.2.2.2.2.1

@[simp] theorem blendedState_err : (blendedState x s).err = s.err :=
  (acuUpdate_sameButR s.pos (s.writeX s.pos x)).2.2.2.2.2.2.2.2.1

@[simp] theorem blendedState_cause : (blendedState x s).cause = s.cause :=
  (acuUpdate_sameButR s.pos (s.writeX s.pos x)).2.2.2.2.2.2.2.2.2.1

@[simp] theorem blendedState_commands : (blendedState x s).commands = s.commands :=
  (acuUpdate_sameButR s.pos (s.writeX s.pos x)).2.2.2.2.2.2.2.2.2.2.1

@[simp] theorem blendedState_responses : (blendedState x s).responses = s.responses :=
  (acuUpdate_sameButR s.pos (s.writeX s.pos x)).2.2.2.2.2.2.2.2.2.2.2

theorem blendedState_readR (L : Lag) : (blendedState x s).readR L =
    blendLag (s.readR L) x (if L = 0#7 then x else s.readX (ringMinus s.pos L.toNat)) := by
  rw [blendedState, acuUpdate_readR, State.readX_writeX_same]
  congr 1
  split_ifs with h
  · subst h
    simp [ringMinus]
  · apply State.readX_writeX_ne
    intro he
    rw [ringMinus_natCast] at he
    have h0 : BitVec.ofNat 8 L.toNat = 0#8 := by
      have := congrArg (fun v => s.pos - v) he
      simpa using this.symm
    have hlt := L.isLt
    have h1 := congrArg BitVec.toNat h0
    simp only [BitVec.toNat_ofNat, Nat.zero_mod] at h1
    apply h
    apply BitVec.eq_of_toNat_eq
    simp only [BitVec.toNat_ofNat, Nat.zero_mod]
    omega

/-- The gated grain leaves every field but `Y` as it was, field by field. -/
theorem grainIf_sameButY (b : Bool) (p : RingAddr) (t : State) :
    (grainIf b p t).x = t.x ∧ (grainIf b p t).r = t.r ∧ (grainIf b p t).w = t.w ∧ (grainIf b p t).phase = t.phase ∧
    (grainIf b p t).delta = t.delta ∧ (grainIf b p t).pos = t.pos ∧ (grainIf b p t).fs = t.fs ∧ (grainIf b p t).cfg = t.cfg ∧
    (grainIf b p t).err = t.err ∧ (grainIf b p t).cause = t.cause ∧ (grainIf b p t).commands = t.commands ∧ (grainIf b p t).responses = t.responses := by
  cases b
  · exact ⟨rfl, rfl, rfl, rfl, rfl, rfl, rfl, rfl, rfl, rfl, rfl, rfl⟩
  · have h : grainIf true p t = { t with y := (grainIf true p t).y } := olaGrain_frame p t
    refine ⟨?_, ?_, ?_, ?_, ?_, ?_, ?_, ?_, ?_, ?_, ?_, ?_⟩ <;> rw [h]

@[simp] theorem grainIf_x (b : Bool) (p : RingAddr) (t : State) : (grainIf b p t).x = t.x :=
  (grainIf_sameButY b p t).1

@[simp] theorem grainIf_r (b : Bool) (p : RingAddr) (t : State) : (grainIf b p t).r = t.r :=
  (grainIf_sameButY b p t).2.1

@[simp] theorem grainIf_w (b : Bool) (p : RingAddr) (t : State) : (grainIf b p t).w = t.w :=
  (grainIf_sameButY b p t).2.2.1

@[simp] theorem grainIf_phase (b : Bool) (p : RingAddr) (t : State) : (grainIf b p t).phase = t.phase :=
  (grainIf_sameButY b p t).2.2.2.1

@[simp] theorem grainIf_delta (b : Bool) (p : RingAddr) (t : State) : (grainIf b p t).delta = t.delta :=
  (grainIf_sameButY b p t).2.2.2.2.1

@[simp] theorem grainIf_pos (b : Bool) (p : RingAddr) (t : State) : (grainIf b p t).pos = t.pos :=
  (grainIf_sameButY b p t).2.2.2.2.2.1

@[simp] theorem grainIf_fs (b : Bool) (p : RingAddr) (t : State) : (grainIf b p t).fs = t.fs :=
  (grainIf_sameButY b p t).2.2.2.2.2.2.1

@[simp] theorem grainIf_cfg (b : Bool) (p : RingAddr) (t : State) : (grainIf b p t).cfg = t.cfg :=
  (grainIf_sameButY b p t).2.2.2.2.2.2.2.1

@[simp] theorem grainIf_err (b : Bool) (p : RingAddr) (t : State) : (grainIf b p t).err = t.err :=
  (grainIf_sameButY b p t).2.2.2.2.2.2.2.2.1

@[simp] theorem grainIf_cause (b : Bool) (p : RingAddr) (t : State) : (grainIf b p t).cause = t.cause :=
  (grainIf_sameButY b p t).2.2.2.2.2.2.2.2.2.1

@[simp] theorem grainIf_commands (b : Bool) (p : RingAddr) (t : State) : (grainIf b p t).commands = t.commands :=
  (grainIf_sameButY b p t).2.2.2.2.2.2.2.2.2.2.1

@[simp] theorem grainIf_responses (b : Bool) (p : RingAddr) (t : State) : (grainIf b p t).responses = t.responses :=
  (grainIf_sameButY b p t).2.2.2.2.2.2.2.2.2.2.2

@[simp] theorem grainedState_x : (grainedState x s).x = s.x.set s.pos.toNat x s.pos.isLt := by
  simp [grainedState]

@[simp] theorem grainedState_r : (grainedState x s).r = (blendedState x s).r := by
  simp [grainedState]

@[simp] theorem grainedState_w : (grainedState x s).w = s.w := by
  simp [grainedState]

@[simp] theorem grainedState_phase : (grainedState x s).phase = s.phase + s.delta := by
  simp [grainedState]

@[simp] theorem grainedState_delta : (grainedState x s).delta = s.delta := by
  simp [grainedState]

@[simp] theorem grainedState_pos : (grainedState x s).pos = s.pos := by
  simp [grainedState]

@[simp] theorem grainedState_fs : (grainedState x s).fs = s.fs := by
  simp [grainedState]

@[simp] theorem grainedState_cfg : (grainedState x s).cfg = s.cfg := by
  simp [grainedState]

@[simp] theorem grainedState_err : (grainedState x s).err = s.err := by
  simp [grainedState]

@[simp] theorem grainedState_cause : (grainedState x s).cause = s.cause := by
  simp [grainedState]

@[simp] theorem grainedState_commands : (grainedState x s).commands = s.commands := by
  simp [grainedState]

@[simp] theorem grainedState_responses : (grainedState x s).responses = s.responses := by
  simp [grainedState]

/-- A sample step in one piece (44_sample_step.md R160). -/
theorem sampleStep_eq : sampleStep x s =
    emitSample (trigFlag (s.phase + s.delta) s.delta) s.pos (grainedState x s) := by
  have hb : acuUpdate s.pos (s.writeX s.pos x) = blendedState x s := rfl
  simp only [sampleStep, phaseStep, hb, blendedState_phase, blendedState_delta, grainedState]

@[simp] theorem sampleStep_x : (sampleStep x s).x = s.x.set s.pos.toNat x s.pos.isLt := by
  rw [sampleStep_eq]
  simp [emitSample]

@[simp] theorem sampleStep_y : (sampleStep x s).y = (grainedState x s).y.set s.pos.toNat zeroWord s.pos.isLt := by
  rw [sampleStep_eq]
  simp [emitSample]

@[simp] theorem sampleStep_r : (sampleStep x s).r = (blendedState x s).r := by
  rw [sampleStep_eq]
  simp [emitSample]

@[simp] theorem sampleStep_w : (sampleStep x s).w = s.w := by
  rw [sampleStep_eq]
  simp [emitSample]

@[simp] theorem sampleStep_phase : (sampleStep x s).phase = s.phase + s.delta := by
  rw [sampleStep_eq]
  simp [emitSample]

@[simp] theorem sampleStep_delta : (sampleStep x s).delta = s.delta := by
  rw [sampleStep_eq]
  simp [emitSample]

@[simp] theorem sampleStep_pos : (sampleStep x s).pos = ringPlus s.pos 1 := by
  rw [sampleStep_eq]
  simp [emitSample]

@[simp] theorem sampleStep_fs : (sampleStep x s).fs = s.fs := by
  rw [sampleStep_eq]
  simp [emitSample]

@[simp] theorem sampleStep_cfg : (sampleStep x s).cfg = s.cfg := by
  rw [sampleStep_eq]
  simp [emitSample]

@[simp] theorem sampleStep_err : (sampleStep x s).err = s.err := by
  rw [sampleStep_eq]
  simp [emitSample]

@[simp] theorem sampleStep_cause : (sampleStep x s).cause = s.cause := by
  rw [sampleStep_eq]
  simp [emitSample]

@[simp] theorem sampleStep_commands : (sampleStep x s).commands = s.commands := by
  rw [sampleStep_eq]
  simp [emitSample]

@[simp] theorem sampleStep_responses : (sampleStep x s).responses = 
    s.responses ++ [responseWord s.err (trigFlag (s.phase + s.delta) s.delta) ((grainedState x s).readY s.pos)] := by
  rw [sampleStep_eq]
  simp [emitSample]

/-- A grain term reads `R` and `W` alone. -/
theorem offsetTerm_congr {t u : State} (hr : t.r = u.r) (hw : t.w = u.w) (j : Nat) : offsetTerm t j = offsetTerm u j := by
  simp only [offsetTerm, grainScale, State.readR, State.readW, hr, hw]

theorem offsetTerm_setPhase (t : State) (v : Word) (j : Nat) : offsetTerm (t.setPhase v) j = offsetTerm t j :=
  offsetTerm_congr (State.setPhase_r t v) (State.setPhase_w t v) j

/-- The slots before the readout: the anchor is untouched, and where the step triggers every other slot has gained its term
(43_overlap_add_synthesizer.md R144, 44_sample_step.md R162). -/
theorem grainedState_readY (j : Nat) (hj : j < 256) : (grainedState x s).readY (ringPlus s.pos j) =
    if j = 0 ∨ trigFlag (s.phase + s.delta) s.delta = false then s.readY (ringPlus s.pos j)
    else fadd (s.readY (ringPlus s.pos j)) (offsetTerm (blendedState x s) j) := by
  have hy : ∀ a, (blendedState x s).readY a = s.readY a := by
    intro a
    simp only [State.readY, blendedState_y]
  rw [grainedState]
  cases hb : trigFlag (s.phase + s.delta) s.delta with
  | false => simp [grainIf, hy]
  | true =>
    simp only [grainIf, if_true, olaGrain_readY _ _ _ hj, State.readY_setPhase, hy]
    by_cases h : j = 0
    · simp [h]
    · simp only [h, if_false, false_or, reduceCtorEq, offsetTerm_setPhase]

end SampleStep

section Grain

/-- The term at offset `j` from the anchor is the term at distance `j - 128` from the centre (43_overlap_add_synthesizer.md R144). -/
theorem offsetTerm_eq_grainValue (t : State) {j : Nat} (h0 : 1 ≤ j) (h1 : j < 256) :
    offsetTerm t j = grainValue t ((j : Int) - 128) := by
  have hw : (128 + ((j : Int) - 128)).toNat = j := by omega
  have hl : ((j : Int) - 128).natAbs = if j < 128 then 128 - j else j - 128 := by
    split_ifs <;> omega
  rw [offsetTerm, grainValue, hw, hl]

end Grain

section Steps

variable (s : State) (P : Config.Parameters) (command : Instr → State → StepOutcome)

/-- The machine's case split is the one at the default parameters (00_scope.md R7). -/
theorem exec_eq_execOver : exec = execOver defaultParameters := by
  funext i t
  cases i <;> rfl

theorem execute_eq_executeOver : execute = executeOver defaultParameters := by
  funext w t
  rw [execute, executeOver, exec_eq_execOver]

theorem step_eq_stepOver : step = stepOver defaultParameters := by
  funext t
  rw [step, stepOver, exec_eq_execOver]

theorem stepWith_idle (h : s.commands = []) : stepWith command s = .next s := by
  simp [stepWith, takeCommand, h]

theorem stepWith_command {w : CommandWord} {ws : List CommandWord} (h : s.commands = w :: ws) :
    stepWith command s = executeWith command w { s with commands := ws } := by
  simp [stepWith, takeCommand, h]

theorem executeWith_of_decode {w : CommandWord} {i : Instr} (h : decode w = .ok i) :
    executeWith command w s = command i s := by
  simp [executeWith, h]

theorem executeWith_of_illegal {w : CommandWord} {e : DecodeError} (h : decode w = .error e) :
    executeWith command w s = illegalCommand s := by
  simp [executeWith, h]

/-- Everything a step can do, over any parameters: wait, or execute the next word (30_encoding.md R70, R76). -/
theorem stepOver_cases : (s.commands = [] ∧ stepOver P s = .next s) ∨
    ∃ w ws, s.commands = w :: ws ∧ stepOver P s = executeOver P w { s with commands := ws } := by
  cases h : s.commands with
  | nil => exact .inl ⟨rfl, stepWith_idle s _ h⟩
  | cons w ws => exact .inr ⟨w, ws, rfl, stepWith_command s _ h⟩

theorem step_idle (h : s.commands = []) : step s = .next s := stepWith_idle s _ h

theorem step_command {w : CommandWord} {ws : List CommandWord} (h : s.commands = w :: ws) :
    step s = execute w { s with commands := ws } := stepWith_command s _ h

theorem execute_of_decode {w : CommandWord} {i : Instr} (h : decode w = .ok i) : execute w s = exec i s :=
  executeWith_of_decode s _ h

theorem execute_of_illegal {w : CommandWord} {e : DecodeError} (h : decode w = .error e) : execute w s = illegalCommand s :=
  executeWith_of_illegal s _ h

/-- The host's issuing `w` next is undone by the fetch. -/
theorem step_issueNext (w : CommandWord) : step (issueNext w s) = execute w s :=
  stepWith_command _ _ rfl

theorem afterCommands_nil : afterCommands [] s = .next { s with commands := [] } := rfl

end Steps

end Sys2Proof.Machine
end

