-- ==== Sys2Proof/Laws/PerInstr.lean ====
section
/-! SUPPORT. Facts about every instruction as syntax, one lemma for each constructor: the word of every command is legal in the sense of
`Execute`'s own formula (30_encoding.md R76), its opcode is the command's (30_encoding.md R72), and its reserved field is zero
(30_encoding.md R71). -/

namespace Sys2Proof.Laws.EncodesLegally

/-- The opcode of a command (30_encoding.md R72). -/
def opcode : Instr → BitVec 8
  | .reset _ => 0x01#8
  | .noteOn _ => 0x02#8
  | .sample _ => 0x03#8
  | .status => 0x04#8

/-- The word of the command is legal, carries its opcode, and has no bit of RSV set. -/
def Statement (i : Instr) : Prop :=
  CommandWord.legal (encode i) = true ∧ CommandWord.op (encode i) = opcode i ∧ CommandWord.rsv (encode i) = 0#24

/-- The three fields of a word put together from them. -/
theorem fields_commandWord (op : BitVec 8) (rsv : BitVec 24) (pay : Word) :
    CommandWord.op (commandWord op rsv pay) = op ∧ CommandWord.rsv (commandWord op rsv pay) = rsv ∧
      CommandWord.pay (commandWord op rsv pay) = pay := by
  refine ⟨?_, ?_, ?_⟩ <;>
  · apply BitVec.eq_of_getLsbD_eq
    intro i hi
    simp only [CommandWord.op, CommandWord.rsv, CommandWord.pay, commandWord, BitVec.getLsbD_extractLsb', BitVec.getLsbD_append]
    simp only [hi, decide_true, Bool.true_and, Nat.zero_add]
    split_ifs <;> first | rfl | omega | (congr 1; omega)

/-- The reserved payload bits of a NOTE_ON word. -/
theorem noteReserved_commandWord (op : BitVec 8) (rsv : BitVec 24) (n : Note) :
    CommandWord.noteReserved (commandWord op rsv (0#25 ++ n)) = 0#25 := by
  apply BitVec.eq_of_getLsbD_eq
  intro i hi
  simp only [CommandWord.noteReserved, commandWord, BitVec.getLsbD_extractLsb', BitVec.getLsbD_append, BitVec.getLsbD_zero]
  simp only [hi, decide_true, Bool.true_and]
  split_ifs <;> first | rfl | omega

theorem reset (fs : Word) : Statement (.reset fs) := by
  obtain ⟨h1, h2, _⟩ := fields_commandWord 0x01#8 0#24 fs
  exact ⟨by simp [CommandWord.legal, encode, h1, h2], h1, h2⟩

theorem noteOn (n : Note) : Statement (.noteOn n) := by
  obtain ⟨h1, h2, _⟩ := fields_commandWord 0x02#8 0#24 (0#25 ++ n)
  have h3 := noteReserved_commandWord 0x02#8 0#24 n
  exact ⟨by simp only [CommandWord.legal, encode, h1, h2, h3]; rfl, h1, h2⟩

theorem sample (x : Word) : Statement (.sample x) := by
  obtain ⟨h1, h2, _⟩ := fields_commandWord 0x03#8 0#24 x
  exact ⟨by simp [CommandWord.legal, encode, h1, h2], h1, h2⟩

theorem status : Statement .status := by
  refine ⟨?_, ?_, ?_⟩ <;> decide

end Sys2Proof.Laws.EncodesLegally
end

