-- ==== Sys2Proof/Laws/Rounding.lean ====
section
/-! SUPPORT. What rounding does, said once: `roundHalfEven` gives a nearest whole number with ties to even, `roundMagnitude` gives the
nearest binary32 magnitude with ties to even and overflows exactly at `2^128 - 2^103`, and `rootFloor` gives the floor of a root. -/

namespace Sys2Proof.Machine

/-- The units that the bits 30:0 of a pattern stand for, where they are below the infinity's. -/
def patternUnits (p : Nat) : Nat :=
  if p / 2 ^ 23 = 0 then p % 2 ^ 23 else (2 ^ 23 + p % 2 ^ 23) * 2 ^ (p / 2 ^ 23 - 1)

/-- The distance between two whole numbers. -/
def distance (a b : Nat) : Nat := (a - b) + (b - a)

/-- `2^128 - 2^103` in units: from here on a magnitude rounds to the infinity (00_scope.md R12). -/
def overflowUnits : Nat := (2 ^ 25 - 1) * 2 ^ 252

section HalfEven

variable {num den : Nat}

/-- `roundHalfEven` is the quotient or one more. -/
theorem roundHalfEven_bounds : num / den ≤ roundHalfEven num den ∧ roundHalfEven num den ≤ num / den + 1 := by
  simp only [roundHalfEven]
  split_ifs <;> omega

/-- `roundHalfEven` lies within half a step of the exact quotient, and a tie gives an even number. -/
theorem roundHalfEven_near (hd : 0 < den) :
    2 * distance num (roundHalfEven num den * den) ≤ den ∧
      (2 * distance num (roundHalfEven num den * den) = den → roundHalfEven num den % 2 = 0) := by
  have hdiv := Nat.div_add_mod num den
  have hlt := Nat.mod_lt num hd
  simp only [roundHalfEven, distance]
  generalize hq : num / den = q at *
  generalize hr : num % den = r at *
  have hmul : den * q = q * den := Nat.mul_comm _ _
  have hsucc : (q + 1) * den = q * den + den := by ring
  have hpar : q % 2 = 0 ∨ q % 2 = 1 := by omega
  split_ifs with h1 h2
  · omega
  · rw [hsucc]; omega
  · rcases hpar with h | h
    · rw [h, Nat.add_zero]; omega
    · rw [h, hsucc]; omega

/-- No whole number of steps is nearer than `roundHalfEven`, and one as near makes it even. -/
theorem roundHalfEven_nearest (hd : 0 < den) (j : Nat) :
    distance num (roundHalfEven num den * den) ≤ distance num (j * den) ∧
      (distance num (roundHalfEven num den * den) = distance num (j * den) → j ≠ roundHalfEven num den →
        roundHalfEven num den % 2 = 0) := by
  obtain ⟨hnear, htie⟩ := roundHalfEven_near (num := num) hd
  generalize roundHalfEven num den = m at *
  by_cases hj : j = m
  · subst hj; simp
  · have hgap : den ≤ distance (j * den) (m * den) := by
      simp only [distance]
      rcases Nat.lt_or_gt_of_ne hj with h | h
      · have := Nat.mul_le_mul_right den (Nat.succ_le_of_lt h)
        rw [Nat.succ_mul] at this
        omega
      · have := Nat.mul_le_mul_right den (Nat.succ_le_of_lt h)
        rw [Nat.succ_mul] at this
        omega
    simp only [distance] at *
    constructor
    · omega
    · intro heq _
      apply htie
      omega

end HalfEven

section Magnitude

/-- A pattern built from a step exponent and a whole number of steps stands for that many steps. -/
theorem patternUnits_steps {k m : Nat} (hm : m ≤ 2 ^ 24) (hk : k = 0 ∨ 2 ^ 23 ≤ m) :
    patternUnits (k * 2 ^ 23 + m) = m * 2 ^ k := by
  rcases Nat.lt_or_ge m (2 ^ 23) with h | h
  · have : k = 0 := by omega
    subst this
    simp only [patternUnits]
    rw [if_pos (by omega)]
    omega
  · rcases Nat.lt_or_ge m (2 ^ 24) with h' | h'
    · have e1 : (k * 2 ^ 23 + m) / 2 ^ 23 = k + 1 := by omega
      have e2 : (k * 2 ^ 23 + m) % 2 ^ 23 = m - 2 ^ 23 := by omega
      simp only [patternUnits, e1, e2]
      rw [if_neg (by omega), Nat.add_sub_cancel, Nat.add_sub_cancel' h]
    · have hm' : m = 2 ^ 24 := by omega
      subst hm'
      have e1 : (k * 2 ^ 23 + 2 ^ 24) / 2 ^ 23 = k + 2 := by omega
      have e2 : (k * 2 ^ 23 + 2 ^ 24) % 2 ^ 23 = 0 := by omega
      simp only [patternUnits, e1, e2]
      rw [if_neg (by omega), show k + 2 - 1 = k + 1 from rfl, Nat.pow_succ]
      omega

/-- Every magnitude is a whole number of steps of `2^k` units, or lies below `2^(k+23)` units. -/
theorem patternUnits_grid (p k : Nat) : (∃ j, patternUnits p = j * 2 ^ k) ∨ (0 < k ∧ patternUnits p < 2 ^ (k + 23)) := by
  rcases Nat.eq_zero_or_pos k with rfl | hk
  · exact .inl ⟨_, (Nat.mul_one _).symm⟩
  · have hf : p % 2 ^ 23 < 2 ^ 23 := Nat.mod_lt _ (by norm_num)
    simp only [patternUnits]
    split_ifs with h
    · exact .inr ⟨hk, lt_of_lt_of_le hf (Nat.pow_le_pow_right (by norm_num) (by omega))⟩
    · rcases Nat.lt_or_ge (p / 2 ^ 23 - 1) k with hlt | hge
      · right
        refine ⟨hk, ?_⟩
        calc (2 ^ 23 + p % 2 ^ 23) * 2 ^ (p / 2 ^ 23 - 1)
            < 2 ^ 24 * 2 ^ (p / 2 ^ 23 - 1) := Nat.mul_lt_mul_of_pos_right (by omega) (by positivity)
          _ = 2 ^ (24 + (p / 2 ^ 23 - 1)) := (Nat.pow_add _ _ _).symm
          _ ≤ 2 ^ (k + 23) := Nat.pow_le_pow_right (by norm_num) (by omega)
      · left
        refine ⟨(2 ^ 23 + p % 2 ^ 23) * 2 ^ (p / 2 ^ 23 - 1 - k), ?_⟩
        rw [Nat.mul_assoc, ← Nat.pow_add]
        congr 2
        omega

variable {num den : Nat}

/-- The step exponent of `roundMagnitude`, and where the quotient lies. -/
theorem step_exponent (num den : Nat) :
    (Nat.log2 (num / den) - 23 = 0 ∧ num / den < 2 ^ 24) ∨
      (0 < Nat.log2 (num / den) - 23 ∧ 2 ^ (Nat.log2 (num / den) - 23 + 23) ≤ num / den ∧
        num / den < 2 ^ (Nat.log2 (num / den) - 23 + 24)) := by
  have hlt : num / den < 2 ^ (Nat.log2 (num / den) + 1) := Nat.lt_log2_self
  rcases Nat.lt_or_ge (Nat.log2 (num / den)) 24 with h | h
  · left
    exact ⟨by omega, lt_of_lt_of_le hlt (Nat.pow_le_pow_right (by norm_num) (by omega))⟩
  · right
    have hne : num / den ≠ 0 := by
      intro h0
      rw [h0] at h
      simp at h
    have hle : 2 ^ Nat.log2 (num / den) ≤ num / den := Nat.log2_self_le hne
    refine ⟨by omega, ?_, ?_⟩
    · rwa [show Nat.log2 (num / den) - 23 + 23 = Nat.log2 (num / den) by omega]
    · rwa [show Nat.log2 (num / den) - 23 + 24 = Nat.log2 (num / den) + 1 by omega]

/-- The whole number of steps that `roundMagnitude` rounds to. -/
theorem step_count (num den : Nat) :
    roundHalfEven num (den * 2 ^ (Nat.log2 (num / den) - 23)) ≤ 2 ^ 24 ∧
      (Nat.log2 (num / den) - 23 = 0 ∨ 2 ^ 23 ≤ roundHalfEven num (den * 2 ^ (Nat.log2 (num / den) - 23))) := by
  have hb := roundHalfEven_bounds (num := num) (den := den * 2 ^ (Nat.log2 (num / den) - 23))
  rw [← Nat.div_div_eq_div_mul] at hb
  have hk := step_exponent num den
  generalize Nat.log2 (num / den) - 23 = k at *
  generalize num / den = I at *
  rcases hk with ⟨rfl, h⟩ | ⟨h0, h1, h2⟩
  · simp only [pow_zero, Nat.div_one] at hb ⊢
    constructor
    · omega
    · simp
  · have hpos : 0 < 2 ^ k := by positivity
    have hlow : 2 ^ 23 ≤ I / 2 ^ k := by
      rw [Nat.le_div_iff_mul_le hpos, ← Nat.pow_add, Nat.add_comm]
      exact h1
    have hhigh : I / 2 ^ k < 2 ^ 24 := by
      rw [Nat.div_lt_iff_lt_mul hpos, ← Nat.pow_add, Nat.add_comm]
      exact h2
    constructor
    · omega
    · right; omega

/-- Where it does not overflow, `roundMagnitude` is nearest: no magnitude is nearer to `num / den` units, and one as near with another
pattern makes its own pattern even. -/
theorem roundMagnitude_nearest (hd : 0 < den) (hfin : roundMagnitude num den < infinityMagnitude) (p : Nat) :
    distance num (patternUnits (roundMagnitude num den) * den) ≤ distance num (patternUnits p * den) ∧
      (distance num (patternUnits (roundMagnitude num den) * den) = distance num (patternUnits p * den) →
        patternUnits p ≠ patternUnits (roundMagnitude num den) → roundMagnitude num den % 2 = 0) := by
  have hform : roundMagnitude num den = (Nat.log2 (num / den) - 23) * 2 ^ 23 +
      roundHalfEven num (den * 2 ^ (Nat.log2 (num / den) - 23)) := by
    simp only [roundMagnitude] at hfin ⊢
    omega
  obtain ⟨hm, hk'⟩ := step_count num den
  have hk := step_exponent num den
  rw [hform, patternUnits_steps hm hk']
  have hB : 0 < den * 2 ^ (Nat.log2 (num / den) - 23) := by positivity
  have hnear := roundHalfEven_nearest (num := num) hB
  generalize hkk : Nat.log2 (num / den) - 23 = k at *
  generalize hmm : roundHalfEven num (den * 2 ^ k) = m at *
  have hmB : m * (den * 2 ^ k) = m * 2 ^ k * den := by ring
  have hparity : (k * 2 ^ 23 + m) % 2 = m % 2 := by omega
  rw [hparity]
  rcases patternUnits_grid p k with ⟨j, hj⟩ | ⟨hk0, hlt⟩
  · have hjB : j * (den * 2 ^ k) = j * 2 ^ k * den := by ring
    obtain ⟨h1, h2⟩ := hnear j
    rw [hmB, hjB] at h1 h2
    rw [hj]
    exact ⟨h1, fun he hne => h2 he (fun hjm => hne (by rw [hjm]))⟩
  · rcases hk with ⟨h0, _⟩ | ⟨_, hge, _⟩
    · omega
    obtain ⟨h1, -⟩ := hnear (2 ^ 23)
    have hjB : 2 ^ 23 * (den * 2 ^ k) = 2 ^ (k + 23) * den := by rw [Nat.pow_add]; ring
    rw [hmB, hjB] at h1
    have hN : 2 ^ (k + 23) * den ≤ num := le_trans (Nat.mul_le_mul_right den hge) (Nat.div_mul_le_self num den)
    have hv : patternUnits p * den < 2 ^ (k + 23) * den := Nat.mul_lt_mul_of_pos_right hlt hd
    simp only [distance] at *
    constructor
    · omega
    · intro he
      omega

/-- `roundMagnitude` never passes the infinity's pattern. -/
theorem roundMagnitude_le : roundMagnitude num den ≤ infinityMagnitude := Nat.min_le_left _ _

/-- In the last binade, rounding up to `2^24` steps `B` happens exactly from half a step `C` below it. -/
theorem last_step {num B C m : Nat} (hBC : B = 2 * C) (hC : 0 < C) (hm : m ≤ 2 ^ 24)
    (hnear : 2 * distance num (m * B) ≤ B ∧ (2 * distance num (m * B) = B → m % 2 = 0)) :
    m = 2 ^ 24 ↔ (2 ^ 24 - 1) * B + C ≤ num := by
  simp only [distance] at hnear
  constructor
  · rintro rfl
    omega
  · intro hge
    by_contra hne
    have hmB : m * B ≤ (2 ^ 24 - 1) * B := Nat.mul_le_mul_right B (by omega)
    have hmB' : m * B = (2 ^ 24 - 1) * B := by omega
    have hmeq : m = 2 ^ 24 - 1 := Nat.eq_of_mul_eq_mul_right (by omega) hmB'
    have := hnear.2 (by omega)
    omega

/-- Overflow happens exactly from `2^128 - 2^103` on (00_scope.md R12). -/
theorem roundMagnitude_overflow (hd : 0 < den) :
    roundMagnitude num den = infinityMagnitude ↔ overflowUnits * den ≤ num := by
  obtain ⟨hm, hk'⟩ := step_count num den
  have hk := step_exponent num den
  have hdiv : overflowUnits * den ≤ num ↔ overflowUnits ≤ num / den := (Nat.le_div_iff_mul_le hd).symm
  have hform : roundMagnitude num den = infinityMagnitude ↔ infinityMagnitude ≤ (Nat.log2 (num / den) - 23) * 2 ^ 23 +
      roundHalfEven num (den * 2 ^ (Nat.log2 (num / den) - 23)) := by
    simp only [roundMagnitude]
    omega
  rw [hform]
  have hB : 0 < den * 2 ^ (Nat.log2 (num / den) - 23) := by positivity
  have hnear := roundHalfEven_near (num := num) hB
  have hbounds := roundHalfEven_bounds (num := num) (den := den * 2 ^ (Nat.log2 (num / den) - 23))
  generalize hkk : Nat.log2 (num / den) - 23 = k at *
  generalize hmm : roundHalfEven num (den * 2 ^ k) = m at *
  rcases Nat.lt_trichotomy k 253 with hlt | heq | hgt
  · have hsmall : num / den < 2 ^ (24 + 252) := by
      rcases hk with ⟨_, h⟩ | ⟨_, _, h⟩
      · exact lt_of_lt_of_le h (Nat.pow_le_pow_right Nat.two_pos (by omega))
      · exact lt_of_lt_of_le h (Nat.pow_le_pow_right Nat.two_pos (by omega))
    have hbig : 2 ^ (24 + 252) ≤ overflowUnits := by
      rw [Nat.pow_add]
      exact Nat.mul_le_mul_right _ (by norm_num)
    have hbelow : num / den < overflowUnits := lt_of_lt_of_le hsmall hbig
    clear hsmall hbig
    rw [hdiv]
    simp only [infinityMagnitude]
    constructor <;> intro h <;> omega
  · subst heq
    have hgoal : infinityMagnitude ≤ 253 * 2 ^ 23 + m ↔ m = 2 ^ 24 := by
      simp only [infinityMagnitude]; omega
    rw [hgoal]
    rcases hk with ⟨h, _⟩ | ⟨_, h1, h2⟩
    · omega
    have hdouble : den * 2 ^ 253 = 2 * (den * 2 ^ 252) := by rw [Nat.pow_succ]; ring
    have hT : overflowUnits * den = (2 ^ 24 - 1) * (den * 2 ^ 253) + den * 2 ^ 252 := by
      rw [hdouble, overflowUnits, Nat.mul_assoc, Nat.mul_comm (2 ^ 252) den]
      generalize den * 2 ^ 252 = C
      omega
    rw [hT]
    exact last_step hdouble (by positivity) hm hnear
  · rw [hdiv]
    rcases hk with ⟨h, _⟩ | ⟨_, h1, _⟩
    · omega
    have hm' : 2 ^ 23 ≤ m := by omega
    have hbig : overflowUnits ≤ 2 ^ 277 := by
      rw [show 277 = 25 + 252 from rfl, Nat.pow_add]
      exact Nat.mul_le_mul_right _ (by norm_num)
    have : 2 ^ 277 ≤ num / den := le_trans (Nat.pow_le_pow_right (by norm_num) (by omega)) h1
    simp only [infinityMagnitude]
    constructor <;> intro h <;> omega

end Magnitude

section Root

/-- `rootFloor` keeps its lower bound and stays below the next candidate, where the root of `v` is below `acc + 2^bits`. -/
theorem rootFloor_between {k v : Nat} :
    ∀ (bits acc : Nat), acc ^ k ≤ v → v < (acc + 2 ^ bits) ^ k →
      rootFloor k v bits acc ^ k ≤ v ∧ v < (rootFloor k v bits acc + 1) ^ k
  | 0, acc, hlo, hhi => by simpa [rootFloor] using And.intro hlo hhi
  | b + 1, acc, hlo, hhi => by
    simp only [rootFloor]
    split_ifs with h
    · refine rootFloor_between b _ h ?_
      rwa [Nat.add_assoc, ← Nat.two_mul, Nat.mul_comm, ← Nat.pow_succ]
    · exact rootFloor_between b _ hlo (Nat.lt_of_not_le h)

end Root

end Sys2Proof.Machine
end

