-- ==== Sys2Proof/Tests/Slice0.lean ====
section
/-! SUPPORT. The model's own tests: command words written out from the encoding, the smoke test of well-formedness, single steps whose
results are the spec's, and for every statement with hypotheses a witness that meets them together. -/

namespace Sys2Proof.Tests.Slice0

open Sys2Proof Sys2Proof.Machine

section Helpers

/-- A configured block at 1760 Hz, one trigger every 8 samples: the state after RESET 1760 (95_test_vectors.md ST2). -/
def configured : State := { State.reset with cfg := true, fs := 1760#32, delta := 0x20000000#32 }

/-- The same block just before a trigger. -/
def beforeTrigger : State := { configured with phase := 0xE0000000#32 }

/-- A block that took NOT_CONFIGURED at power-on (95_test_vectors.md FA1). -/
def faulted : State := raiseFault .notConfigured State.reset

/-- A build with other parameters: the same `DELTA` for every note, and a window of zeros. -/
def flatParameters : Config.Parameters where
  deltaOf _ _ := 5
  deltaOf_pos _ _ _ _ _ := by decide
  windowRom := Vector.replicate Config.nwin zeroWord

/-- The state an outcome goes on in, `s` where it stops. -/
def after (o : StepOutcome) (s : State) : State :=
  match o with
  | .next t => t
  | .fault _ => s
  | .refused _ => s

end Helpers

section WellFormed

/-! One ill-formed word for each check of 30_encoding.md R76 and R77, from 95_test_vectors.md 2.9, and legal words beside them. -/

theorem test_legal_reset : CommandWord.legal 0x01000000FFFFFFFF#64 = true := by decide
theorem test_legal_noteOn : CommandWord.legal 0x020000000000007F#64 = true := by decide
theorem test_legal_sample : CommandWord.legal 0x03000000FFFFFFFF#64 = true := by decide
theorem test_legal_status : CommandWord.legal 0x0400000000000000#64 = true := by decide
theorem test_illegal_reset_rsv : CommandWord.legal 0x01FFFFFF00000000#64 = false := by decide
theorem test_illegal_noteOn_rsv : CommandWord.legal 0x0200000100000045#64 = false := by decide
theorem test_illegal_noteOn_pay7 : CommandWord.legal 0x0200000000000080#64 = false := by decide
theorem test_illegal_noteOn_pay31 : CommandWord.legal 0x0200000080000000#64 = false := by decide
theorem test_illegal_sample_rsv : CommandWord.legal 0x0300800000000000#64 = false := by decide
theorem test_illegal_status_pay : CommandWord.legal 0x0400000000000100#64 = false := by decide
theorem test_illegal_status_rsv : CommandWord.legal 0x0400000100000000#64 = false := by decide
theorem test_illegal_op_zero : CommandWord.legal 0x0000000000000000#64 = false := by decide
theorem test_illegal_op_five : CommandWord.legal 0x0500000000000000#64 = false := by decide
theorem test_illegal_op_ff : CommandWord.legal 0xFF00000000000000#64 = false := by decide

end WellFormed

section Decoding

/-! Words of every command, written out from 30_encoding.md R71 to R73 and R79. -/

theorem test_decode_reset : decode 0x01000000000006E0#64 = .ok (.reset 1760#32) := by decide
theorem test_decode_noteOn : decode 0x0200000000000045#64 = .ok (.noteOn 69#7) := by decide
theorem test_decode_sample : decode 0x030000003F800000#64 = .ok (.sample 0x3F800000#32) := by decide
theorem test_decode_status : decode 0x0400000000000000#64 = .ok .status := by decide
theorem test_decode_rejects_opcode : decode 0x0600000000000000#64 = .error (.illegalOpcode 0x06#8) := by decide
theorem test_decode_rejects_rsv : decode 0x01000001000006E0#64 = .error (.reservedBits 0x01#8) := by decide
theorem test_decode_rejects_note128 : decode 0x0200000000000080#64 = .error (.reservedPayload 0x02#8) := by decide
theorem test_encode_reset : encode (.reset 44100#32) = 0x010000000000AC44#64 := by decide
theorem test_encode_noteOn : encode (.noteOn 127#7) = 0x020000000000007F#64 := by decide
theorem test_encode_sample : encode (.sample 0xBF800000#32) = 0x03000000BF800000#64 := by decide
theorem test_encode_status : encode .status = 0x0400000000000000#64 := by decide
theorem test_bytes_least_first : wordBytes 0x0200000000000045#64 = [0x45#8, 0#8, 0#8, 0#8, 0#8, 0#8, 0#8, 0x02#8] := by decide
theorem test_short_command : decodeBytes [0x45#8, 0#8] = .error .shortCommand := by decide
theorem test_table_word_noteOn : decodeTableWord 64 0x0200000000000045 = some (.noteOn 69#7) := by decide
theorem test_table_word_illegal : decodeTableWord 64 0x0200000000000080 = none := by decide
theorem test_assemble_decimal : assembleText "SAMPLE -1.5 ; comment".toList = some [0x03000000BFC00000#64] := by decide
theorem test_assemble_raw : assembleText ".word64 0x0300_0001_0000_0000".toList = some [0x0300000100000000#64] := by decide
theorem test_assemble_refuses_note : assembleText "NOTE_ON 128".toList = none := by decide

end Decoding

section SingleSteps

/-- 95_test_vectors.md RS1. -/
theorem test_reset_44100 : (after (exec (.reset 44100#32) State.reset) State.reset).delta = 0x0146EFDC#32 := by decide +kernel

/-- 95_test_vectors.md RS3: 220 Hz is out of range. -/
theorem test_reset_220 : (after (exec (.reset 220#32) State.reset) State.reset).cause = 4#4 := by decide +kernel

/-- 95_test_vectors.md NT9. -/
theorem test_noteOn_92 : (after (exec (.noteOn 92#7) configured) configured).delta = 0xF1A1BF38#32 := by decide +kernel

/-- 95_test_vectors.md NT10: 1760 Hz at 1760 Hz is out of range, and `DELTA` is left unchanged. -/
theorem test_noteOn_93 : (after (exec (.noteOn 93#7) configured) configured).delta = 0x20000000#32 := by decide +kernel

/-- 95_test_vectors.md AC5: lag 1 blends the previous sample. -/
theorem test_sample_lag1 :
    (sampleStep 0x3F800000#32 ((configured.writeR 1#7 0x3F000000#32).writeX 255#8 0x3F800000#32)).readR 1#7 =
      0x3F0051EC#32 := by decide +kernel

/-- 95_test_vectors.md SA2: the trigger slot is emitted as it was, with `TRIG` set. -/
theorem test_sample_emits_before_grain :
    (after (exec (.sample 0#32) (beforeTrigger.writeY 0#8 0x3E800000#32)) beforeTrigger).responses =
      [0x000000013E800000#64] := by decide +kernel

/-- 95_test_vectors.md ST5: STATUS of a faulted block. -/
theorem test_status_faulted :
    (after (exec .status { configured with pos := 3#8, err := true, cause := 1#4 }) configured).responses =
      [0x0000000200000313#64] := by decide +kernel

/-- 95_test_vectors.md FA7: a faulted block ignores RESET. -/
theorem test_faulted_ignores_reset :
    (after (exec (.reset 1760#32) faulted) faulted).responses = [0x0000000200000000#64, 0x0000000200000000#64] := by
  decide +kernel

/-- 95_test_vectors.md OL2: the centre of a grain. -/
theorem test_grain_centre : (olaGrain 0#8 (configured.writeR 0#7 0x3F800000#32)).readY 128#8 = 0x3F7FE006#32 := by decide +kernel

/-- 95_test_vectors.md OL9: a lag lands on both sides of the centre. -/
theorem test_grain_side :
    (olaGrain 10#8 ((configured.writeR 0#7 0x40800000#32).writeR 1#7 0xC0000000#32)).readY 139#8 = 0xBF7FEE22#32 := by
  decide +kernel

/-- 95_test_vectors.md PH1. -/
theorem test_phase_wraps :
    (phaseStep { configured with phase := 0xFFFFFFFF#32, delta := 1#32 }).2 = true := by decide

/-- 95_test_vectors.md AC11 and AC12: the largest finite energy, and the first overflow (`fmul(fmul(CW, x), x)`). -/
theorem test_energy_overflow :
    fmul (fmul weightWord 0x61A00000#32) 0x61A00000#32 = 0x7F7FFFFF#32 ∧
      fmul (fmul weightWord 0x61A00001#32) 0x61A00001#32 = 0x7F800000#32 := by decide +kernel

/-- 43_overlap_add_synthesizer.md R141: the scale at `R[0] = 2^-10`. -/
theorem test_scale : fdiv oneWord (fsqrt (fadd 0x3A800000#32 epsilonWord)) = 0x41B504F3#32 := by decide +kernel

/-- A word placed where the next step fetches is the one it runs. -/
theorem test_fetch_word : step (State.reset.withFetchWord 64 0x0100000000000000) = exec (.reset 0#32) State.reset := rfl

/-- 00_scope.md R7: a step of another build stores the `DELTA` its own `DELTA_OF` gives. -/
theorem test_step_other_parameters :
    (after (stepOver flatParameters (issueNext 0x0200000000000045#64 configured)) configured).delta = 5#32 := by decide +kernel

end SingleSteps

section Witnesses

/-! For each statement with hypotheses, in the order of OBLIGATIONS.json, a concrete instance that meets them together. -/

theorem witness_DecodeEncodeAgree : decode 0x02000000_00000045#64 = .ok (.noteOn 69#7) := by decide

theorem witness_IllegalWordsRaiseIllegalCommand :
    (CommandWord.legal 0x0500000000000000#64 = false ∧ configured.err = false) ∧
      (CommandWord.legal 0x0200000000000080#64 = false ∧ faulted.err = true) := by decide

theorem witness_ByteLinkCarriesWords : (List.replicate 8 0x45#8).length = 8 ∧ 7 < 8 := by decide

theorem witness_AssemblerFollowsTheSyntax :
    (-15 : Int) ≠ 0 ∧ assemble (.sampleDecimal (-15) 1) = some [0x03000000BFC00000#64] := by decide

theorem witness_StepRunsTheDecodedCommand :
    (issueNext 0x0400000000000000#64 configured).commands = 0x0400000000000000#64 :: [] ∧
      decode 0x0400000000000000#64 = .ok .status := by decide

theorem witness_StepRunsTheDecodedCommand_illegal :
    (issueNext 0#64 configured).commands = 0#64 :: [] ∧ (issueNext 0#64 faulted).commands = 0#64 :: [] ∧
      decode 0#64 = .error (.illegalOpcode 0#8) ∧ configured.err = false ∧ faulted.err = true := by decide

theorem witness_StepWaitsForACommand : configured.commands = [] := by decide

theorem witness_ResponseWordFields_sample :
    decode 0x0300000000000000#64 = .ok (.sample 0#32) ∧ (∃ t, execute 0x0300000000000000#64 configured = .next t ∧ t.err = false) :=
  ⟨by decide, _, rfl, by decide +kernel⟩

theorem witness_ResponseWordFields_status :
    decode 0x0400000000000000#64 = .ok .status ∧ ∃ t, execute 0x0400000000000000#64 configured = .next t :=
  ⟨by decide, _, rfl⟩

theorem witness_ResponseWordFields_other :
    (∀ x, decode 0x0100000000000000#64 ≠ .ok (.sample x)) ∧ decode 0x0100000000000000#64 ≠ .ok .status ∧
      ∃ t, execute 0x0100000000000000#64 configured = .next t := by
  have h : decode 0x0100000000000000#64 = .ok (.reset 0#32) := by decide
  exact ⟨by simp [h], by simp [h], _, rfl⟩

theorem witness_PowerOnValues : faulted.err = true ∧ ∃ t, step faulted = .next t := ⟨by decide, _, rfl⟩

theorem witness_ResetLeavesWarmResetValues :
    State.reset.err = false ∧ 221 ≤ (221#32).toNat ∧ State.reset.cause = 0#4 := by decide

theorem witness_ResetRateRange :
    configured.err = false ∧ (1 ≤ (1#32).toNat ∧ (1#32).toNat ≤ 220) ∧ (1 ≤ (220#32).toNat ∧ (220#32).toNat ≤ 220) ∧
      221 ≤ (221#32).toNat := by decide

theorem witness_ResetForgetsThePast :
    configured.err = false ∧ State.reset.err = false ∧ configured.w = State.reset.w ∧ configured.cause = State.reset.cause ∧
      221 ≤ (1760#32).toNat := ⟨rfl, rfl, rfl, rfl, by decide⟩

theorem witness_FaultChangesOnlyErrAndCause :
    configured.err = false ∧ ∃ t, execute 0x0000000000000000#64 configured = .next t ∧ t.err = true :=
  ⟨rfl, _, rfl, by decide⟩

theorem witness_FirstFailedCheckIsRaised_illegal :
    firstFailedCheck 0x02000000000000C8#64 State.reset = some .illegalCommand ∧
      ∃ t, execute 0x02000000000000C8#64 State.reset = .next t := ⟨by decide, _, rfl⟩

theorem witness_FirstFailedCheckIsRaised_notConfigured :
    firstFailedCheck 0x0200000000000045#64 State.reset = some .notConfigured ∧
      firstFailedCheck 0x0300000000000000#64 State.reset = some .notConfigured := by decide

theorem witness_FirstFailedCheckIsRaised_badRate :
    firstFailedCheck 0x0100000000000000#64 State.reset = some .badRate := by decide

theorem witness_FirstFailedCheckIsRaised_deltaRange :
    firstFailedCheck 0x01000000000000DC#64 State.reset = some .deltaRange ∧
      firstFailedCheck 0x020000000000005D#64 configured = some .deltaRange := by decide +kernel

theorem witness_FirstFailedCheckIsRaised_none :
    firstFailedCheck 0x01000000000000DD#64 State.reset = none ∧ firstFailedCheck 0x020000000000005C#64 configured = none := by
  decide +kernel

theorem witness_FaultedBlockIgnoresCommands : faulted.err = true := by decide

theorem witness_FaultIsSticky_kept : faulted.err = true ∧ ∃ t, step faulted = .next t := ⟨by decide, _, rfl⟩

theorem witness_FaultIsSticky_first :
    State.reset.err = false ∧
      ∃ t, step (issueNext 0x0300000000000000#64 State.reset) = .next t ∧ t.err = true ∧ t.cause ≠ State.reset.cause :=
  ⟨rfl, _, rfl, by decide, by decide⟩

theorem witness_StateWriteTable_faulted : faulted.err = true ∧ ∃ t, execute 0x0100000000000000#64 faulted = .next t :=
  ⟨by decide, _, rfl⟩

theorem witness_StateWriteTable_faults :
    configured.err = false ∧ ∃ t, execute 0x0100000000000000#64 configured = .next t ∧ t.err = true :=
  ⟨rfl, _, rfl, by decide⟩

theorem witness_StateWriteTable_runs :
    configured.err = false ∧ (∃ t, execute 0x01000000000006E0#64 configured = .next t ∧ t.err = false) ∧
      (∃ t, execute 0x0200000000000045#64 configured = .next t ∧ t.err = false) ∧
      (∃ t, execute 0x0300000000000000#64 configured = .next t ∧ t.err = false) ∧
      (∃ t, execute 0x0400000000000000#64 configured = .next t ∧ t.err = false) ∧
      configured.phase.toNat + configured.delta.toNat < 2 ^ 32 :=
  ⟨rfl, ⟨_, rfl, by decide +kernel⟩, ⟨_, rfl, by decide +kernel⟩, ⟨_, rfl, by decide +kernel⟩, ⟨_, rfl, by decide +kernel⟩,
    by decide⟩

theorem witness_NoteOnWritesDelta :
    (State.reset.err = false ∧ State.reset.cfg = false) ∧
      (configured.err = false ∧ configured.cfg = true ∧ 2 ^ 32 ≤ defaultDeltaOf configured.fs.toNat (93#7).toNat) ∧
      defaultDeltaOf configured.fs.toNat (92#7).toNat < 2 ^ 32 := by decide +kernel

theorem witness_LastPitchHintWins :
    configured.err = false ∧ configured.cfg = true ∧
      ∀ n ∈ [57#7, 69#7] ++ [81#7], defaultDeltaOf configured.fs.toNat (BitVec.toNat n) < 2 ^ 32 := by decide +kernel

theorem witness_DeltaOfIsTheExactFloor : 1 ≤ 44100 ∧ 69 ≤ 127 := by decide

theorem witness_DeltaOfRange : 1 ≤ 4294967295 ∧ 4294967295 < 2 ^ 32 ∧ 127 ≤ 127 := by decide

theorem witness_PhaseStepTriggersOnCarry :
    beforeTrigger.phase.toNat + beforeTrigger.delta.toNat = 2 ^ 32 ∧
      ({ configured with delta := 0xFFFFFFFF#32 } : State).delta = 0xFFFFFFFF#32 ∧
      ({ configured with delta := 0#32 } : State).delta = 0#32 := by decide

theorem witness_TriggersFollowThePhase :
    configured.err = false ∧ configured.cfg = true ∧ 1 ≤ configured.delta.toNat ∧ configured.phase = 0#32 ∧
      configured.delta.toNat * 8 = 2 ^ 32 := by decide

theorem witness_SampleRunsOneSampleStep : configured.err = false ∧ configured.cfg = true := by decide

theorem witness_SampleBeforeResetFaults : State.reset.err = false ∧ State.reset.cfg = false := by decide

theorem witness_PosCountsSamples :
    configured.err = false ∧ configured.cfg = true ∧ 221 ≤ (221#32).toNat ∧ (List.replicate 256 0#32).length = 256 :=
  ⟨rfl, rfl, by decide, List.length_replicate⟩

theorem witness_GrainIsHeardAtItsOffset :
    beforeTrigger.err = false ∧ beforeTrigger.cfg = true ∧ 2 ^ 32 ≤ beforeTrigger.phase.toNat + beforeTrigger.delta.toNat ∧
      1 ≤ [0#32].length ∧ [0#32].length ≤ 255 ∧
      (beforeTrigger.phase + beforeTrigger.delta).toNat + ([0#32].length - 1) * beforeTrigger.delta.toNat < 2 ^ 32 := by decide

theorem witness_GrainIsHeardAtItsOffset_last :
    2 ^ 32 ≤ ({ configured with phase := 0xFFFFFFFF#32, delta := 8#32 } : State).phase.toNat + 8 ∧
      (List.replicate 255 0#32).length = 255 ∧ (0xFFFFFFFF#32 + 8#32).toNat + (255 - 1) * 8 < 2 ^ 32 :=
  ⟨by decide, List.length_replicate, by decide⟩

theorem witness_DeadInputHistoryIsNeverRead :
    sameButDeadInput configured configured ∧ ∃ t, execute 0x0300000000000000#64 configured = .next t :=
  ⟨⟨rfl, fun _ _ _ => rfl⟩, _, rfl⟩

theorem witness_LagUpdatesAreIndependent : 127 ≤ 127 ∧ (List.range 128).Perm (List.range 128) := ⟨by decide, List.Perm.refl _⟩

theorem witness_EnergyIsNeverNegative :
    State.reset.err = false ∧ 221 ≤ (1760#32).toNat ∧ (∀ g : Word, Instr.reset g ∉ [Instr.status]) ∧
      ∃ t, afterCommands (encode (.reset 1760#32) :: [Instr.status].map encode) State.reset = .next t ∧ t.err = false :=
  ⟨rfl, by decide, by simp, _, rfl, by decide +kernel⟩

theorem witness_EnergyIsNeverNegative_kept :
    isEnergy (configured.readR 0#7) ∧ ∃ t, step (issueNext 0x0400000000000000#64 configured) = .next t :=
  ⟨by decide +kernel, _, rfl⟩

theorem witness_SilenceOnlyDecays :
    configured.err = false ∧ configured.cfg = true ∧ (∀ a, isFinite (configured.readX a)) ∧
      (∀ L, isClean (configured.readR L)) ∧ ∃ t, exec (.sample 0x80000000#32) configured = .next t :=
  ⟨rfl, rfl, by decide +kernel, by decide +kernel, _, rfl⟩

theorem witness_DecayStopsAtTheResidue : 1 ≤ 200 ∧ isFinite 0x000000C9#32 ∧ 200 < magnitudeBits 0x000000C9#32 := by decide +kernel

theorem witness_BoundedInputsKeepProfileFinite :
    configured.err = false ∧ configured.cfg = true ∧ magnitudeBits 0xD8800000#32 ≤ 0x58800000 ∧
      (∀ a, magnitudeBits (configured.readX a) ≤ 0x58800000) ∧ (∀ L, magnitudeBits (configured.readR L) < 0x72000000) ∧
      ∃ t, exec (.sample 0xD8800000#32) configured = .next t :=
  ⟨rfl, rfl, by decide +kernel, by decide +kernel, by decide +kernel, _, rfl⟩

theorem witness_GrainFootprint :
    (-127 : Int) ≤ -127 ∧ (127 : Int) ≤ 127 ∧ (List.range' 1 255).Perm (List.range' 1 255) :=
  ⟨by decide, by decide, List.Perm.refl _⟩

theorem witness_GrainIsAPalindrome : configured.w = defaultWindowRom := rfl

theorem witness_GrainScaleValues :
    configured.readR 0#7 = 0x00000000#32 ∧ (configured.writeR 0#7 0x3F800000#32).readR 0#7 = 0x3F800000#32 ∧
      (configured.writeR 0#7 0x40800000#32).readR 0#7 = 0x40800000#32 ∧
      (configured.writeR 0#7 0x3A800000#32).readR 0#7 = 0x3A800000#32 := by decide +kernel

theorem witness_GrainScaleIsBounded : ((configured.writeR 0#7 0x7F7FFFFF#32).readR 0#7).toNat ≤ 0x7F7FFFFF := by decide +kernel

theorem witness_SilentGrainChangesNothing :
    configured.w = defaultWindowRom ∧ (∀ L, configured.readR L = 0x00000000#32) ∧ ∀ a, isClean (configured.readY a) :=
  ⟨rfl, by decide +kernel, by decide +kernel⟩

theorem witness_NaNAndInfiniteEnergyGrains :
    isNaN ((configured.writeR 0#7 canonicalNaN).readR 0#7) ∧ (configured.writeR 0#7 0x7F800000#32).w = defaultWindowRom ∧
      (configured.writeR 0#7 0x7F800000#32).readR 0#7 = 0x7F800000#32 ∧
      isFinite ((configured.writeR 0#7 0x7F800000#32).readR (lagIndex 127)) :=
  ⟨by decide +kernel, rfl, by decide +kernel, by decide +kernel⟩

theorem witness_FmulIsCorrectlyRounded :
    isFinite 0x7F7FFFFF#32 ∧ isFinite 0x00000001#32 ∧ binary32Value 0x7F7FFFFF#32 * binary32Value 0x00000001#32 ≠ 0 ∧
      binary32Value 0x7F7FFFFF#32 * binary32Value 0x80000000#32 = 0 := by decide +kernel

theorem witness_FaddIsCorrectlyRounded :
    isFinite 0x3F800000#32 ∧ isFinite 0xBF800000#32 ∧ binary32Value 0x3F800000#32 + binary32Value 0xBF800000#32 = 0 ∧
      binary32Value 0x3F800000#32 + binary32Value 0x3F800000#32 ≠ 0 := by decide +kernel

theorem witness_FdivIsCorrectlyRounded :
    isFinite 0x3F800000#32 ∧ isFinite 0x40400000#32 ∧ binary32Value 0x40400000#32 ≠ 0 ∧ binary32Value 0x3F800000#32 ≠ 0 ∧
      isFinite 0x80000000#32 ∧ binary32Value 0x80000000#32 = 0 := by decide +kernel

theorem witness_FsqrtIsCorrectlyRounded : isFinite 0x40000000#32 ∧ 0 < binary32Value 0x40000000#32 := by decide +kernel

theorem witness_SpecialOperandsFollowIeee :
    isFinite 0xBF800000#32 ∧ binary32Value 0xBF800000#32 ≠ 0 ∧ binary32Value 0xBF800000#32 < 0 ∧
      isFinite 0x3F800000#32 ∧ binary32Value 0x3F800000#32 = -binary32Value 0xBF800000#32 ∧
      signBit 0x3F800000#32 ≠ signBit 0xBF800000#32 := by decide +kernel

theorem witness_NaNResultsAreCanonical :
    isNaN (fmul 0x00000000#32 0x7F800000#32) ∧ isNaN (fadd 0x7F800000#32 0xFF800000#32) ∧
      isNaN (fdiv 0x00000000#32 0x00000000#32) ∧ isNaN (fsqrt 0xBF800000#32) ∧ isNaN 0x7FC00001#32 ∧
      configured.err = false ∧ configured.cfg = true := by decide +kernel

theorem witness_StepKeepsTheInvariant :
    Inv (issueNext 0x01000000000006E0#64 State.reset) ∧
      ∃ t, step (issueNext 0x01000000000006E0#64 State.reset) = .next t := by
  refine ⟨⟨?_, (fun h => nomatch h), (fun h => nomatch h)⟩, _, rfl⟩
  constructor
  · exact fun _ => rfl
  · exact fun h => nomatch h
  · exact fun h => nomatch h
  · exact fun _ => ⟨by decide +kernel, by decide +kernel, by decide +kernel, rfl, rfl, rfl, rfl⟩
  · exact fun h => nomatch h
  · exact fun h => nomatch h
  · rfl
  · decide +kernel
  · decide +kernel
  · decide +kernel

theorem witness_ParametersDecideDelta :
    configured.err = false ∧ configured.cfg = true ∧ 1 ≤ configured.fs.toNat ∧ 1 ≤ (1#32).toNat ∧
      flatParameters.deltaOf (1#32).toNat 57 < 2 ^ 32 ∧ 2 ^ 32 ≤ defaultParameters.deltaOf (1#32).toNat 57 ∧
      flatParameters.deltaOf configured.fs.toNat (127#7).toNat < 2 ^ 32 ∧
      2 ^ 32 ≤ defaultParameters.deltaOf configured.fs.toNat (127#7).toNat := by decide +kernel

theorem witness_StepKeepsTheInvariantOverAnyParameters :
    InvOver flatParameters (issueNext 0x0100000000000001#64 (machineOver flatParameters).reset) ∧
      ∃ t, stepOver flatParameters (issueNext 0x0100000000000001#64 (machineOver flatParameters).reset) = .next t ∧
        t.cfg = true := by
  refine ⟨?_, _, rfl, by decide +kernel⟩
  constructor
  · exact fun _ => rfl
  · exact fun h => nomatch h
  · exact fun h => nomatch h
  · exact fun _ => ⟨by decide +kernel, by decide +kernel, by decide +kernel, rfl, rfl, rfl, rfl⟩
  · exact fun h => nomatch h
  · exact fun h => nomatch h
  · rfl
  · decide +kernel
  · decide +kernel
  · decide +kernel

end Witnesses

end Sys2Proof.Tests.Slice0
end

section
/-! SUPPORT. Correct rounding of a real number of units, as the proofs on the four operations use it (00_scope.md R12). It stands ahead
of the lemmas because Lean waits for the evaluations of the tests above before it adds a structure: run beside them, the proofs
below would take the check to its memory limit. -/

namespace Sys2Proof.Machine

/-- `M` holds bits 30:0 of the binary32 that the real number `u` of units rounds to, to nearest with ties to even
(00_scope.md R12). -/
structure RoundsToMagnitude (u : ℝ) (M : Nat) : Prop where
  /-- No pattern lies past the infinity's. -/
  le : M ≤ infinityMagnitude
  /-- The infinity is the result exactly from `2^128 - 2^103` on. -/
  overflow : M = infinityMagnitude ↔ (overflowUnits : ℝ) ≤ u
  /-- Below it no finite magnitude is nearer. -/
  nearest : M < infinityMagnitude → ∀ p, |u - patternUnits M| ≤ |u - patternUnits p|
  /-- A tie goes to the even pattern. -/
  even : M < infinityMagnitude → ∀ p, |u - patternUnits M| = |u - patternUnits p| → patternUnits p ≠ patternUnits M → M % 2 = 0

end Sys2Proof.Machine
end

section
/-! SUPPORT. Patterns as a sign and bits 30:0: what the fields, the class and the value of a pattern are in these two, and what
`packFloat` puts together from them (00_scope.md R11). -/

namespace Sys2Proof.Machine

section Fields

variable (w : Word)

theorem exponentField_eq_magnitudeBits : exponentField w = magnitudeBits w / 2 ^ 23 := by
  simp only [exponentField, magnitudeBits]
  omega

theorem fractionField_eq_magnitudeBits : fractionField w = magnitudeBits w % 2 ^ 23 := by
  simp only [fractionField, magnitudeBits]
  omega

theorem magnitudeUnits_eq_patternUnits : magnitudeUnits w = patternUnits (magnitudeBits w) := by
  simp only [magnitudeUnits, patternUnits, exponentField_eq_magnitudeBits, fractionField_eq_magnitudeBits]

theorem magnitudeBits_lt : magnitudeBits w < 2 ^ 31 := Nat.mod_lt _ (by norm_num)

/-- The finite patterns are those below the infinity's. -/
theorem isFinite_iff_magnitudeBits : isFinite w ↔ magnitudeBits w < infinityMagnitude := by
  have hlt := magnitudeBits_lt w
  simp only [isFinite, exponentField_eq_magnitudeBits, infinityMagnitude]
  omega

/-- The NaN patterns are those above the infinity's. -/
theorem isNaN_iff_magnitudeBits : isNaN w ↔ infinityMagnitude < magnitudeBits w := by
  have hlt := magnitudeBits_lt w
  simp only [isNaN, exponentField_eq_magnitudeBits, fractionField_eq_magnitudeBits, infinityMagnitude]
  omega

/-- Bit 31 is what lies above bits 30:0. -/
theorem signBit_eq_decide : signBit w = decide (2 ^ 31 ≤ w.toNat) := by
  simp [signBit, BitVec.msb_eq_decide]

end Fields

section Pack

variable {neg : Bool} {M : Nat}

theorem packFloat_toNat (hM : M < 2 ^ 31) : (packFloat neg M).toNat = (if neg then 2 ^ 31 else 0) + M := by
  cases neg
  · simp [packFloat]; omega
  · simp [packFloat]; omega

@[simp] theorem signBit_packFloat (hM : M < 2 ^ 31) : signBit (packFloat neg M) = neg := by
  rw [signBit_eq_decide, packFloat_toNat hM]
  cases neg
  · simpa using hM
  · simp

@[simp] theorem magnitudeBits_packFloat (hM : M < 2 ^ 31) : magnitudeBits (packFloat neg M) = M := by
  rw [magnitudeBits, packFloat_toNat hM]
  cases neg
  · simpa using hM
  · simpa using hM

/-- Every pattern is put together from its sign and its bits 30:0. -/
theorem packFloat_signBit_magnitudeBits (w : Word) : packFloat (signBit w) (magnitudeBits w) = w := by
  apply BitVec.eq_of_toNat_eq
  have hlt := w.isLt
  rw [packFloat_toNat (magnitudeBits_lt w), signBit_eq_decide, magnitudeBits]
  by_cases h : 2 ^ 31 ≤ w.toNat
  · rw [decide_eq_true h, if_pos rfl]; omega
  · rw [decide_eq_false h, if_neg Bool.false_ne_true]; omega

theorem lt_of_le_infinityMagnitude (hM : M ≤ infinityMagnitude) : M < 2 ^ 31 := lt_of_le_of_lt hM (by decide)

end Pack

section Classes

variable {w : Word}

theorem classify_of_isFinite (h : isFinite w) : classify w = .finite (signBit w) (magnitudeUnits w) := if_neg h

theorem classify_of_isNaN (h : isNaN w) : classify w = .nan := by
  rw [classify, if_pos h.1, if_neg h.2]

/-- A pattern of the class NaN is a NaN; of the class of an infinity or of a number, the class holds its own sign. -/
theorem classify_cases (w : Word) :
    (isNaN w ∧ classify w = .nan) ∨ classify w = .infinite (signBit w) ∨
      (isFinite w ∧ classify w = .finite (signBit w) (magnitudeUnits w)) := by
  by_cases he : isFinite w
  · exact .inr (.inr ⟨he, classify_of_isFinite he⟩)
  · have he : exponentField w = 255 := not_not.mp he
    by_cases hf : fractionField w = 0
    · exact .inr (.inl (by rw [classify, if_pos he, if_pos hf]))
    · exact .inl ⟨⟨he, hf⟩, classify_of_isNaN ⟨he, hf⟩⟩

@[simp] theorem classify_packFloat_infinity (neg : Bool) : classify (packFloat neg infinityMagnitude) = .infinite neg := by
  cases neg <;> decide

@[simp] theorem classify_packFloat_zero (neg : Bool) : classify (packFloat neg 0) = .finite neg 0 := by
  cases neg <;> decide

end Classes

section Values

/-- `(-1)^neg`. -/
def signValue (neg : Bool) : ℚ := if neg then -1 else 1

/-- The real number that one unit is, the smallest subnormal (00_scope.md R11). -/
def unitValue : ℚ := 1 / 2 ^ 149

theorem unitValue_pos : 0 < unitValue := by unfold unitValue; positivity

theorem signFactor_eq_signValue (w : Word) : signFactor w = signValue (signBit w) := rfl

theorem signValue_xor (s t : Bool) : signValue (s ^^ t) = signValue s * signValue t := by
  cases s <;> cases t <;> simp [signValue]

theorem signValue_ne_zero (s : Bool) : signValue s ≠ 0 := by
  cases s <;> simp [signValue]

theorem signValue_mul_self (s : Bool) : signValue s * signValue s = 1 := by
  cases s <;> simp [signValue]

theorem signValue_not (s : Bool) : signValue (!s) = -signValue s := by
  cases s <;> simp [signValue]

theorem abs_signValue (s : Bool) : |signValue s| = 1 := by
  cases s <;> simp [signValue]

theorem signedUnits_cast (s : Bool) (m : Nat) : ((signedUnits s m : ℤ) : ℚ) = signValue s * m := by
  cases s <;> simp [signedUnits, signValue]

/-- The value of a finite pattern is its sign times its whole number of units (00_scope.md R11). -/
theorem binary32Value_eq_units (w : Word) :
    binary32Value w = signValue (signBit w) * (magnitudeUnits w * unitValue) := by
  rw [binary32Value, magnitudeUnits, signFactor_eq_signValue, unitValue]
  split_ifs with he
  · rw [show (2 : ℚ) ^ (-126 : ℤ) = 1 / 2 ^ 126 by norm_num]
    ring
  · obtain ⟨e, hexp⟩ : ∃ e, exponentField w = e + 1 := Nat.exists_eq_succ_of_ne_zero he
    have hpow : (2 : ℚ) ^ ((exponentField w : ℤ) - 127) = 2 ^ e * (1 / 2 ^ 126) := by
      rw [hexp, show (((e + 1 : ℕ) : ℤ) - 127) = (e : ℤ) + (-126 : ℤ) by push_cast; ring, zpow_add₀ two_ne_zero, zpow_natCast]
      norm_num
    rw [hpow, hexp, Nat.add_sub_cancel]
    push_cast
    ring

theorem binary32Value_eq_zero_iff (w : Word) : binary32Value w = 0 ↔ magnitudeUnits w = 0 := by
  rw [binary32Value_eq_units]
  simp [signValue_ne_zero, unitValue_pos.ne']

/-- A pattern of a nonzero value has the sign of its value. -/
theorem signBit_eq_decide_neg {w : Word} (h : binary32Value w ≠ 0) : signBit w = decide (binary32Value w < 0) := by
  have hpos : 0 < magnitudeUnits w * unitValue :=
    mul_pos (Nat.cast_pos.mpr (Nat.pos_of_ne_zero (mt (binary32Value_eq_zero_iff w).mpr h))) unitValue_pos
  rw [binary32Value_eq_units]
  cases signBit w
  · simpa [signValue] using hpos.le
  · simpa [signValue] using hpos

end Values

end Sys2Proof.Machine
end

section
/-! SUPPORT. Correct rounding of a real number of units, and the step from it to `RoundsTo`: `roundMagnitude` rounds every quotient, and
any real number in an open gap between two whole numbers of units from `2^24` on is rounded as the middle of the gap is
(00_scope.md R12, log entry 12). -/

namespace Sys2Proof.Machine

section Quotients

theorem distance_cast (a b : Nat) : ((distance a b : ℕ) : ℝ) = |(a : ℝ) - b| := by
  rcases Nat.le_total a b with h | h
  · rw [distance, Nat.sub_eq_zero_of_le h, Nat.zero_add, Nat.cast_sub h, abs_sub_comm,
      abs_of_nonneg (sub_nonneg.mpr (Nat.cast_le.mpr h))]
  · rw [distance, Nat.sub_eq_zero_of_le h, Nat.add_zero, Nat.cast_sub h, abs_of_nonneg (sub_nonneg.mpr (Nat.cast_le.mpr h))]

variable {num den : Nat}

/-- The distance of a quotient from a whole number, without the division. -/
theorem abs_div_sub (hd : 0 < den) (c : Nat) : |(num : ℝ) / den - c| = (distance num (c * den) : ℕ) / (den : ℝ) := by
  have hd' : (0 : ℝ) < den := Nat.cast_pos.mpr hd
  rw [distance_cast, ← abs_of_pos hd', ← abs_div, abs_of_pos hd', Nat.cast_mul, sub_div, mul_div_cancel_right₀ _ hd'.ne']

/-- `roundMagnitude` rounds the quotient of its arguments correctly (00_scope.md R12). -/
theorem roundMagnitude_roundsToMagnitude (hd : 0 < den) : RoundsToMagnitude ((num : ℝ) / den) (roundMagnitude num den) where
  le := roundMagnitude_le
  overflow := by
    rw [roundMagnitude_overflow hd, le_div_iff₀ (Nat.cast_pos.mpr hd)]
    exact_mod_cast Iff.rfl
  nearest := by
    intro hfin p
    rw [abs_div_sub hd, abs_div_sub hd]
    gcongr
    exact (roundMagnitude_nearest hd hfin p).1
  even := by
    intro hfin p htie hne
    rw [abs_div_sub hd, abs_div_sub hd, div_left_inj' (Nat.cast_pos.mpr hd).ne', Nat.cast_inj] at htie
    exact (roundMagnitude_nearest hd hfin p).2 htie hne

end Quotients

section Gaps

/-- An odd magnitude lies below `2^24` units. -/
theorem patternUnits_even {p : Nat} (h : 2 ^ 24 ≤ patternUnits p) : patternUnits p % 2 = 0 := by
  rcases patternUnits_grid p 1 with ⟨j, hj⟩ | ⟨-, hlt⟩
  · omega
  · omega

variable {r M : Nat}

/-- The middle of the gap above `r >= 2^24` units is no tie: one of two magnitudes equally far from it would be odd, so below `2^24`,
and `2^24` is nearer. -/
theorem patternUnits_eq_of_tie (hr : 2 ^ 24 ≤ r)
    (hnear : ∀ p, distance (2 * r + 1) (patternUnits M * 2) ≤ distance (2 * r + 1) (patternUnits p * 2)) {p : Nat}
    (htie : distance (2 * r + 1) (patternUnits M * 2) = distance (2 * r + 1) (patternUnits p * 2)) :
    patternUnits p = patternUnits M := by
  have hpow : patternUnits (2 ^ 24) = 2 ^ 24 := by decide
  have h24 := hnear (2 ^ 24)
  have hM := patternUnits_even (p := M)
  have hp := patternUnits_even (p := p)
  rw [hpow] at h24
  simp only [distance] at *
  omega

/-- Correct rounding of the middle of the gap above `r >= 2^24` units is correct for every number in the gap. -/
theorem RoundsToMagnitude.of_gap {u : ℝ} (hr : 2 ^ 24 ≤ r) (hlo : (r : ℝ) < u) (hhi : u < r + 1) :
    RoundsToMagnitude u (roundMagnitude (2 * r + 1) 2) := by
  have hstrict : roundMagnitude (2 * r + 1) 2 < infinityMagnitude → ∀ p,
      patternUnits p ≠ patternUnits (roundMagnitude (2 * r + 1) 2) →
        |u - patternUnits (roundMagnitude (2 * r + 1) 2)| < |u - patternUnits p| := by
    intro hfin p hne
    have hnear := fun q => (roundMagnitude_nearest (num := 2 * r + 1) Nat.two_pos hfin q).1
    have hlt := lt_of_le_of_ne (hnear p) (fun htie => hne (patternUnits_eq_of_tie hr hnear htie))
    generalize patternUnits (roundMagnitude (2 * r + 1) 2) = c at *
    generalize patternUnits p = v at *
    rcases Nat.lt_or_gt_of_ne hne with hvc | hcv
    · have hmid : v + c ≤ 2 * r := by simp only [distance] at hlt; omega
      have hmid' : (v : ℝ) + c ≤ 2 * r := by exact_mod_cast hmid
      have hvc' : (v : ℝ) < c := by exact_mod_cast hvc
      rw [abs_of_pos (show 0 < u - v by linarith), abs_lt]
      constructor <;> linarith
    · have hmid : 2 * r + 2 ≤ v + c := by simp only [distance] at hlt; omega
      have hmid' : 2 * (r : ℝ) + 2 ≤ v + c := by exact_mod_cast hmid
      have hcv' : (c : ℝ) < v := by exact_mod_cast hcv
      rw [abs_of_neg (show u - v < 0 by linarith), abs_lt]
      constructor <;> linarith
  refine ⟨roundMagnitude_le, ?_, ?_, ?_⟩
  · rw [roundMagnitude_overflow Nat.two_pos]
    constructor
    · intro h
      have : overflowUnits ≤ r := by omega
      exact le_trans (Nat.cast_le.mpr this) hlo.le
    · intro h
      have : (overflowUnits : ℝ) < ((r + 1 : ℕ) : ℝ) := lt_of_le_of_lt h (by exact_mod_cast hhi)
      have := Nat.cast_lt.mp this
      omega
  · intro hfin p
    by_cases hp : patternUnits p = patternUnits (roundMagnitude (2 * r + 1) 2)
    · rw [hp]
    · exact (hstrict hfin p hp).le
  · exact fun hfin p htie hne => absurd htie (hstrict hfin p hne).ne

end Gaps

section Signed

/-- The distance of a signed number of units from the value of a pattern: that of the magnitudes where the signs agree, and their sum
elsewhere. -/
theorem abs_sub_binary32Value {u : ℝ} (hu : 0 ≤ u) (neg : Bool) (v : Word) :
    |(signValue neg : ℝ) * (u * unitValue) - (binary32Value v : ℝ)| =
      (if signBit v = neg then |u - patternUnits (magnitudeBits v)| else u + patternUnits (magnitudeBits v)) * unitValue := by
  have hU : (0 : ℝ) < unitValue := by exact_mod_cast unitValue_pos
  have hsign : |(signValue neg : ℝ)| = 1 := by exact_mod_cast abs_signValue neg
  have hfactor : ∀ t : ℝ, |signValue neg * (t * unitValue)| = |t| * unitValue := by
    intro t
    rw [abs_mul, hsign, one_mul, abs_mul, abs_of_pos hU]
  rw [binary32Value_eq_units, magnitudeUnits_eq_patternUnits]
  push_cast
  split_ifs with h
  · rw [h, ← mul_sub, ← sub_mul, hfactor]
  · rw [show signBit v = !neg from Bool.eq_not.mpr h, signValue_not, Rat.cast_neg, neg_mul, sub_neg_eq_add, ← mul_add, ← add_mul,
      hfactor, abs_of_nonneg (by positivity)]

/-- The overflow bound as a real number and as a number of units (00_scope.md R12). -/
theorem overflowUnits_mul_unitValue : (overflowUnits : ℝ) * unitValue = (2 : ℝ) ^ 128 - 2 ^ 103 := by
  rw [overflowUnits, unitValue]
  norm_num

variable {u x : ℝ} {M : Nat} {neg : Bool}

theorem signValue_mul_pos_iff (hu : 0 < u) : (0 < (signValue neg : ℝ) * u ↔ neg = false) ∧
    ((signValue neg : ℝ) * u < 0 ↔ neg = true) := by
  cases neg <;> simp [signValue, hu, hu.le]

/-- Correct rounding of the magnitude, under the sign of the number, is correct rounding of the number (00_scope.md R12). -/
theorem RoundsToMagnitude.roundsTo (h : RoundsToMagnitude u M) (hu : 0 < u) (hx : x = signValue neg * (u * unitValue)) :
    RoundsTo x (packFloat neg M) := by
  have hU : (0 : ℝ) < unitValue := by exact_mod_cast unitValue_pos
  obtain ⟨hpos, hneg⟩ := signValue_mul_pos_iff (neg := neg) (mul_pos hu hU)
  have hsign : |(signValue neg : ℝ)| = 1 := by exact_mod_cast abs_signValue neg
  have hM31 := lt_of_le_infinityMagnitude h.le
  have habs : |x| = u * unitValue := by rw [hx, abs_mul, hsign, one_mul, abs_of_pos (mul_pos hu hU)]
  rw [← hx] at hpos hneg
  rw [RoundsTo, habs, ← overflowUnits_mul_unitValue, mul_le_mul_iff_left₀ hU, mul_lt_mul_iff_left₀ hU]
  constructor
  · intro hover
    rw [h.overflow.mpr hover]
    exact ⟨fun hx0 => by rw [hpos.mp hx0]; rfl, fun hx0 => by rw [hneg.mp hx0]; rfl⟩
  · intro hbelow
    have hfin : M < infinityMagnitude := lt_of_le_of_ne h.le (fun he => absurd (h.overflow.mp he) (not_le.mpr hbelow))
    refine ⟨?_, ?_, ?_, fun v _ => ?_⟩
    · rwa [isFinite_iff_magnitudeBits, magnitudeBits_packFloat hM31]
    · rw [signBit_packFloat hM31]; exact hpos.mp
    · rw [signBit_packFloat hM31]; exact hneg.mp
    have hzero : patternUnits 0 = 0 := by decide
    have hatZero : |u - patternUnits M| ≤ u := by
      simpa [hzero, abs_of_pos hu] using h.nearest hfin 0
    have hparity : fractionField (packFloat neg M) % 2 = M % 2 := by
      rw [fractionField_eq_magnitudeBits, magnitudeBits_packFloat hM31]
      omega
    rw [hx, abs_sub_binary32Value hu.le, abs_sub_binary32Value hu.le, signBit_packFloat hM31, magnitudeBits_packFloat hM31, if_pos rfl,
      mul_le_mul_iff_left₀ hU, mul_left_inj' hU.ne', hparity, binary32Value_eq_units, binary32Value_eq_units,
      magnitudeUnits_eq_patternUnits, magnitudeUnits_eq_patternUnits, signBit_packFloat hM31, magnitudeBits_packFloat hM31]
    by_cases hv : signBit v = neg
    · rw [if_pos hv, hv]
      exact ⟨h.nearest hfin _, fun htie hne => h.even hfin _ htie (fun he => hne (by rw [he]))⟩
    · rw [if_neg hv]
      have hm0 : (0 : ℝ) ≤ patternUnits (magnitudeBits v) := Nat.cast_nonneg _
      refine ⟨by linarith, fun htie hne => ?_⟩
      have hv0 : patternUnits (magnitudeBits v) = 0 := by
        have : (patternUnits (magnitudeBits v) : ℝ) = 0 := by linarith
        exact_mod_cast this
      refine h.even hfin 0 ?_ (fun he => hne ?_)
      · rw [htie, hv0, hzero]
        simp [abs_of_pos hu]
      · rw [hv0, ← he, hzero]
        simp

end Signed

end Sys2Proof.Machine
end

section
/-! SUPPORT. The four operations, one equation for each kind of operands, the proofs that each rounds the exact result
once, and the special operands (00_scope.md R12). -/

namespace Sys2Proof.Machine

section NaNOperands

variable {a : Word}

theorem fmul_nan_left (ha : isNaN a) (b : Word) : fmul a b = canonicalNaN := by
  rw [fmul, classify_of_isNaN ha]

theorem fadd_nan_left (ha : isNaN a) (b : Word) : fadd a b = canonicalNaN := by
  rw [fadd, classify_of_isNaN ha]

theorem fdiv_nan_left (ha : isNaN a) (b : Word) : fdiv a b = canonicalNaN := by
  rw [fdiv, classify_of_isNaN ha]

theorem fmul_nan_right (b : Word) (ha : isNaN a) : fmul b a = canonicalNaN := by
  rw [fmul, classify_of_isNaN ha]
  cases classify b <;> rfl

theorem fadd_nan_right (b : Word) (ha : isNaN a) : fadd b a = canonicalNaN := by
  rw [fadd, classify_of_isNaN ha]
  cases classify b <;> rfl

theorem fdiv_nan_right (b : Word) (ha : isNaN a) : fdiv b a = canonicalNaN := by
  rw [fdiv, classify_of_isNaN ha]
  cases classify b <;> rfl

theorem fsqrt_nan (ha : isNaN a) : fsqrt a = canonicalNaN := by
  rw [fsqrt, classify_of_isNaN ha]

end NaNOperands

section InfiniteOperands

variable {a b : Word} {s t : Bool} {m : Nat}

theorem fmul_infinite_infinite (ha : classify a = .infinite s) (hb : classify b = .infinite t) :
    fmul a b = packFloat (s ^^ t) infinityMagnitude := by
  rw [fmul, ha, hb]

theorem fmul_infinite_finite (ha : classify a = .infinite s) (hb : classify b = .finite t m) :
    fmul a b = if m = 0 then canonicalNaN else packFloat (s ^^ t) infinityMagnitude := by
  rw [fmul, ha, hb]

theorem fmul_finite_infinite (ha : classify a = .finite s m) (hb : classify b = .infinite t) :
    fmul a b = if m = 0 then canonicalNaN else packFloat (s ^^ t) infinityMagnitude := by
  rw [fmul, ha, hb]

theorem fadd_infinite_infinite (ha : classify a = .infinite s) (hb : classify b = .infinite t) :
    fadd a b = if s = t then packFloat s infinityMagnitude else canonicalNaN := by
  rw [fadd, ha, hb]

theorem fadd_infinite_finite (ha : classify a = .infinite s) (hb : classify b = .finite t m) :
    fadd a b = packFloat s infinityMagnitude := by
  rw [fadd, ha, hb]

theorem fadd_finite_infinite (ha : classify a = .finite s m) (hb : classify b = .infinite t) :
    fadd a b = packFloat t infinityMagnitude := by
  rw [fadd, ha, hb]

theorem fdiv_infinite_infinite (ha : classify a = .infinite s) (hb : classify b = .infinite t) : fdiv a b = canonicalNaN := by
  rw [fdiv, ha, hb]

theorem fdiv_infinite_finite (ha : classify a = .infinite s) (hb : classify b = .finite t m) :
    fdiv a b = packFloat (s ^^ t) infinityMagnitude := by
  rw [fdiv, ha, hb]

theorem fdiv_finite_infinite (ha : classify a = .finite s m) (hb : classify b = .infinite t) : fdiv a b = packFloat (s ^^ t) 0 := by
  rw [fdiv, ha, hb]

theorem fsqrt_infinite (ha : classify a = .infinite s) :
    fsqrt a = if s then canonicalNaN else packFloat false infinityMagnitude := by
  rw [fsqrt, ha]

end InfiniteOperands

section ZeroOperands

variable {a b : Word} {s t : Bool} {m : Nat}

theorem fdiv_finite_zero (ha : classify a = .finite s m) (hb : classify b = .finite t 0) :
    fdiv a b = if m = 0 then canonicalNaN else packFloat (s ^^ t) infinityMagnitude := by
  rw [fdiv, ha, hb]
  exact if_pos rfl

theorem fsqrt_zero (ha : classify a = .finite s 0) : fsqrt a = packFloat s 0 := by
  rw [fsqrt, ha]
  exact if_pos rfl

theorem fsqrt_negative (ha : classify a = .finite true m) (h0 : m ≠ 0) : fsqrt a = canonicalNaN := by
  rw [fsqrt, ha]
  exact (if_neg h0).trans (if_pos rfl)

end ZeroOperands

section FiniteOperands

variable {a b : Word}

theorem fmul_of_isFinite (ha : isFinite a) (hb : isFinite b) :
    fmul a b = packFloat (signBit a ^^ signBit b) (roundMagnitude (magnitudeUnits a * magnitudeUnits b) (2 ^ 149)) := by
  simp only [fmul, classify_of_isFinite ha, classify_of_isFinite hb]

/-- The exact sum of two finite patterns, in units. -/
def sumUnits (a b : Word) : Int := signedUnits (signBit a) (magnitudeUnits a) + signedUnits (signBit b) (magnitudeUnits b)

theorem fadd_of_isFinite (ha : isFinite a) (hb : isFinite b) :
    fadd a b = if sumUnits a b = 0 then packFloat (signBit a && signBit b) 0
      else packFloat (decide (sumUnits a b < 0)) (roundMagnitude (sumUnits a b).natAbs 1) := by
  rw [fadd, classify_of_isFinite ha, classify_of_isFinite hb]
  rfl

theorem fdiv_of_isFinite (ha : isFinite a) (hb : isFinite b) (hb0 : magnitudeUnits b ≠ 0) :
    fdiv a b = packFloat (signBit a ^^ signBit b) (roundMagnitude (magnitudeUnits a * 2 ^ 149) (magnitudeUnits b)) := by
  simp only [fdiv, classify_of_isFinite ha, classify_of_isFinite hb, if_neg hb0]

theorem fsqrt_of_isFinite (ha : isFinite a) (ha0 : magnitudeUnits a ≠ 0) (hs : signBit a = false) :
    fsqrt a = packFloat false (roundMagnitude (2 * rootFloor 2 (magnitudeUnits a * 2 ^ 149) 214 0 +
      if rootFloor 2 (magnitudeUnits a * 2 ^ 149) 214 0 ^ 2 = magnitudeUnits a * 2 ^ 149 then 0 else 1) 2) := by
  simp only [fsqrt, classify_of_isFinite ha, if_neg ha0, hs, Bool.false_eq_true, if_false]

/-- Nothing rounds to nothing. -/
theorem roundMagnitude_zero (den : Nat) : roundMagnitude 0 den = 0 := by
  simp [roundMagnitude, roundHalfEven]

theorem cast_magnitudeUnits_pos (h : binary32Value a ≠ 0) : (0 : ℝ) < magnitudeUnits a :=
  Nat.cast_pos.mpr (Nat.pos_of_ne_zero (mt (binary32Value_eq_zero_iff a).mpr h))

end FiniteOperands

section Products

/-- Settles O46: the product is the product of the units, in units of `2^-298`, under the XOR of the signs. -/
theorem fmulIsCorrectlyRounded : Obligations.FmulIsCorrectlyRounded := by
  intro a b ha hb
  rw [fmul_of_isFinite ha hb]
  constructor
  · intro hne
    obtain ⟨hane, hbne⟩ := mul_ne_zero_iff.mp hne
    have hapos := cast_magnitudeUnits_pos hane
    have hbpos := cast_magnitudeUnits_pos hbne
    refine (roundMagnitude_roundsToMagnitude (by norm_num)).roundsTo (by push_cast; positivity) ?_
    rw [binary32Value_eq_units, binary32Value_eq_units, signValue_xor, unitValue]
    push_cast
    ring
  · intro h0
    rw [mul_eq_zero, binary32Value_eq_zero_iff, binary32Value_eq_zero_iff, ← Nat.mul_eq_zero] at h0
    rw [h0, roundMagnitude_zero]

/-- Settles O48: the quotient is the quotient of the units, under the XOR of the signs. -/
theorem fdivIsCorrectlyRounded : Obligations.FdivIsCorrectlyRounded := by
  intro a b ha hb hbne
  have hb0 := mt (binary32Value_eq_zero_iff b).mpr hbne
  rw [fdiv_of_isFinite ha hb hb0]
  constructor
  · intro hane
    have hapos := cast_magnitudeUnits_pos hane
    have hbpos := cast_magnitudeUnits_pos hbne
    refine (roundMagnitude_roundsToMagnitude (Nat.pos_of_ne_zero hb0)).roundsTo (by push_cast; positivity) ?_
    have hsign : (signValue (signBit b) : ℝ) * signValue (signBit b) = 1 := by exact_mod_cast signValue_mul_self _
    have hsign0 : (signValue (signBit b) : ℝ) ≠ 0 := by exact_mod_cast signValue_ne_zero _
    rw [binary32Value_eq_units, binary32Value_eq_units, signValue_xor, unitValue]
    push_cast
    field_simp
    rw [sq, hsign]
    norm_num
  · intro h0
    rw [(binary32Value_eq_zero_iff a).mp h0, Nat.zero_mul, roundMagnitude_zero]

end Products

section Sums

theorem binary32Value_add (a b : Word) : binary32Value a + binary32Value b = sumUnits a b * unitValue := by
  rw [binary32Value_eq_units, binary32Value_eq_units, sumUnits, Int.cast_add, signedUnits_cast, signedUnits_cast]
  ring

theorem binary32Value_add_eq_zero_iff (a b : Word) : binary32Value a + binary32Value b = 0 ↔ sumUnits a b = 0 := by
  rw [binary32Value_add, mul_eq_zero, or_iff_left unitValue_pos.ne', Int.cast_eq_zero]

/-- A whole number is its sign times its magnitude. -/
theorem signValue_mul_natAbs (i : Int) : signValue (decide (i < 0)) * i.natAbs = i := by
  by_cases h : i < 0
  · rw [decide_eq_true h, Nat.cast_natAbs, abs_of_neg h]
    simp [signValue]
  · rw [decide_eq_false h, Nat.cast_natAbs, abs_of_nonneg (not_lt.mp h)]
    simp [signValue]

/-- Settles O47: the sum of finite patterns is a whole number of units, and an exact zero has its own sign. -/
theorem faddIsCorrectlyRounded : Obligations.FaddIsCorrectlyRounded := by
  intro a b ha hb
  rw [fadd_of_isFinite ha hb, binary32Value_add_eq_zero_iff, ne_eq, binary32Value_add_eq_zero_iff]
  constructor
  · intro hne
    have hpos : 0 < (sumUnits a b).natAbs := Int.natAbs_pos.mpr hne
    rw [if_neg hne]
    refine (roundMagnitude_roundsToMagnitude Nat.one_pos).roundsTo (by rw [Nat.cast_one, div_one]; exact_mod_cast hpos) ?_
    rw [binary32Value_add, ← signValue_mul_natAbs (sumUnits a b)]
    push_cast
    ring
  · exact fun h0 => if_pos h0

end Sums

section Roots

/-- A finite magnitude is below `2^24` steps of `2^253` units. -/
theorem magnitudeUnits_lt {a : Word} (ha : isFinite a) : magnitudeUnits a < 2 ^ 24 * 2 ^ 253 := by
  have he : exponentField a < 255 := by
    have : exponentField a < 2 ^ 8 := Nat.mod_lt _ (by norm_num)
    omega
  have hf : fractionField a < 2 ^ 23 := Nat.mod_lt _ (by norm_num)
  rw [magnitudeUnits]
  split_ifs with h
  · exact lt_trans hf (by norm_num)
  · calc (2 ^ 23 + fractionField a) * 2 ^ (exponentField a - 1)
        < 2 ^ 24 * 2 ^ (exponentField a - 1) := Nat.mul_lt_mul_of_pos_right (by omega) (by positivity)
      _ ≤ 2 ^ 24 * 2 ^ 253 := Nat.mul_le_mul_left _ (Nat.pow_le_pow_right Nat.two_pos (by omega))

/-- The bitwise root of a finite radicand is the floor of the real root. -/
theorem rootFloor_radicand {m : Nat} (hm : m < 2 ^ 24 * 2 ^ 253) :
    rootFloor 2 (m * 2 ^ 149) 214 0 ^ 2 ≤ m * 2 ^ 149 ∧ m * 2 ^ 149 < (rootFloor 2 (m * 2 ^ 149) 214 0 + 1) ^ 2 := by
  refine rootFloor_between 214 0 (Nat.zero_le _) ?_
  calc m * 2 ^ 149 < 2 ^ 24 * 2 ^ 253 * 2 ^ 149 := Nat.mul_lt_mul_of_pos_right hm (by positivity)
    _ ≤ (0 + 2 ^ 214) ^ 2 := by norm_num

/-- The root of at least one unit is far above the numbers with a last bit below one unit. -/
theorem le_rootFloor_radicand {m : Nat} (h0 : m ≠ 0) (hm : m < 2 ^ 24 * 2 ^ 253) : 2 ^ 24 ≤ rootFloor 2 (m * 2 ^ 149) 214 0 := by
  have hhi := (rootFloor_radicand hm).2
  have hbig : (2 ^ 24) ^ 2 ≤ m * 2 ^ 149 :=
    le_trans (by norm_num) (Nat.mul_le_mul_right (2 ^ 149) (Nat.one_le_iff_ne_zero.mpr h0))
  exact Nat.le_of_lt_succ (lt_of_pow_lt_pow_left₀ 2 (Nat.zero_le _) (lt_of_le_of_lt hbig hhi))

/-- Rounding the floor of a root, with half a unit in place of an inexact rest, rounds the real root (log entry 12). -/
theorem sqrt_roundsToMagnitude {r v : Nat} (hr : 2 ^ 24 ≤ r) (hlo : r ^ 2 ≤ v) (hhi : v < (r + 1) ^ 2) :
    RoundsToMagnitude (Real.sqrt (v : ℝ)) (roundMagnitude (2 * r + if r ^ 2 = v then 0 else 1) 2) := by
  split_ifs with hexact
  · have hroot : Real.sqrt (v : ℝ) = ((2 * r + 0 : ℕ) : ℝ) / (2 : ℕ) := by
      rw [← hexact, Nat.cast_pow, Real.sqrt_sq (Nat.cast_nonneg r)]
      push_cast
      ring
    rw [hroot]
    exact roundMagnitude_roundsToMagnitude Nat.two_pos
  · have hlo' : r ^ 2 < v := lt_of_le_of_ne hlo hexact
    refine RoundsToMagnitude.of_gap hr ?_ ?_
    · exact Real.lt_sqrt_of_sq_lt (by exact_mod_cast hlo')
    · rw [Real.sqrt_lt' (by positivity)]
      exact_mod_cast hhi

/-- The root of `m` units is the root of `m * 2^149`, in units. -/
theorem sqrt_units (m : Nat) : Real.sqrt (m * unitValue) = Real.sqrt ((m * 2 ^ 149 : ℕ) : ℝ) * unitValue := by
  have hU : (0 : ℝ) < unitValue := by exact_mod_cast unitValue_pos
  have hsq : (m : ℝ) * unitValue = ((m * 2 ^ 149 : ℕ) : ℝ) * (unitValue : ℝ) ^ 2 := by
    rw [unitValue]
    push_cast
    ring
  rw [hsq, Real.sqrt_mul (Nat.cast_nonneg _), Real.sqrt_sq hU.le]

/-- Settles O49: the bitwise root with its half unit is rounded as the real root is. -/
theorem fsqrtIsCorrectlyRounded : Obligations.FsqrtIsCorrectlyRounded := by
  intro a ha hpos
  have h0 : magnitudeUnits a ≠ 0 := mt (binary32Value_eq_zero_iff a).mpr hpos.ne'
  have hs : signBit a = false := by rw [signBit_eq_decide_neg hpos.ne', decide_eq_false hpos.not_gt]
  rw [fsqrt_of_isFinite ha h0 hs]
  have hm := magnitudeUnits_lt ha
  obtain ⟨hlo, hhi⟩ := rootFloor_radicand hm
  refine (sqrt_roundsToMagnitude (le_rootFloor_radicand h0 hm) hlo hhi).roundsTo ?_ ?_
  · exact Real.sqrt_pos.mpr (by exact_mod_cast Nat.mul_pos (Nat.pos_of_ne_zero h0) (by positivity))
  · rw [binary32Value_eq_units, hs, ← sqrt_units]
    simp [signValue]

end Roots

section SpecialOperands

variable {a b : Word}

/-- An exact zero sum of operands of different signs is +0 (00_scope.md R12). -/
theorem fadd_exact_zero (ha : isFinite a) (hb : isFinite b) (hv : binary32Value a = -binary32Value b) (hs : signBit a ≠ signBit b) :
    fadd a b = 0x00000000#32 := by
  have hsum := (faddIsCorrectlyRounded a b ha hb).2 (by rw [hv, neg_add_cancel])
  rwa [Bool.eq_not.mpr hs, Bool.not_and_self] at hsum

theorem fadd_negZero_negZero : fadd 0x80000000#32 0x80000000#32 = 0x80000000#32 := by
  have hzero : binary32Value 0x80000000#32 = 0 := (binary32Value_eq_zero_iff _).mpr (by decide)
  exact (faddIsCorrectlyRounded _ _ (by decide) (by decide)).2 (by rw [hzero, add_zero])

/-- Settles O50: the equation of each pair of classes, applied to the operands of the rule, and the exact zero sums of O47. -/
theorem specialOperandsFollowIeee : Obligations.SpecialOperandsFollowIeee := by
  have hinf := classify_packFloat_infinity
  have hzero := classify_packFloat_zero
  have hfin := fun {a : Word} (ha : isFinite a) => classify_of_isFinite ha
  have hne : ∀ {a : Word}, binary32Value a ≠ 0 → magnitudeUnits a ≠ 0 := fun {a} h => mt (binary32Value_eq_zero_iff a).mpr h
  refine ⟨fun s t => ⟨?_, ?_⟩, fun s => ?_, fun a s ha h => ?_, fun s t => ?_, fun a s ha => ?_, ?_, ?_, ?_, fun a ha h => ?_, ?_,
    fun a b => fadd_exact_zero, fadd_negZero_negZero, fun s t => ⟨?_, ?_⟩, fun a s ha h => ⟨?_, ?_⟩, fun s => ?_,
    fun a s ha => ⟨?_, ?_, ?_⟩⟩
  · exact (fmul_finite_infinite (hzero s) (hinf t)).trans (if_pos rfl)
  · exact (fmul_infinite_finite (hinf t) (hzero s)).trans (if_pos rfl)
  · exact (fadd_infinite_infinite (hinf s) (hinf (!s))).trans (if_neg (Bool.self_ne_not s))
  · exact (fdiv_finite_zero (hfin ha) (hzero s)).trans (if_neg (hne h))
  · exact (fdiv_finite_zero (hzero s) (hzero t)).trans (if_pos rfl)
  · exact fdiv_finite_infinite (hfin ha) (hinf s)
  · exact fsqrt_infinite (hinf false)
  · exact fsqrt_zero (hzero true)
  · exact fsqrt_zero (hzero false)
  · have hclass := hfin ha
    rw [signBit_eq_decide_neg h.ne, decide_eq_true h] at hclass
    exact fsqrt_negative hclass (hne h.ne)
  · exact fsqrt_infinite (hinf true)
  · exact fmul_infinite_infinite (hinf s) (hinf t)
  · exact fdiv_infinite_infinite (hinf s) (hinf t)
  · exact (fmul_finite_infinite (hfin ha) (hinf s)).trans (if_neg (hne h))
  · exact (fmul_infinite_finite (hinf s) (hfin ha)).trans (if_neg (hne h))
  · exact (fadd_infinite_infinite (hinf s) (hinf s)).trans (if_pos rfl)
  · exact fadd_finite_infinite (hfin ha) (hinf s)
  · exact fadd_infinite_finite (hinf s) (hfin ha)
  · exact fdiv_infinite_finite (hinf s) (hfin ha)

end SpecialOperands

end Sys2Proof.Machine
end

section
/-! SUPPORT. What a result of an operation can be, whatever the operands: the canonical NaN, or a pattern of a known sign up to the
infinity (00_scope.md R13). -/

namespace Sys2Proof.Machine

section Results

/-- A result with the sign `neg`: the canonical NaN, or a number or an infinity of that sign (00_scope.md R13). -/
def IsResult (neg : Bool) (w : Word) : Prop := w = canonicalNaN ∨ ∃ M, M ≤ infinityMagnitude ∧ w = packFloat neg M

variable {neg : Bool} {a b w : Word}

theorem isNaN_canonicalNaN : isNaN canonicalNaN := by decide

theorem isResult_canonicalNaN : IsResult neg canonicalNaN := .inl rfl

theorem isResult_packFloat {M : Nat} (hM : M ≤ infinityMagnitude) : IsResult neg (packFloat neg M) := .inr ⟨M, hM, rfl⟩

theorem isResult_infinity : IsResult neg (packFloat neg infinityMagnitude) := isResult_packFloat (le_refl _)

theorem isResult_zero : IsResult neg (packFloat neg 0) := isResult_packFloat (Nat.zero_le _)

theorem isResult_round (num den : Nat) : IsResult neg (packFloat neg (roundMagnitude num den)) :=
  isResult_packFloat roundMagnitude_le

/-- A NaN result is the canonical NaN (00_scope.md R13). -/
theorem IsResult.eq_canonicalNaN (h : IsResult neg w) (hw : isNaN w) : w = canonicalNaN := by
  rcases h with h | ⟨M, hM, rfl⟩
  · exact h
  · rw [isNaN_iff_magnitudeBits, magnitudeBits_packFloat (lt_of_le_infinityMagnitude hM)] at hw
    exact absurd hw (not_lt.mpr hM)

/-- A result that is no NaN has its sign. -/
theorem IsResult.signBit_eq (h : IsResult neg w) (hw : w ≠ canonicalNaN) : signBit w = neg := by
  rcases h with h | ⟨M, hM, rfl⟩
  · exact absurd h hw
  · exact signBit_packFloat (lt_of_le_infinityMagnitude hM)

theorem IsResult.signBit_eq_false (h : IsResult false w) : signBit w = false := by
  by_cases hw : w = canonicalNaN
  · rw [hw]; decide
  · exact h.signBit_eq hw

/-- Everything a product can be (00_scope.md R12, R13). -/
theorem fmul_cases (a b : Word) :
    fmul a b = canonicalNaN ∨ fmul a b = packFloat (signBit a ^^ signBit b) infinityMagnitude ∨ (isFinite a ∧ isFinite b) := by
  rcases classify_cases a with ⟨hna, -⟩ | ha | ⟨hfa, ha⟩
  · exact .inl (fmul_nan_left hna b)
  · rcases classify_cases b with ⟨hnb, -⟩ | hb | ⟨-, hb⟩
    · exact .inl (fmul_nan_right a hnb)
    · exact .inr (.inl (fmul_infinite_infinite ha hb))
    · rw [fmul_infinite_finite ha hb]
      split_ifs
      · exact .inl rfl
      · exact .inr (.inl rfl)
  · rcases classify_cases b with ⟨hnb, -⟩ | hb | ⟨hfb, -⟩
    · exact .inl (fmul_nan_right a hnb)
    · rw [fmul_finite_infinite ha hb]
      split_ifs
      · exact .inl rfl
      · exact .inr (.inl rfl)
    · exact .inr (.inr ⟨hfa, hfb⟩)

/-- A product has the XOR of the signs, unless it is the canonical NaN. -/
theorem fmul_isResult (a b : Word) : IsResult (signBit a ^^ signBit b) (fmul a b) := by
  rcases fmul_cases a b with h | h | ⟨ha, hb⟩
  · rw [h]; exact isResult_canonicalNaN
  · rw [h]; exact isResult_infinity
  · rw [fmul_of_isFinite ha hb]; exact isResult_round _ _

/-- A quotient has the XOR of the signs, unless it is the canonical NaN. -/
theorem fdiv_isResult (a b : Word) : IsResult (signBit a ^^ signBit b) (fdiv a b) := by
  rcases classify_cases a with ⟨hna, -⟩ | ha | ⟨hfa, ha⟩
  · rw [fdiv_nan_left hna]; exact isResult_canonicalNaN
  · rcases classify_cases b with ⟨hnb, -⟩ | hb | ⟨-, hb⟩
    · rw [fdiv_nan_right a hnb]; exact isResult_canonicalNaN
    · rw [fdiv_infinite_infinite ha hb]; exact isResult_canonicalNaN
    · rw [fdiv_infinite_finite ha hb]; exact isResult_infinity
  · rcases classify_cases b with ⟨hnb, -⟩ | hb | ⟨hfb, hb⟩
    · rw [fdiv_nan_right a hnb]; exact isResult_canonicalNaN
    · rw [fdiv_finite_infinite ha hb]; exact isResult_zero
    · by_cases h0 : magnitudeUnits b = 0
      · rw [h0] at hb
        rw [fdiv_finite_zero ha hb]
        split_ifs
        · exact isResult_canonicalNaN
        · exact isResult_infinity
      · rw [fdiv_of_isFinite hfa hfb h0]; exact isResult_round _ _

/-- A root has the sign of its operand, unless it is the canonical NaN: a negative result is -0. -/
theorem fsqrt_isResult (a : Word) : IsResult (signBit a) (fsqrt a) := by
  rcases classify_cases a with ⟨hna, -⟩ | ha | ⟨hfa, ha⟩
  · rw [fsqrt_nan hna]; exact isResult_canonicalNaN
  · rw [fsqrt_infinite ha]
    cases signBit a
    · exact isResult_infinity
    · exact isResult_canonicalNaN
  · by_cases h0 : magnitudeUnits a = 0
    · rw [h0] at ha
      rw [fsqrt_zero ha]
      exact isResult_zero
    · cases hs : signBit a with
      | false => rw [fsqrt_of_isFinite hfa h0 hs]; exact isResult_round _ _
      | true =>
        rw [hs] at ha
        rw [fsqrt_negative ha h0]
        exact isResult_canonicalNaN

/-- The exact sum of two operands of one sign has that sign. -/
theorem decide_sumUnits_neg (hs : signBit a = signBit b) (h0 : sumUnits a b ≠ 0) : decide (sumUnits a b < 0) = signBit a := by
  rw [sumUnits, ← hs] at h0 ⊢
  cases signBit a with
  | false => simp only [signedUnits, Bool.false_eq_true, if_false, decide_eq_false_iff_not]; omega
  | true => simp only [signedUnits, if_true, decide_eq_true_eq] at h0 ⊢; omega

/-- Everything a sum can be (00_scope.md R12, R13). -/
theorem fadd_cases (a b : Word) : fadd a b = canonicalNaN ∨
    (∃ neg, fadd a b = packFloat neg infinityMagnitude ∧ (signBit a = signBit b → neg = signBit a)) ∨ (isFinite a ∧ isFinite b) := by
  rcases classify_cases a with ⟨hna, -⟩ | ha | ⟨hfa, ha⟩
  · exact .inl (fadd_nan_left hna b)
  · rcases classify_cases b with ⟨hnb, -⟩ | hb | ⟨-, hb⟩
    · exact .inl (fadd_nan_right a hnb)
    · rw [fadd_infinite_infinite ha hb]
      split_ifs
      · exact .inr (.inl ⟨_, rfl, fun _ => rfl⟩)
      · exact .inl rfl
    · exact .inr (.inl ⟨_, fadd_infinite_finite ha hb, fun _ => rfl⟩)
  · rcases classify_cases b with ⟨hnb, -⟩ | hb | ⟨hfb, -⟩
    · exact .inl (fadd_nan_right a hnb)
    · exact .inr (.inl ⟨_, fadd_finite_infinite ha hb, Eq.symm⟩)
    · exact .inr (.inr ⟨hfa, hfb⟩)

/-- A sum is the canonical NaN or a signed result, and operands of one sign give that sign. -/
theorem fadd_isResult (a b : Word) : ∃ neg, IsResult neg (fadd a b) ∧ (signBit a = signBit b → neg = signBit a) := by
  rcases fadd_cases a b with h | ⟨neg, h, hneg⟩ | ⟨ha, hb⟩
  · exact ⟨signBit a, by rw [h]; exact isResult_canonicalNaN, fun _ => rfl⟩
  · exact ⟨neg, by rw [h]; exact isResult_infinity, hneg⟩
  · rw [fadd_of_isFinite ha hb]
    split_ifs with h0
    · exact ⟨signBit a && signBit b, isResult_zero, fun hs => by rw [← hs, Bool.and_self]⟩
    · exact ⟨decide (sumUnits a b < 0), isResult_round _ _, fun hs => decide_sumUnits_neg hs h0⟩

end Results

section NaNInputs

/-- A NaN input makes every new lag the canonical NaN (00_scope.md R13). -/
theorem blendLag_nan {x : Word} (hx : isNaN x) (old xLag : Word) : blendLag old x xLag = canonicalNaN := by
  have h2 : fmul weightWord x = canonicalNaN := fmul_nan_right _ hx
  have h3 : fmul (fmul weightWord x) xLag = canonicalNaN := by rw [h2, fmul_nan_left isNaN_canonicalNaN]
  rw [blendLag, h3, fadd_nan_right _ isNaN_canonicalNaN]

theorem exec_sample_configured {s : State} (he : s.err = false) (hc : s.cfg = true) (x : Word) :
    exec (.sample x) s = .next (sampleStep x s) := by
  rcases sampleCommand_cases s x with ⟨h, -⟩ | ⟨-, h⟩
  · rw [hc] at h; contradiction
  · rw [exec, execSample, unlessFaulted_of_ok he, h]

theorem readR_sampleStep (x : Word) (s : State) (L : Lag) : (sampleStep x s).readR L = (blendedState x s).readR L := by
  simp only [State.readR, sampleStep_r]

/-- Settles O51: every result is the canonical NaN or no NaN, and a NaN input reaches every lag through the blend. -/
theorem naNResultsAreCanonical : Obligations.NaNResultsAreCanonical := by
  refine ⟨fun a b => ⟨?_, ?_, ?_, ?_⟩, fun a b hab => ?_, fun a => fsqrt_nan, rfl, fun s x he hc hx => ?_⟩
  · exact (fmul_isResult a b).eq_canonicalNaN
  · obtain ⟨neg, hres, -⟩ := fadd_isResult a b
    exact hres.eq_canonicalNaN
  · exact (fdiv_isResult a b).eq_canonicalNaN
  · exact (fsqrt_isResult a).eq_canonicalNaN
  · rcases hab with ha | hb
    · exact ⟨fmul_nan_left ha b, fadd_nan_left ha b, fdiv_nan_left ha b⟩
    · exact ⟨fmul_nan_right a hb, fadd_nan_right a hb, fdiv_nan_right a hb⟩
  · refine ⟨sampleStep x s, ?_, ?_, fun L => ?_⟩
    · exact exec_sample_configured he hc x
    · simp [State.readX]
    · rw [readR_sampleStep, blendedState_readR, blendLag_nan hx]

end NaNInputs

end Sys2Proof.Machine
end

section
/-! SUPPORT. What the block keeps: a sum is -0 only where both operands are, decay never reaches -0, and the energy is never negative;
from these the invariant over any parameters (10_state.md R26, R28, R31, R37, log entries 18 and 20). -/

namespace Sys2Proof.Machine

section NegativeZero

variable {a b : Word}

theorem packFloat_true_zero : packFloat true 0 = 0x80000000#32 := rfl

/-- A pattern whose bits 30:0 are not all clear is no -0. -/
theorem packFloat_ne_negZero {neg : Bool} {M : Nat} (h0 : M ≠ 0) (hM : M ≤ infinityMagnitude) : packFloat neg M ≠ 0x80000000#32 := by
  intro h
  have hbits := congrArg magnitudeBits h
  rw [magnitudeBits_packFloat (lt_of_le_infinityMagnitude hM)] at hbits
  exact h0 hbits

/-- A zero with the sign set is -0. -/
theorem eq_negZero (hs : signBit a = true) (h0 : magnitudeUnits a = 0) : a = 0x80000000#32 := by
  have hbits : magnitudeBits a = 0 := by
    rw [magnitudeUnits_eq_patternUnits, patternUnits] at h0
    split_ifs at h0 with h
    · omega
    · exact absurd h0 (by positivity)
  rw [← packFloat_signBit_magnitudeBits a, hs, hbits, packFloat_true_zero]

/-- What is more than half a unit does not round to zero. -/
theorem roundMagnitude_ne_zero {num den : Nat} (hd : 0 < den) (h : den < 2 * num) : roundMagnitude num den ≠ 0 := by
  intro h0
  have hnear := (roundHalfEven_near (num := num) hd).1
  obtain ⟨hk, hround⟩ : Nat.log2 (num / den) - 23 = 0 ∧ roundHalfEven num (den * 2 ^ (Nat.log2 (num / den) - 23)) = 0 := by
    simp only [roundMagnitude, infinityMagnitude] at h0
    omega
  rw [hk, pow_zero, Nat.mul_one] at hround
  rw [hround] at hnear
  simp only [distance] at hnear
  omega

theorem canonicalNaN_ne_negZero : canonicalNaN ≠ 0x80000000#32 := by decide

theorem infinity_ne_negZero (neg : Bool) : packFloat neg infinityMagnitude ≠ 0x80000000#32 :=
  packFloat_ne_negZero (by decide) (le_refl _)

/-- A sum is -0 only where both operands are (00_scope.md R12). -/
theorem fadd_ne_negZero (ha : a ≠ 0x80000000#32) (b : Word) : fadd a b ≠ 0x80000000#32 := by
  rcases fadd_cases a b with h | ⟨neg, h, -⟩ | ⟨hfa, hfb⟩
  · rw [h]; exact canonicalNaN_ne_negZero
  · rw [h]; exact infinity_ne_negZero neg
  · rw [fadd_of_isFinite hfa hfb]
    split_ifs with h0
    · by_cases hs : (signBit a && signBit b) = true
      · obtain ⟨hsa, hsb⟩ := Bool.and_eq_true_iff.mp hs
        rw [sumUnits, hsa, hsb, signedUnits, signedUnits, if_pos rfl, if_pos rfl] at h0
        exact absurd (eq_negZero hsa (by omega)) ha
      · rw [Bool.eq_false_of_not_eq_true hs]
        decide
    · exact packFloat_ne_negZero (roundMagnitude_ne_zero Nat.one_pos (by omega)) roundMagnitude_le

/-- Decay does not reach -0: the smallest magnitude stays itself (41_leaky_autocorrelator.md R105). -/
theorem fmul_decayWord_ne_negZero (ha : a ≠ 0x80000000#32) : fmul a decayWord ≠ 0x80000000#32 := by
  have hfin : isFinite decayWord := by decide
  rcases fmul_cases a decayWord with h | h | ⟨hfa, -⟩
  · rw [h]; exact canonicalNaN_ne_negZero
  · rw [h]; exact infinity_ne_negZero _
  · rw [fmul_of_isFinite hfa hfin]
    by_cases h0 : magnitudeUnits a = 0
    · have hs : signBit a = false := Bool.eq_false_of_not_eq_true (fun hs => ha (eq_negZero hs h0))
      rw [h0, Nat.zero_mul, roundMagnitude_zero, hs]
      decide
    · refine packFloat_ne_negZero (roundMagnitude_ne_zero (by positivity) ?_) roundMagnitude_le
      have hdecay : 2 ^ 149 < 2 * magnitudeUnits decayWord := by decide
      have hone := Nat.mul_le_mul_right (magnitudeUnits decayWord) (Nat.pos_of_ne_zero h0)
      omega

end NegativeZero

section Values

variable {a b w : Word}

theorem IsResult.isClean {neg : Bool} (h : IsResult neg w) (hw : w ≠ 0x80000000#32) : isClean w := ⟨hw, h.eq_canonicalNaN⟩

theorem isClean_zero : isClean 0#32 := by decide

/-- Adding to a clean value leaves a clean value. -/
theorem fadd_isClean (ha : a ≠ 0x80000000#32) (b : Word) : isClean (fadd a b) := by
  obtain ⟨neg, hres, -⟩ := fadd_isResult a b
  exact hres.isClean (fadd_ne_negZero ha b)

/-- A blended lag is clean where the old one was not -0. -/
theorem blendLag_isClean {old : Word} (h : old ≠ 0x80000000#32) (xNow xLag : Word) : isClean (blendLag old xNow xLag) :=
  fadd_isClean (fmul_decayWord_ne_negZero h) _

/-- An energy is a result without a sign (41_leaky_autocorrelator.md R104). -/
theorem isEnergy_iff_isResult : isEnergy w ↔ IsResult false w := by
  constructor
  · rintro (h | h)
    · refine .inr ⟨w.toNat, h, BitVec.eq_of_toNat_eq ?_⟩
      rw [packFloat_toNat (lt_of_le_infinityMagnitude h)]
      simp
    · exact .inl h
  · rintro (h | ⟨M, hM, rfl⟩)
    · exact .inr h
    · left
      rw [packFloat_toNat (lt_of_le_infinityMagnitude hM), if_neg Bool.false_ne_true, Nat.zero_add]
      exact hM

/-- The input's own term is never negative: both factors that hold the input have its sign (41_leaky_autocorrelator.md R104). -/
theorem inputTerm_isResult (x : Word) : IsResult false (fmul (fmul weightWord x) x) := by
  by_cases hn : fmul weightWord x = canonicalNaN
  · rw [hn, fmul_nan_left isNaN_canonicalNaN]
    exact isResult_canonicalNaN
  · have hw : signBit weightWord = false := by decide
    have hs := (fmul_isResult weightWord x).signBit_eq hn
    have hres := fmul_isResult (fmul weightWord x) x
    rwa [hs, hw, Bool.false_xor, Bool.xor_self] at hres

/-- The blend of lag 0 keeps the energy non-negative (41_leaky_autocorrelator.md R104). -/
theorem blendLag_isEnergy {old : Word} (h : isEnergy old) (x : Word) : isEnergy (blendLag old x x) := by
  rw [isEnergy_iff_isResult] at *
  have hd : signBit decayWord = false := by decide
  have h1 : IsResult false (fmul old decayWord) := by
    have hres := fmul_isResult old decayWord
    rwa [h.signBit_eq_false, hd] at hres
  have h3 := inputTerm_isResult x
  obtain ⟨neg, hres, hneg⟩ := fadd_isResult (fmul old decayWord) (fmul (fmul weightWord x) x)
  rw [h1.signBit_eq_false, h3.signBit_eq_false] at hneg
  rwa [hneg rfl] at hres

end Values

section Memories

variable (s : State)

@[simp] theorem readX_warmReset (f : Word) (d : Nat) (a : RingAddr) : (warmReset f d s).readX a = 0#32 := by
  simp [State.readX, zeroWord]

@[simp] theorem readY_warmReset (f : Word) (d : Nat) (a : RingAddr) : (warmReset f d s).readY a = 0#32 := by
  simp [State.readY, zeroWord]

@[simp] theorem readR_warmReset (f : Word) (d : Nat) (L : Lag) : (warmReset f d s).readR L = 0#32 := by
  simp [State.readR, zeroWord]

/-- The output accumulator after a sample step: the emitted slot is cleared, and every other slot is as the grain left it. -/
theorem readY_sampleStep (x : Word) (a : RingAddr) :
    (sampleStep x s).readY a = if a = s.pos then zeroWord else (grainedState x s).readY a := by
  have hrw : (sampleStep x s).readY a = ((grainedState x s).writeY s.pos zeroWord).readY a := by
    simp only [State.readY, sampleStep_y, State.writeY_y]
  rw [hrw]
  split_ifs with h
  · rw [h, State.readY_writeY_same]
  · exact State.readY_writeY_ne _ _ (Ne.symm h)

/-- A grain keeps the output accumulator clean: it only adds. -/
theorem grainedState_readY_isClean (h : ∀ a, isClean (s.readY a)) (x : Word) (a : RingAddr) : isClean ((grainedState x s).readY a) := by
  rw [← ringPlus_offset s.pos a, grainedState_readY x s _ (a - s.pos).isLt]
  split_ifs
  · exact h _
  · exact fadd_isClean (h _).1 _

end Memories

section Invariant

variable {P : Config.Parameters} {s t : State}

/-- The invariant speaks of the block alone, not of the channels. -/
theorem InvOver.of_sameBlock (h : InvOver P s) (hst : s.sameBlock t) : InvOver P t := by
  obtain ⟨hx, hy, hr, hw, hphase, hdelta, hpos, hfs, hcfg, herr, hcause⟩ := hst
  have hX : ∀ a, t.readX a = s.readX a := fun a => by simp only [State.readX, hx]
  have hY : ∀ a, t.readY a = s.readY a := fun a => by simp only [State.readY, hy]
  have hR : ∀ L, t.readR L = s.readR L := fun L => by simp only [State.readR, hr]
  constructor
  · rw [← herr, ← hcause]; exact h.noCause
  · rw [← herr, ← hcause]; exact h.someCause
  · rw [← herr, ← hcause, ← hcfg]; exact h.notConfigured
  · simp only [hX, hY, hR, ← hphase, ← hdelta, ← hpos, ← hfs, ← hcfg]; exact h.unconfigured
  · rw [← hcfg, ← hfs]; exact h.rate
  · rw [← hcfg, ← hfs, ← hdelta]; exact h.pitch
  · rw [← hw]; exact h.window
  · rw [hR]; exact h.energy
  · simp only [hR]; exact h.cleanR
  · simp only [hY]; exact h.cleanY

theorem sameBlock_respond (s : State) (data : Word) (trig : Bool) : s.sameBlock (respond data trig s) := by
  simp [State.sameBlock]

theorem InvOver.respond (h : InvOver P s) (data : Word) (trig : Bool) : InvOver P (respond data trig s) :=
  h.of_sameBlock (sameBlock_respond s data trig)

theorem InvOver.ignoreCommand (h : InvOver P s) : InvOver P (ignoreCommand s) := h.respond zeroWord false

/-- Taking the next word off the channel keeps the invariant. -/
theorem InvOver.withCommands (h : InvOver P s) (ws : List CommandWord) : InvOver P { s with commands := ws } :=
  h.of_sameBlock ⟨rfl, rfl, rfl, rfl, rfl, rfl, rfl, rfl, rfl, rfl, rfl⟩

theorem faultCode_range (c : FaultCause) : 1 ≤ (faultCode c).toNat ∧ (faultCode c).toNat ≤ 4 := by
  cases c <;> decide

theorem faultCode_eq_two {c : FaultCause} (h : faultCode c = 2#4) : c = .notConfigured := by
  cases c with
  | notConfigured => rfl
  | illegalCommand | badRate | deltaRange => exact absurd h (by decide)

/-- A fault keeps the invariant, where NOT_CONFIGURED is raised by an unconfigured block alone (60_exceptions.md R201, R202). -/
theorem InvOver.raiseFault (h : InvOver P s) {c : FaultCause} (hc : c = .notConfigured → s.cfg = false) :
    InvOver P (raiseFault c s) where
  noCause := by simp
  someCause := fun _ => by rw [raiseFault_cause]; exact faultCode_range c
  notConfigured := by
    rw [raiseFault_cause, raiseFault_cfg]
    exact fun _ h2 => hc (faultCode_eq_two h2)
  unconfigured := by simpa using h.unconfigured
  rate := by simpa using h.rate
  pitch := by simpa using h.pitch
  window := by simpa using h.window
  energy := by simpa using h.energy
  cleanR := by simpa using h.cleanR
  cleanY := by simpa using h.cleanY

/-- The parameter's bound on a rate and a note that a command can ask for, as the word stored in `DELTA` (10_state.md R26). -/
theorem toNat_ofNat_deltaOf {f : Word} (hf : 1 ≤ f.toNat) (n : Note) (hlt : P.deltaOf f.toNat n.toNat < 2 ^ 32) :
    (BitVec.ofNat 32 (P.deltaOf f.toNat n.toNat)).toNat = P.deltaOf f.toNat n.toNat ∧
      1 ≤ (BitVec.ofNat 32 (P.deltaOf f.toNat n.toNat)).toNat := by
  have hpos := P.deltaOf_pos f.toNat n.toNat hf f.isLt (Nat.le_of_lt_succ n.isLt)
  rw [BitVec.toNat_ofNat, Nat.mod_eq_of_lt hlt]
  exact ⟨rfl, hpos⟩

/-- A warm reset of an unfaulted block sets up the invariant (70_reset_and_hazards.md R232). -/
theorem InvOver.warmReset (h : InvOver P s) (herr : s.err = false) {f : Word} (hf : 1 ≤ f.toNat)
    (hlt : P.deltaOf f.toNat 57 < 2 ^ 32) : InvOver P (warmReset f (P.deltaOf f.toNat 57) s) where
  noCause := by simpa using h.noCause
  someCause := by simp [herr]
  notConfigured := by simp [herr]
  unconfigured := by simp
  rate := by simpa using hf
  pitch := by
    obtain ⟨hd, hpos⟩ := toNat_ofNat_deltaOf hf 57#7 hlt
    rw [warmReset_delta, warmReset_fs]
    exact fun _ => ⟨hpos, 57#7, hd⟩
  window := by simpa using h.window
  energy := by rw [readR_warmReset]; decide
  cleanR := by simpa using isClean_zero
  cleanY := by simpa using isClean_zero

/-- A new pitch on a configured block keeps the invariant (42_phase_accumulator_trigger.md R122). -/
theorem InvOver.setDelta (h : InvOver P s) (hcfg : s.cfg = true) (n : Note) (hlt : P.deltaOf s.fs.toNat n.toNat < 2 ^ 32) :
    InvOver P (s.setDelta (BitVec.ofNat 32 (P.deltaOf s.fs.toNat n.toNat))) where
  noCause := by simpa using h.noCause
  someCause := by simpa using h.someCause
  notConfigured := by simpa using h.notConfigured
  unconfigured := by simp [hcfg]
  rate := by simpa using h.rate
  pitch := by
    obtain ⟨hd, hpos⟩ := toNat_ofNat_deltaOf (h.rate hcfg) n hlt
    rw [State.setDelta_delta, State.setDelta_fs]
    exact fun _ => ⟨hpos, n, hd⟩
  window := by simpa using h.window
  energy := by simpa using h.energy
  cleanR := by simpa using h.cleanR
  cleanY := by simpa using h.cleanY

/-- A sample step of a configured block keeps the invariant (44_sample_step.md R160). -/
theorem InvOver.sampleStep (h : InvOver P s) (hcfg : s.cfg = true) (x : Word) : InvOver P (sampleStep x s) where
  noCause := by simpa using h.noCause
  someCause := by simpa using h.someCause
  notConfigured := by simpa using h.notConfigured
  unconfigured := by simp [hcfg]
  rate := by simpa using h.rate
  pitch := by simpa using h.pitch
  window := by simpa using h.window
  energy := by
    rw [readR_sampleStep, blendedState_readR, if_pos rfl]
    exact blendLag_isEnergy h.energy x
  cleanR := fun L => by
    rw [readR_sampleStep, blendedState_readR]
    exact blendLag_isClean (h.cleanR L).1 _ _
  cleanY := fun a => by
    rw [readY_sampleStep]
    split_ifs
    · exact isClean_zero
    · exact grainedState_readY_isClean s h.cleanY x a

end Invariant

section Step

variable {P : Config.Parameters} {s : State}

/-- What a command does to an unfaulted block keeps the invariant, and so does the command. -/
theorem InvOver.unlessFaulted {body : State → State} (h : InvOver P s) (hbody : s.err = false → InvOver P (body s)) :
    InvOver P (unlessFaulted body s) := by
  cases herr : s.err with
  | true => rw [unlessFaulted_of_err herr]; exact h.ignoreCommand
  | false => rw [unlessFaulted_of_ok herr]; exact hbody herr

theorem InvOver.resetCommand (h : InvOver P s) (herr : s.err = false) (f : Word) : InvOver P (resetCommand P f s) := by
  rcases resetCommand_cases P s f with ⟨-, hr⟩ | ⟨-, -, hr⟩ | ⟨hf, hlt, hr⟩ <;> rw [hr]
  · exact h.raiseFault (fun hc => nomatch hc)
  · exact h.raiseFault (fun hc => nomatch hc)
  · have hf1 : 1 ≤ f.toNat := Nat.one_le_iff_ne_zero.mpr (fun h0 => hf (BitVec.eq_of_toNat_eq h0))
    exact (h.warmReset herr hf1 hlt).respond _ _

theorem InvOver.noteOnCommand (h : InvOver P s) (n : Note) : InvOver P (noteOnCommand P n s) := by
  rcases noteOnCommand_cases P s n with ⟨hcfg, hr⟩ | ⟨-, -, hr⟩ | ⟨hcfg, hlt, hr⟩ <;> rw [hr]
  · exact h.raiseFault (fun _ => hcfg)
  · exact h.raiseFault (fun hc => nomatch hc)
  · exact (h.setDelta hcfg n hlt).respond _ _

theorem InvOver.sampleCommand (h : InvOver P s) (x : Word) : InvOver P (sampleCommand x s) := by
  rcases sampleCommand_cases s x with ⟨hcfg, hr⟩ | ⟨hcfg, hr⟩ <;> rw [hr]
  · exact h.raiseFault (fun _ => hcfg)
  · exact h.sampleStep hcfg x

/-- Every command completes, and keeps the invariant. -/
theorem InvOver.execOver (h : InvOver P s) (i : Instr) : ∃ t, execOver P i s = .next t ∧ InvOver P t := by
  cases i with
  | reset f => exact ⟨_, rfl, h.unlessFaulted (fun herr => h.resetCommand herr f)⟩
  | noteOn n => exact ⟨_, rfl, h.unlessFaulted (fun _ => h.noteOnCommand n)⟩
  | sample x => exact ⟨_, rfl, h.unlessFaulted (fun _ => h.sampleCommand x)⟩
  | status => exact ⟨_, rfl, h.respond _ _⟩

/-- Every word completes, and keeps the invariant. -/
theorem InvOver.executeOver (h : InvOver P s) (w : CommandWord) : ∃ t, executeOver P w s = .next t ∧ InvOver P t := by
  rw [Machine.executeOver]
  cases hd : decode w with
  | ok i => rw [executeWith_of_decode _ _ hd]; exact h.execOver i
  | error e =>
    rw [executeWith_of_illegal _ _ hd]
    exact ⟨_, rfl, h.unlessFaulted (fun _ => h.raiseFault (fun hc => nomatch hc))⟩

/-- Settles O56: a step waits, or executes one word, and each command keeps the invariant. -/
theorem stepKeepsTheInvariantOverAnyParameters : Obligations.StepKeepsTheInvariantOverAnyParameters := by
  intro P s t h hstep
  rcases stepOver_cases s P with ⟨-, hs⟩ | ⟨w, ws, -, hs⟩
  · rw [hs] at hstep
    cases hstep
    exact h
  · obtain ⟨u, hu, hinv⟩ := (h.withCommands ws).executeOver w
    rw [hs, hu] at hstep
    cases hstep
    exact hinv

end Step

end Sys2Proof.Machine
end

section
/-! SUPPORT. The remaining statements on 00_scope.md: the commands over any parameters (R7) and ring arithmetic (R9). -/

namespace Sys2Proof.Machine

section AnyParameters

variable {P : Config.Parameters} {s : State}

theorem responseWord_fault_zero : responseWord true false zeroWord = 0x0000000200000000#64 := by decide

theorem raiseFault_eq (c : FaultCause) (s : State) : raiseFault c s =
    { s with err := true, cause := faultCode c, responses := s.responses ++ [0x0000000200000000#64] } := by
  rw [raiseFault, respond, responseWord_fault_zero]

theorem responseWord_ok_zero : responseWord false false zeroWord = 0x0000000000000000#64 := by decide

/-- RESET with a rate from 1 on, on an unfaulted block (45_control.md R180). -/
theorem execOver_reset (he : s.err = false) {f : Word} (hf : 1 ≤ f.toNat) : execOver P (.reset f) s =
    .next (if 2 ^ 32 ≤ P.deltaOf f.toNat 57 then raiseFault .deltaRange s
      else respond zeroWord false (warmReset f (P.deltaOf f.toNat 57) s)) := by
  rw [execOver, execResetOver, unlessFaulted_of_ok he]
  rcases resetCommand_cases P s f with ⟨h0, -⟩ | ⟨-, hge, hr⟩ | ⟨-, hlt, hr⟩
  · rw [h0] at hf; exact absurd hf (by decide)
  · rw [hr, if_pos hge]
  · rw [hr, if_neg (not_le.mpr hlt)]

/-- NOTE_ON on an unfaulted and configured block (42_phase_accumulator_trigger.md R122). -/
theorem execOver_noteOn (he : s.err = false) (hc : s.cfg = true) (n : Note) : execOver P (.noteOn n) s =
    .next (if 2 ^ 32 ≤ P.deltaOf s.fs.toNat n.toNat then raiseFault .deltaRange s
      else respond zeroWord false (s.setDelta (BitVec.ofNat 32 (P.deltaOf s.fs.toNat n.toNat)))) := by
  rw [execOver, execNoteOnOver, unlessFaulted_of_ok he]
  rcases noteOnCommand_cases P s n with ⟨hc', -⟩ | ⟨-, hge, hr⟩ | ⟨-, hlt, hr⟩
  · rw [hc] at hc'; contradiction
  · rw [hr, if_pos hge]
  · rw [hr, if_neg (not_le.mpr hlt)]

/-- Settles O55: what each command does with the value of `DELTA_OF`, and the parameter's own bound. -/
theorem parametersDecideDelta : Obligations.ParametersDecideDelta := by
  intro P s he
  refine ⟨fun f hf hlt => ?_, fun f hf hge => ?_, fun n hc hfs hlt => ?_, fun n hc hge => ?_, fun x => rfl, rfl⟩
  · obtain ⟨hd, hpos⟩ := toNat_ofNat_deltaOf hf 57#7 hlt
    refine ⟨_, by rw [execOver_reset he hf, if_neg (not_le.mpr hlt)], ?_⟩
    simp only [respond_delta, respond_fs, respond_cfg, respond_err, respond_phase, respond_pos, respond_w, respond_cause,
      respond_commands, respond_responses, State.readX_respond, State.readY_respond, State.readR_respond, warmReset_delta, warmReset_fs,
      warmReset_cfg, warmReset_err, warmReset_phase, warmReset_pos, warmReset_w, warmReset_cause, warmReset_commands,
      warmReset_responses, readX_warmReset, readY_warmReset, readR_warmReset, he, responseWord_ok_zero, implies_true, and_true]
    exact ⟨hd, hpos⟩
  · rw [execOver_reset he hf, if_pos hge, raiseFault_eq, faultCode]
  · obtain ⟨hd, hpos⟩ := toNat_ofNat_deltaOf hfs n hlt
    refine ⟨_, hd, hpos, ?_⟩
    rw [execOver_noteOn he hc, if_neg (not_le.mpr hlt), respond, State.setDelta_err, he, responseWord_ok_zero]
    rfl
  · rw [execOver_noteOn he hc, if_pos hge, raiseFault_eq, faultCode]

end AnyParameters

section Rings

/-- Settles O33: ring offsets are read modulo 256, words are added modulo `2^32`, and `TRIG` compares unsigned numbers. -/
theorem ringArithmeticWraps : Obligations.RingArithmeticWraps := by
  refine ⟨fun p k => ?_, fun p k => ?_, fun a b => BitVec.toNat_add a b, fun a b => ?_⟩
  · rw [ringPlus, BitVec.toNat_add, BitVec.toNat_ofInt]
    omega
  · rw [ringMinus, BitVec.toNat_sub, BitVec.toNat_ofInt]
    omega
  · rw [trigFlag, BitVec.ult, decide_eq_true_iff]

end Rings

end Sys2Proof.Machine
end

section
/-! SUPPORT. Everything one command word, and so one step, can do, said once over any parameters (30_encoding.md R76, 10_state.md R38);
from it the life of `ERR` and `CAUSE` (10_state.md R30, R31) and the write table of the state (10_state.md R38). -/

namespace Sys2Proof.Machine

section WordEffects

/-- Everything that executing the word `w` can make of the state `s` (30_encoding.md R76): it is ignored by a faulted block, it raises
a fault, or it is one of the four commands and completes. -/
inductive WordEffect (P : Config.Parameters) (w : CommandWord) (s : State) : State → Prop where
  /-- A faulted block ignores the word (60_exceptions.md R204). -/
  | ignored (herr : s.err = true) : WordEffect P w s (ignoreCommand s)
  /-- The first fault (60_exceptions.md R201). -/
  | faulted (herr : s.err = false) (c : FaultCause) : WordEffect P w s (raiseFault c s)
  /-- A RESET that completes (45_control.md R180). -/
  | reset {f : Word} (herr : s.err = false) (hd : decode w = .ok (.reset f)) (hf : f ≠ 0#32)
      (hlt : P.deltaOf f.toNat 57 < 2 ^ 32) :
      WordEffect P w s (respond zeroWord false (warmReset f (P.deltaOf f.toNat 57) s))
  /-- A NOTE_ON that completes (42_phase_accumulator_trigger.md R122). -/
  | noteOn {n : Note} (herr : s.err = false) (hd : decode w = .ok (.noteOn n))
      (hlt : P.deltaOf s.fs.toNat n.toNat < 2 ^ 32) :
      WordEffect P w s (respond zeroWord false (s.setDelta (BitVec.ofNat 32 (P.deltaOf s.fs.toNat n.toNat))))
  /-- A SAMPLE that completes (44_sample_step.md R160). -/
  | sample {x : Word} (herr : s.err = false) (hd : decode w = .ok (.sample x)) : WordEffect P w s (sampleStep x s)
  /-- STATUS, which completes on a faulted block too (45_control.md R182). -/
  | status (hd : decode w = .ok .status) : WordEffect P w s (respond (statusWord s) false s)

variable {P : Config.Parameters} {w : CommandWord} {s t : State}

/-- The gate of the faulted state: what the body can do to an unfaulted block is all that is left to say. -/
theorem WordEffect.unlessFaulted {body : State → State} (h : s.err = false → WordEffect P w s (body s)) :
    WordEffect P w s (unlessFaulted body s) := by
  cases herr : s.err with
  | true => rw [unlessFaulted_of_err herr]; exact .ignored herr
  | false => rw [unlessFaulted_of_ok herr]; exact h herr

/-- Every command completes, with one of the effects of its word. -/
theorem execOver_effect {i : Instr} (hd : decode w = .ok i) : ∃ t, execOver P i s = .next t ∧ WordEffect P w s t := by
  cases i with
  | reset f =>
    refine ⟨_, rfl, .unlessFaulted fun herr => ?_⟩
    rcases resetCommand_cases P s f with ⟨-, h⟩ | ⟨-, -, h⟩ | ⟨hf, hlt, h⟩ <;> rw [h]
    · exact .faulted herr _
    · exact .faulted herr _
    · exact .reset herr hd hf hlt
  | noteOn n =>
    refine ⟨_, rfl, .unlessFaulted fun herr => ?_⟩
    rcases noteOnCommand_cases P s n with ⟨-, h⟩ | ⟨-, -, h⟩ | ⟨-, hlt, h⟩ <;> rw [h]
    · exact .faulted herr _
    · exact .faulted herr _
    · exact .noteOn herr hd hlt
  | sample x =>
    refine ⟨_, rfl, .unlessFaulted fun herr => ?_⟩
    rcases sampleCommand_cases s x with ⟨-, h⟩ | ⟨-, h⟩ <;> rw [h]
    · exact .faulted herr _
    · exact .sample herr hd
  | status => exact ⟨_, rfl, .status hd⟩

/-- Every word completes, with one of its effects (30_encoding.md R76). -/
theorem executeOver_effect (P : Config.Parameters) (w : CommandWord) (s : State) :
    ∃ t, executeOver P w s = .next t ∧ WordEffect P w s t := by
  rw [executeOver]
  cases hd : decode w with
  | ok i => rw [executeWith_of_decode _ _ hd]; exact execOver_effect hd
  | error e =>
    rw [executeWith_of_illegal _ _ hd]
    exact ⟨_, rfl, .unlessFaulted fun herr => .faulted herr _⟩

theorem WordEffect.of_execute (h : execute w s = .next t) : WordEffect defaultParameters w s t := by
  obtain ⟨u, hu, heff⟩ := executeOver_effect defaultParameters w s
  rw [execute_eq_executeOver, hu] at h
  cases h
  exact heff

/-- Everything a step can do: wait, or take the next word off the channel with one of its effects (30_encoding.md R70). -/
theorem step_next_cases (h : step s = .next t) :
    t = s ∨ ∃ w ws, s.commands = w :: ws ∧ WordEffect defaultParameters w { s with commands := ws } t := by
  cases hc : s.commands with
  | nil =>
    rw [step_idle s hc] at h
    cases h
    exact .inl rfl
  | cons w ws =>
    rw [step_command s hc] at h
    exact .inr ⟨w, ws, rfl, .of_execute h⟩

end WordEffects

section Faults

variable {P : Config.Parameters} {w : CommandWord} {s t : State}

/-- A word leaves `ERR` and `CAUSE` alone, or raises the first fault, which writes both (10_state.md R30, R31). -/
theorem WordEffect.err_cause (h : WordEffect P w s t) :
    (t.err = s.err ∧ t.cause = s.cause) ∨ (s.err = false ∧ t.err = true ∧ ∃ c, t.cause = faultCode c) := by
  cases h with
  | ignored => exact .inl ⟨ignoreCommand_err s, ignoreCommand_cause s⟩
  | faulted herr c => exact .inr ⟨herr, raiseFault_err s c, c, raiseFault_cause s c⟩
  | reset => left; simp
  | noteOn => left; simp
  | sample => exact .inl ⟨sampleStep_err _ s, sampleStep_cause _ s⟩
  | status => left; simp

theorem step_err_cause (h : step s = .next t) :
    (t.err = s.err ∧ t.cause = s.cause) ∨ (s.err = false ∧ t.err = true ∧ ∃ c, t.cause = faultCode c) := by
  rcases step_next_cases h with rfl | ⟨w, ws, -, heff⟩
  · exact .inl ⟨rfl, rfl⟩
  · exact heff.err_cause

/-- Settles O19: a step keeps `ERR` and `CAUSE`, or raises the first fault. -/
theorem faultIsSticky : Obligations.FaultIsSticky := by
  refine ⟨⟨rfl, rfl⟩, fun c s => ⟨raiseFault_err s c, raiseFault_cause s c⟩, fun s t hstep => ?_⟩
  rcases step_err_cause hstep with ⟨herr, hcause⟩ | ⟨hok, herr, c, hcause⟩
  · exact ⟨fun hs => ⟨herr.trans hs, hcause⟩, fun hne => absurd hcause hne, fun hs ht => by simp [herr, hs] at ht⟩
  · refine ⟨fun hs => by simp [hok] at hs, fun _ => ⟨hok, herr⟩, fun _ _ => ?_⟩
    rw [hcause]
    exact faultCode_range c

end Faults

section WriteTable

variable {P : Config.Parameters} {w : CommandWord} {s t : State}

/-- No word touches the command channel. -/
theorem WordEffect.commands_eq (h : WordEffect P w s t) : t.commands = s.commands := by
  cases h with
  | ignored => exact ignoreCommand_commands s
  | faulted _ c => exact raiseFault_commands s c
  | reset => simp
  | noteOn => simp
  | sample => exact sampleStep_commands _ s
  | status => exact respond_commands ..

theorem readX_sampleStep (x : Word) (s : State) (a : RingAddr) :
    (sampleStep x s).readX a = if a = s.pos then x else s.readX a := by
  have hwrite : (sampleStep x s).readX a = (s.writeX s.pos x).readX a := by
    simp only [State.readX, sampleStep_x, State.writeX_x]
  rw [hwrite]
  split_ifs with h
  · rw [h, State.readX_writeX_same]
  · exact State.readX_writeX_ne _ _ (Ne.symm h)

/-- A sample step that does not trigger leaves every slot but the emitted one as it was (44_sample_step.md R160). -/
theorem readY_sampleStep_of_no_carry {s : State} (x : Word) (hcarry : s.phase.toNat + s.delta.toNat < 2 ^ 32) {a : RingAddr}
    (ha : a ≠ s.pos) : (sampleStep x s).readY a = s.readY a := by
  have htrig : trigFlag (s.phase + s.delta) s.delta = false := by
    rw [trigFlag_eq_carry, decide_eq_false (not_le.mpr hcarry)]
  rw [readY_sampleStep, if_neg ha, ← ringPlus_offset s.pos a, grainedState_readY x s _ (a - s.pos).isLt, if_pos (.inr htrig)]

/-- A `DELTA_OF` that fits 32 bits is stored as it is (42_phase_accumulator_trigger.md R122). -/
theorem toNat_ofNat_defaultDeltaOf {f n : Nat} (hlt : defaultParameters.deltaOf f n < 2 ^ 32) :
    (BitVec.ofNat 32 (defaultParameters.deltaOf f n)).toNat = defaultDeltaOf f n :=
  (BitVec.toNat_ofNat _ _).trans (Nat.mod_eq_of_lt hlt)

/-- A word changes nothing of a faulted block (60_exceptions.md R204). -/
theorem WordEffect.sameBlock_of_err (h : WordEffect P w s t) (herr : s.err = true) : s.sameBlock t := by
  cases h with
  | ignored => exact sameBlock_respond s _ _
  | status => exact sameBlock_respond s _ _
  | faulted hok | reset hok | noteOn hok | sample hok => exact absurd herr (by simp [hok])

/-- A fault changes `ERR` and `CAUSE` alone (60_exceptions.md R201). -/
theorem WordEffect.sameBlock_of_fault (h : WordEffect P w s t) (hok : s.err = false) (hfault : t.err = true) :
    s.sameBlock { t with err := s.err, cause := s.cause } := by
  cases h with
  | faulted _ c => simp [State.sameBlock]
  | ignored | reset | noteOn | sample | status => simp [hok] at hfault

/-- Settles O20: on an unfaulted block each effect without a fault writes what its column of the table names. -/
theorem stateWriteTable : Obligations.StateWriteTable := by
  intro w s t hexec
  have heff := WordEffect.of_execute hexec
  refine ⟨heff.commands_eq, heff.sameBlock_of_err, heff.sameBlock_of_fault, fun hok ht => ?_⟩
  cases heff with
  | ignored herr => simp [hok] at herr
  | faulted _ c => simp at ht
  | reset _ hd hf hlt =>
    rw [hd]
    simpa [-BitVec.toNat_ofNat] using toNat_ofNat_defaultDeltaOf hlt
  | noteOn _ hd hlt =>
    rw [hd]
    simpa [-BitVec.toNat_ofNat] using toNat_ofNat_defaultDeltaOf hlt
  | sample _ hd =>
    rw [hd]
    refine ⟨sampleStep_cause _ s, by rw [readX_sampleStep, if_pos rfl], fun a ha => by rw [readX_sampleStep, if_neg ha],
      by rw [readY_sampleStep, if_pos rfl, zeroWord], fun hcarry a => readY_sampleStep_of_no_carry _ hcarry, ?_⟩
    simp
  | status hd =>
    rw [hd]
    exact ⟨respond_cause .., sameBlock_respond s _ _⟩

end WriteTable

end Sys2Proof.Machine
end

section
/-! SUPPORT. The bounds that the default `DELTA_OF` adds to the invariant: what a rate and a pitch of a configured block are at least
(10_state.md R26, R28, R37). -/

namespace Sys2Proof.Machine

section DefaultDelta

variable {f n b : Nat}

theorem defaultParameters_deltaOf (f n : Nat) : defaultParameters.deltaOf f n = defaultDeltaOf f n := rfl

/-- The default `DELTA_OF` without its root and its quotient (42_phase_accumulator_trigger.md R123). -/
theorem le_defaultDeltaOf_iff (hf : 1 ≤ f) (hn : n ≤ 127) :
    b ≤ defaultDeltaOf f n ↔ (b * f) ^ 12 ≤ 440 ^ 12 * 2 ^ (n + 315) := by
  have htop : 440 ^ 12 * 2 ^ (n + 315) / f ^ 12 < (0 + 2 ^ 46) ^ 12 :=
    calc 440 ^ 12 * 2 ^ (n + 315) / f ^ 12 ≤ 440 ^ 12 * 2 ^ (n + 315) := Nat.div_le_self _ _
      _ < 2 ^ 110 * 2 ^ (n + 315) := by gcongr; norm_num
      _ = 2 ^ (n + 425) := by rw [← Nat.pow_add, Nat.add_comm, Nat.add_assoc]
      _ ≤ 2 ^ (46 * 12) := Nat.pow_le_pow_right Nat.two_pos (by omega)
      _ = (0 + 2 ^ 46) ^ 12 := by rw [Nat.zero_add, ← Nat.pow_mul]
  obtain ⟨hlo, hhi⟩ := rootFloor_between 46 0 (Nat.zero_le _) htop
  have hroot : b ≤ defaultDeltaOf f n ↔ b ^ 12 ≤ 440 ^ 12 * 2 ^ (n + 315) / f ^ 12 :=
    ⟨fun hb => (Nat.pow_le_pow_left hb 12).trans hlo,
      fun hb => Nat.le_of_lt_succ (lt_of_pow_lt_pow_left₀ 12 (Nat.zero_le _) (hb.trans_lt hhi))⟩
  rw [hroot, Nat.le_div_iff_mul_le (Nat.pow_pos hf), mul_pow]

/-- With the default `DELTA_OF` no 32-bit rate and no note give less than 8 (42_phase_accumulator_trigger.md R124). -/
theorem eight_le_defaultDeltaOf (hf : 1 ≤ f) (hf32 : f < 2 ^ 32) (hn : n ≤ 127) : 8 ≤ defaultDeltaOf f n := by
  rw [le_defaultDeltaOf_iff hf hn]
  calc (8 * f) ^ 12 ≤ (2 ^ 35) ^ 12 := Nat.pow_le_pow_left (by omega) 12
    _ = 2 ^ (35 * 12) := (Nat.pow_mul ..).symm
    _ ≤ 2 ^ (105 + (n + 315)) := Nat.pow_le_pow_right Nat.two_pos (by omega)
    _ = 2 ^ 105 * 2 ^ (n + 315) := Nat.pow_add ..
    _ ≤ 440 ^ 12 * 2 ^ (n + 315) := by gcongr ?_ * _; norm_num

/-- RESET stores the `DELTA` of the default note from 221 Hz on (45_control.md R181). -/
theorem rate_ge_of_defaultDeltaOf_lt (hf : 1 ≤ f) (hlt : defaultDeltaOf f 57 < 2 ^ 32) : 221 ≤ f := by
  by_contra hlow
  refine absurd hlt (not_lt.mpr ((le_defaultDeltaOf_iff hf (by norm_num)).mpr ?_))
  calc (2 ^ 32 * f) ^ 12 ≤ (2 ^ 32 * 220) ^ 12 := Nat.pow_le_pow_left (Nat.mul_le_mul_left _ (by omega)) 12
    _ = (440 * 2 ^ 31) ^ 12 := by norm_num
    _ = 440 ^ 12 * 2 ^ (57 + 315) := by rw [Nat.mul_pow, ← Nat.pow_mul]

end DefaultDelta

section DefaultInvariant

variable {P : Config.Parameters} {w : CommandWord} {s t : State}

/-- A word leaves `FS` and `CFG` alone, or is a RESET whose rate passes its checks (10_state.md R28, R29). -/
theorem WordEffect.fs_cfg (h : WordEffect P w s t) :
    (t.fs = s.fs ∧ t.cfg = s.cfg) ∨ (t.fs ≠ 0#32 ∧ P.deltaOf t.fs.toNat 57 < 2 ^ 32) := by
  cases h with
  | ignored => exact .inl ⟨ignoreCommand_fs s, ignoreCommand_cfg s⟩
  | faulted _ c => exact .inl ⟨raiseFault_fs s c, raiseFault_cfg s c⟩
  | reset _ _ hf hlt =>
    rw [respond_fs, warmReset_fs]
    exact .inr ⟨hf, hlt⟩
  | noteOn => left; simp
  | sample => exact .inl ⟨sampleStep_fs _ s, sampleStep_cfg _ s⟩
  | status => exact .inl ⟨respond_fs .., respond_cfg ..⟩

theorem step_fs_cfg (h : step s = .next t) :
    (t.fs = s.fs ∧ t.cfg = s.cfg) ∨ (t.fs ≠ 0#32 ∧ defaultParameters.deltaOf t.fs.toNat 57 < 2 ^ 32) := by
  rcases step_next_cases h with rfl | ⟨w, ws, -, heff⟩
  · exact .inl ⟨rfl, rfl⟩
  · exact heff.fs_cfg

/-- A pitch of the default `DELTA_OF` is at least 8: the other clauses of the invariant already say so (10_state.md R26). -/
theorem InvOver.eight_le_delta (h : InvOver defaultParameters s) (hcfg : s.cfg = true) : 8 ≤ s.delta.toNat := by
  obtain ⟨-, n, hdelta⟩ := h.pitch hcfg
  rw [hdelta]
  exact eight_le_defaultDeltaOf (h.rate hcfg) s.fs.isLt (Nat.le_of_lt_succ n.isLt)

/-- Settles O54: over the default parameters the invariant is kept as over any, the bound on `DELTA` follows from it, and the one on
`FS` holds of every rate that RESET accepts. -/
theorem stepKeepsTheInvariant : Obligations.StepKeepsTheInvariant := by
  intro s t h hstep
  have hover : InvOver defaultParameters t :=
    stepKeepsTheInvariantOverAnyParameters defaultParameters s t h.toInvOver (step_eq_stepOver ▸ hstep)
  refine { toInvOver := hover, defaultRate := fun hcfg => ?_, defaultPitch := hover.eight_le_delta }
  rcases step_fs_cfg hstep with ⟨hfs, hc⟩ | ⟨-, hlt⟩
  · rw [hfs]
    exact h.defaultRate (hc ▸ hcfg)
  · rw [defaultParameters_deltaOf] at hlt
    exact rate_ge_of_defaultDeltaOf_lt (hover.rate hcfg) hlt

/-- Power-on sets up the invariant over any parameters (70_reset_and_hazards.md R230). -/
theorem invOver_powerOn (P : Config.Parameters) : InvOver P (State.powerOn P) where
  noCause := fun _ => rfl
  someCause := fun herr => nomatch herr
  notConfigured := fun herr => nomatch herr
  unconfigured := by simp [State.powerOn, State.readX, State.readY, State.readR, zeroWord]
  rate := fun hcfg => nomatch hcfg
  pitch := fun hcfg => nomatch hcfg
  window := rfl
  energy := by simp [State.powerOn, State.readR, zeroWord, isEnergy]
  cleanR := fun L => by simpa [State.powerOn, State.readR, zeroWord] using isClean_zero
  cleanY := fun a => by simpa [State.powerOn, State.readY, zeroWord] using isClean_zero

/-- Settles O53: the bounds of the default parameters speak of a configured block alone. -/
theorem resetMeetsTheInvariant : Obligations.ResetMeetsTheInvariant :=
  ⟨{ toInvOver := invOver_powerOn defaultParameters
     defaultRate := fun hcfg => nomatch hcfg
     defaultPitch := fun hcfg => nomatch hcfg }, invOver_powerOn⟩

end DefaultInvariant

end Sys2Proof.Machine
end

section
/-! SUPPORT. Dead input history: no command reads an entry `X[POS ⊕ j]`, `0 <= j <= 128`, so two blocks that differ only there answer
alike and go on differing only there (10_state.md R36). Each shared operation keeps that relation of two states, and so does each
command. -/

namespace Sys2Proof.Machine

section Relation

variable {s t : State}

/-- The relation, field by field. -/
theorem sameButDeadInput_iff : sameButDeadInput s t ↔
    (t.y = s.y ∧ t.r = s.r ∧ t.w = s.w ∧ t.phase = s.phase ∧ t.delta = s.delta ∧ t.pos = s.pos ∧ t.fs = s.fs ∧ t.cfg = s.cfg ∧
      t.err = s.err ∧ t.cause = s.cause ∧ t.commands = s.commands ∧ t.responses = s.responses) ∧
    ∀ L : Nat, 1 ≤ L → L ≤ 127 → s.readX (ringMinus s.pos L) = t.readX (ringMinus s.pos L) := by
  refine and_congr_left fun _ => ?_
  cases s
  cases t
  simp only [State.mk.injEq, true_and]

theorem sameButDeadInput_refl (s : State) : sameButDeadInput s s := ⟨rfl, fun _ _ _ => rfl⟩

/-- The other state is the one state with another `X`. -/
theorem sameButDeadInput.exists_x (h : sameButDeadInput s t) : ∃ v, t = { s with x := v } := ⟨t.x, h.1⟩

theorem sameButDeadInput.err_eq (h : sameButDeadInput s t) : t.err = s.err := by
  obtain ⟨v, rfl⟩ := h.exists_x
  rfl

theorem sameButDeadInput.cfg_eq (h : sameButDeadInput s t) : t.cfg = s.cfg := by
  obtain ⟨v, rfl⟩ := h.exists_x
  rfl

theorem sameButDeadInput.fs_eq (h : sameButDeadInput s t) : t.fs = s.fs := by
  obtain ⟨v, rfl⟩ := h.exists_x
  rfl

end Relation

section Operations

variable {s t : State}

theorem sameButDeadInput.respond (h : sameButDeadInput s t) (data : Word) (trig : Bool) :
    sameButDeadInput (respond data trig s) (respond data trig t) := by
  obtain ⟨v, rfl⟩ := h.exists_x
  exact ⟨rfl, h.2⟩

theorem sameButDeadInput.raiseFault (h : sameButDeadInput s t) (c : FaultCause) :
    sameButDeadInput (raiseFault c s) (raiseFault c t) := by
  obtain ⟨v, rfl⟩ := h.exists_x
  exact ⟨rfl, h.2⟩

theorem sameButDeadInput.setDelta (h : sameButDeadInput s t) (d : Word) : sameButDeadInput (s.setDelta d) (t.setDelta d) := by
  obtain ⟨v, rfl⟩ := h.exists_x
  exact ⟨rfl, h.2⟩

/-- A warm reset clears all of `X`, so it makes the two states equal (70_reset_and_hazards.md R232). -/
theorem sameButDeadInput.warmReset (h : sameButDeadInput s t) (f : Word) (d : Nat) : warmReset f d t = warmReset f d s := by
  obtain ⟨v, rfl⟩ := h.exists_x
  rfl

theorem sameButDeadInput.statusWord (h : sameButDeadInput s t) : statusWord t = statusWord s := by
  obtain ⟨v, rfl⟩ := h.exists_x
  rfl

end Operations

section SampleStep

variable {s t : State}

/-- The lags read `X[POS]`, which the step has just written, and the live entries (41_leaky_autocorrelator.md R100). -/
theorem sameButDeadInput.blendedState_r (h : sameButDeadInput s t) (x : Word) : (blendedState x t).r = (blendedState x s).r := by
  obtain ⟨⟨-, hr, -, -, -, hpos, -⟩, hlive⟩ := sameButDeadInput_iff.mp h
  refine State.r_ext fun L => ?_
  have hold : t.readR L = s.readR L := by simp only [State.readR, hr]
  rw [blendedState_readR, blendedState_readR, hold, hpos]
  split_ifs with h0
  · rfl
  · have hL : L.toNat ≠ 0 := fun hz => h0 (BitVec.eq_of_toNat_eq hz)
    rw [hlive L.toNat (by omega) (Nat.le_of_lt_succ L.isLt)]

/-- A grain reads `R` and `W`, and no input (43_overlap_add_synthesizer.md R140). -/
theorem sameButDeadInput.grainedState_y (h : sameButDeadInput s t) (x : Word) : (grainedState x t).y = (grainedState x s).y := by
  obtain ⟨⟨hy, -, hw, hphase, hdelta, hpos, -⟩, -⟩ := sameButDeadInput_iff.mp h
  have hterm : ∀ j, offsetTerm (blendedState x t) j = offsetTerm (blendedState x s) j :=
    offsetTerm_congr (h.blendedState_r x) (by rw [blendedState_w, blendedState_w, hw])
  have hold : ∀ a, t.readY a = s.readY a := fun a => by simp only [State.readY, hy]
  refine State.y_ext fun a => ?_
  have hs := grainedState_readY x s _ (a - s.pos).isLt
  have ht := grainedState_readY x t _ (a - t.pos).isLt
  rw [ringPlus_offset] at hs ht
  rw [hs, ht, hterm, hold, hphase, hdelta, hpos]

/-- The entries before the advanced `POS` are the one just written and live entries before the old `POS`. -/
theorem ringMinus_ringPlus_one (p : RingAddr) {L : Nat} (hL : 1 ≤ L) : ringMinus (ringPlus p 1) L = ringMinus p (L - 1 : Nat) := by
  obtain ⟨k, rfl⟩ := Nat.exists_eq_add_of_le hL
  rw [ringMinus_natCast, ringMinus_natCast, ← Nat.cast_one, ringPlus_natCast, Nat.add_sub_cancel_left, BitVec.ofNat_add,
    sub_add_eq_sub_sub, add_sub_cancel_right]

theorem sameButDeadInput.sampleStep (h : sameButDeadInput s t) (x : Word) : sameButDeadInput (sampleStep x s) (sampleStep x t) := by
  obtain ⟨⟨hy, hr, hw, hphase, hdelta, hpos, hfs, hcfg, herr, hcause, hcommands, hresponses⟩, hlive⟩ := sameButDeadInput_iff.mp h
  refine sameButDeadInput_iff.mpr ⟨?_, fun L h1 h127 => ?_⟩
  · simp only [sampleStep_y, sampleStep_r, sampleStep_w, sampleStep_phase, sampleStep_delta, sampleStep_pos, sampleStep_fs,
      sampleStep_cfg, sampleStep_err, sampleStep_cause, sampleStep_commands, sampleStep_responses, State.readY, h.blendedState_r x,
      h.grainedState_y x, hw, hphase, hdelta, hpos, hfs, hcfg, herr, hcause, hcommands, hresponses, and_self]
  · rw [sampleStep_pos, ringMinus_ringPlus_one _ h1, readX_sampleStep, readX_sampleStep, hpos]
    split_ifs with ha
    · rfl
    · have hL : L - 1 ≠ 0 := fun h0 => ha (by simp [h0, ringMinus])
      exact hlive (L - 1) (by omega) (by omega)

end SampleStep

section Commands

variable {P : Config.Parameters} {s t : State}

theorem sameButDeadInput.unlessFaulted {body : State → State} (h : sameButDeadInput s t)
    (hbody : sameButDeadInput (body s) (body t)) : sameButDeadInput (unlessFaulted body s) (unlessFaulted body t) := by
  rw [Machine.unlessFaulted, Machine.unlessFaulted, h.err_eq]
  split_ifs
  · exact h.respond _ _
  · exact hbody

theorem sameButDeadInput.resetCommand (h : sameButDeadInput s t) (f : Word) :
    sameButDeadInput (resetCommand P f s) (resetCommand P f t) := by
  simp only [Machine.resetCommand]
  split_ifs
  · exact h.raiseFault _
  · exact h.raiseFault _
  · rw [h.warmReset]
    exact sameButDeadInput_refl _

theorem sameButDeadInput.noteOnCommand (h : sameButDeadInput s t) (n : Note) :
    sameButDeadInput (noteOnCommand P n s) (noteOnCommand P n t) := by
  simp only [Machine.noteOnCommand, h.cfg_eq, h.fs_eq]
  split_ifs
  · exact h.raiseFault _
  · exact h.raiseFault _
  · exact (h.setDelta _).respond _ _

theorem sameButDeadInput.sampleCommand (h : sameButDeadInput s t) (x : Word) :
    sameButDeadInput (sampleCommand x s) (sampleCommand x t) := by
  rw [Machine.sampleCommand, Machine.sampleCommand, h.cfg_eq]
  split_ifs
  · exact h.raiseFault _
  · exact h.sampleStep x

/-- Every word completes on both states, with results that differ only in dead input history. -/
theorem sameButDeadInput.execute (h : sameButDeadInput s t) (w : CommandWord) :
    ∃ s' t', execute w s = .next s' ∧ execute w t = .next t' ∧ sameButDeadInput s' t' := by
  cases hd : decode w with
  | error e =>
    rw [execute_of_illegal s hd, execute_of_illegal t hd]
    exact ⟨_, _, rfl, rfl, h.unlessFaulted (h.raiseFault _)⟩
  | ok i =>
    rw [execute_of_decode s hd, execute_of_decode t hd]
    cases i with
    | reset f => exact ⟨_, _, rfl, rfl, h.unlessFaulted (h.resetCommand f)⟩
    | noteOn n => exact ⟨_, _, rfl, rfl, h.unlessFaulted (h.noteOnCommand n)⟩
    | sample x => exact ⟨_, _, rfl, rfl, h.unlessFaulted (h.sampleCommand x)⟩
    | status =>
      refine ⟨_, _, rfl, rfl, ?_⟩
      rw [h.statusWord]
      exact h.respond _ _

/-- Settles O32: every command keeps the relation; only SAMPLE reads `X`, and it reads live entries alone. -/
theorem deadInputHistoryIsNeverRead : Obligations.DeadInputHistoryIsNeverRead := by
  intro w s t s' h hs
  obtain ⟨u, t', hu, ht, hsame⟩ := h.execute w
  rw [hu] at hs
  cases hs
  exact ⟨t', ht, hsame⟩

end Commands

end Sys2Proof.Machine
end

section
/-! SUPPORT. The encoding of commands read back: the word of a command decodes to that command (30_encoding.md R71 to R73), and the
eight bytes of a word are its base-256 digits, the least significant first (20_memory.md R55). -/

namespace Sys2Proof.Machine

section Encoding

/-- The low seven bits of the payload of NOTE_ON are its note and the others are zero (30_encoding.md R73). -/
theorem notePayload_fields (n : Note) :
    (0#25 ++ n : Word).extractLsb' 7 25 = 0#25 ∧ (0#25 ++ n : Word).extractLsb' 0 7 = n :=
  ⟨BitVec.extractLsb'_append_eq_left, BitVec.extractLsb'_append_eq_right⟩

theorem decode_encode (i : Instr) : decode (encode i) = .ok i := by
  have fields := Laws.EncodesLegally.fields_commandWord
  simp only [CommandWord.op, CommandWord.rsv, CommandWord.pay] at fields
  cases i with
  | reset fs =>
    obtain ⟨hop, hrsv, hpay⟩ := fields 0x01#8 0#24 fs
    simp [decode, encode, hop, hrsv, hpay]
  | noteOn n =>
    obtain ⟨hop, hrsv, hpay⟩ := fields 0x02#8 0#24 (0#25 ++ n)
    obtain ⟨hzero, hnote⟩ := notePayload_fields n
    simp only [decode, encode, hop, hrsv, hpay, hzero, hnote]
    rfl
  | sample x =>
    obtain ⟨hop, hrsv, hpay⟩ := fields 0x03#8 0#24 x
    simp [decode, encode, hop, hrsv, hpay]
  | status => decide

end Encoding

section Bytes

/-- The number whose base-256 digits are the bytes, the least significant first. -/
def bytesValue (bs : List Byte) : Nat := Nat.ofDigits 256 (bs.map BitVec.toNat)

theorem wordOfBytes_eq_bytesValue (bs : List Byte) : wordOfBytes bs = BitVec.ofNat 64 (bytesValue bs) := by
  simp [wordOfBytes, bytesValue, Nat.ofDigits_eq_foldr, List.foldr_map]

theorem byteDigits_lt (bs : List Byte) : ∀ d ∈ bs.map BitVec.toNat, d < 256 := by
  intro d hd
  obtain ⟨b, -, rfl⟩ := List.mem_map.mp hd
  exact b.isLt

theorem bytesValue_lt (bs : List Byte) : bytesValue bs < 256 ^ bs.length := by
  simpa [bytesValue] using Nat.ofDigits_lt_base_pow_length (by norm_num) (byteDigits_lt bs)

theorem bytesValue_inj {bs cs : List Byte} (hlen : bs.length = cs.length) (h : bytesValue bs = bytesValue cs) : bs = cs :=
  List.map_injective_iff.mpr (fun _ _ => BitVec.eq_of_toNat_eq) <|
    Nat.ofDigits_inj_of_len_eq (by norm_num) (by simpa using hlen) (byteDigits_lt bs) (byteDigits_lt cs) h

/-- The lowest `k` bytes of a word hold its lowest `k` base-256 digits. -/
theorem bytesValue_lowBytes (w : BitVec 64) (k : Nat) :
    bytesValue ((List.range k).map fun i => w.extractLsb' (8 * i) 8) = w.toNat % 256 ^ k := by
  induction k with
  | zero => simp [bytesValue, Nat.mod_one]
  | succ k ih =>
    have hbyte : (w.extractLsb' (8 * k) 8).toNat = w.toNat / 256 ^ k % 256 := by
      rw [BitVec.extractLsb'_toNat, Nat.shiftRight_eq_div_pow, pow_mul]
      norm_num
    rw [bytesValue] at ih ⊢
    rw [List.range_succ, List.map_append, List.map_append, Nat.ofDigits_append, ih, Nat.mod_pow_succ]
    simp [hbyte]

@[simp] theorem length_wordBytes (w : BitVec 64) : (wordBytes w).length = 8 := by simp [wordBytes]

/-- Byte `i` carries bits `8i+7:8i` (20_memory.md R55). -/
theorem getElem?_wordBytes (w : BitVec 64) {i : Nat} (hi : i < 8) : (wordBytes w)[i]? = some (w.extractLsb' (8 * i) 8) := by
  simp [wordBytes, hi]

@[simp] theorem wordOfBytes_wordBytes (w : BitVec 64) : wordOfBytes (wordBytes w) = w := by
  have hlt : w.toNat < 256 ^ 8 := w.isLt
  rw [wordOfBytes_eq_bytesValue, wordBytes, bytesValue_lowBytes, Nat.mod_eq_of_lt hlt, BitVec.ofNat_toNat, BitVec.setWidth_eq]

theorem toNat_wordOfBytes {bs : List Byte} (hlen : bs.length = 8) : (wordOfBytes bs).toNat = bytesValue bs := by
  have hlt : bytesValue bs < 2 ^ 64 := by simpa [hlen] using bytesValue_lt bs
  rw [wordOfBytes_eq_bytesValue, BitVec.toNat_ofNat, Nat.mod_eq_of_lt hlt]

/-- Eight bytes are determined by the word they carry, and the bytes of that word carry it too. -/
theorem wordBytes_wordOfBytes {bs : List Byte} (hlen : bs.length = 8) : wordBytes (wordOfBytes bs) = bs := by
  refine bytesValue_inj (by rw [length_wordBytes, hlen]) ?_
  rw [← toNat_wordOfBytes (length_wordBytes _), wordOfBytes_wordBytes, toNat_wordOfBytes hlen]

/-- Decoding reads the first eight bytes alone and leaves the rest (30_encoding.md R78). -/
theorem decodeBytes_wordBytes_append (w : CommandWord) (rest : List Byte) :
    decodeBytes (wordBytes w ++ rest) = (decode w).map fun i => (i, rest) := by
  have hlen := length_wordBytes w
  have hlong : ¬ (wordBytes w ++ rest).length < 8 := by rw [List.length_append, hlen]; omega
  rw [decodeBytes, if_neg hlong, List.take_left' hlen, List.drop_left' hlen, wordOfBytes_wordBytes]

/-- Settles O4: the bytes of a word are its eight base-256 digits, and the first eight bytes of a stream alone are decoded. -/
theorem byteLinkCarriesWords : Obligations.ByteLinkCarriesWords := by
  refine ⟨wordOfBytes_wordBytes, fun _ => wordBytes_wordOfBytes, fun w _ => getElem?_wordBytes w, fun i rest => ?_⟩
  rw [decodeBytes_wordBytes_append, decode_encode]
  rfl

end Bytes

end Sys2Proof.Machine
end

section
/-! SUPPORT. The decoder read from the fields of a word: each command is decoded from exactly one word, its encoding
(30_encoding.md R71 to R74), and the words that decode to none are those that `legal` refuses (30_encoding.md R76, R77). With it, what
executing a legal or an illegal word, and so a step, comes to. -/

namespace Sys2Proof.Machine

section Decoder

variable {w : CommandWord} {i : Instr}

/-- A word is put together from its three fields (30_encoding.md R71). -/
theorem commandWord_fields (w : CommandWord) : commandWord (CommandWord.op w) (CommandWord.rsv w) (CommandWord.pay w) = w := by
  have hhigh : CommandWord.op w ++ CommandWord.rsv w = w.extractLsb' 32 32 :=
    BitVec.extractLsb'_append_extractLsb'_eq_extractLsb' rfl
  have hword : w.extractLsb' 32 32 ++ CommandWord.pay w = w.extractLsb' 0 64 :=
    BitVec.extractLsb'_append_extractLsb'_eq_extractLsb' rfl
  rw [commandWord, hhigh, hword, BitVec.extractLsb'_eq_self]

/-- The payload of NOTE_ON is its reserved bits 31:7 over the note in its bits 6:0 (30_encoding.md R73). -/
theorem noteReserved_append_note (w : CommandWord) : CommandWord.noteReserved w ++ w.extractLsb' 0 7 = CommandWord.pay w :=
  BitVec.extractLsb'_append_extractLsb'_eq_extractLsb' rfl

/-- `legal` of `Execute` as a condition on the fields (30_encoding.md R76). -/
theorem legal_iff_fields : CommandWord.legal w = true ↔ CommandWord.rsv w = 0#24 ∧
    (CommandWord.op w = 0x01#8 ∨ (CommandWord.op w = 0x02#8 ∧ CommandWord.noteReserved w = 0#25) ∨
      CommandWord.op w = 0x03#8 ∨ (CommandWord.op w = 0x04#8 ∧ CommandWord.pay w = 0#32)) := by
  simp only [CommandWord.legal, Bool.or_eq_true, Bool.and_eq_true, beq_iff_eq]
  tauto

/-- The legal words are the words of the commands (30_encoding.md R72, R73). -/
theorem legal_iff_exists_encode : CommandWord.legal w = true ↔ ∃ i, encode i = w := by
  constructor
  · intro h
    have hfields := commandWord_fields w
    obtain ⟨hrsv, hop | ⟨hop, hnote⟩ | hop | ⟨hop, hpay⟩⟩ := legal_iff_fields.mp h <;> rw [hop, hrsv] at hfields
    · exact ⟨.reset (CommandWord.pay w), hfields⟩
    · exact ⟨.noteOn (w.extractLsb' 0 7), by rw [encode, ← hnote, noteReserved_append_note, hfields]⟩
    · exact ⟨.sample (CommandWord.pay w), hfields⟩
    · exact ⟨.status, by rw [hpay] at hfields; exact hfields⟩
  · rintro ⟨i, rfl⟩
    cases i with
    | reset fs => exact (Laws.EncodesLegally.reset fs).1
    | noteOn n => exact (Laws.EncodesLegally.noteOn n).1
    | sample x => exact (Laws.EncodesLegally.sample x).1
    | status => exact Laws.EncodesLegally.status.1

/-- The decoder accepts legal words only (30_encoding.md R77). -/
theorem legal_of_decode (h : decode w = .ok i) : CommandWord.legal w = true := by
  have hnote : (CommandWord.pay w).extractLsb' 7 25 = CommandWord.noteReserved w := by
    rw [← noteReserved_append_note]
    exact BitVec.extractLsb'_append_eq_left
  rw [legal_iff_fields, ← hnote]
  simp only [decode] at h
  simp only [CommandWord.op, CommandWord.rsv, CommandWord.pay]
  split_ifs at h with h1 hr h2 hr hn h3 hr h4 hr hp
  · exact ⟨hr, .inl h1⟩
  · exact ⟨hr, .inr (.inl ⟨h2, hn⟩)⟩
  · exact ⟨hr, .inr (.inr (.inl h3))⟩
  · exact ⟨hr, .inr (.inr (.inr ⟨h4, hp⟩))⟩

/-- A word decodes to a command exactly where it is the command's word (30_encoding.md R74). -/
theorem decode_eq_ok_iff : decode w = .ok i ↔ encode i = w := by
  constructor
  · intro h
    obtain ⟨j, rfl⟩ := legal_iff_exists_encode.mp (legal_of_decode h)
    rw [decode_encode] at h
    cases h
    rfl
  · rintro rfl
    exact decode_encode i

/-- The well-formedness check refuses exactly what the decoder refuses (30_encoding.md R76, R77). -/
theorem legal_eq_false_iff : CommandWord.legal w = false ↔ ∃ e, decode w = .error e := by
  cases hd : decode w with
  | ok i => simp [legal_of_decode hd]
  | error e =>
    have hno : ¬ ∃ i, encode i = w := fun ⟨i, hi⟩ => by simp [decode_eq_ok_iff.mpr hi] at hd
    rw [← legal_iff_exists_encode, Bool.not_eq_true] at hno
    simp [hno]

/-- Settles O1: a legal word is the word of the one command it decodes to. -/
theorem decodeEncodeAgree : Obligations.DecodeEncodeAgree := ⟨decode_encode, fun _ _ => decode_eq_ok_iff.mp⟩

/-- Settles O3: the legal words are the encodings of their commands, and each illegal one has a single field at fault. -/
theorem specWordsDecode : Obligations.SpecWordsDecode := by
  have word := fun (i : Instr) (w : CommandWord) (h : encode i = w) => decode_eq_ok_iff.mpr h
  exact ⟨word (.reset 44100#32) _ rfl, word (.reset 4294967295#32) _ rfl, word (.noteOn 69#7) _ rfl, word (.noteOn 127#7) _ rfl,
    by decide, word (.sample 0x3F800000#32) _ rfl, by decide, word .status _ rfl, by decide, by decide⟩

end Decoder

section IllegalWords

variable {w : CommandWord} {s : State}

/-- An opcode is illegal, or one of the four commands' (30_encoding.md R72). -/
theorem opcode_cases (op : BitVec 8) :
    (op = 0x00#8 ∨ 5 ≤ op.toNat) ∨ op = 0x01#8 ∨ op = 0x02#8 ∨ op = 0x03#8 ∨ op = 0x04#8 := by
  bv_omega

/-- The illegal words, field by field (30_encoding.md R77). -/
theorem legal_eq_false_iff_fields : CommandWord.legal w = false ↔
    CommandWord.op w = 0x00#8 ∨ 5 ≤ (CommandWord.op w).toNat ∨ CommandWord.rsv w ≠ 0#24 ∨
      (CommandWord.op w = 0x02#8 ∧ CommandWord.noteReserved w ≠ 0#25) ∨
      (CommandWord.op w = 0x04#8 ∧ CommandWord.pay w ≠ 0#32) := by
  rw [← Bool.not_eq_true, legal_iff_fields]
  rcases opcode_cases (CommandWord.op w) with (hop | hop) | hop | hop | hop | hop
  · simp [hop]
  · have hne : ∀ k < 5, CommandWord.op w ≠ BitVec.ofNat 8 k := by
      intro k hk he
      rw [he, BitVec.toNat_ofNat] at hop
      omega
    simp [hop, hne]
  · simp [hop]
  · simp [hop, imp_iff_not_or]
  · simp [hop]
  · simp [hop, imp_iff_not_or]

theorem illegalCommand_of_ok (h : s.err = false) : illegalCommand s =
    .next { s with err := true, cause := 1#4, responses := s.responses ++ [0x0000000200000000#64] } := by
  rw [illegalCommand, unlessFaulted_of_ok h, raiseFault_eq, faultCode]

theorem illegalCommand_of_err (h : s.err = true) : illegalCommand s =
    .next { s with responses := s.responses ++ [0x0000000200000000#64] } := by
  rw [illegalCommand, unlessFaulted_of_err h, ignoreCommand, respond, h, responseWord_fault_zero]

/-- Settles O2: the decoder and the check refuse the same words, and refusing is the fault ILLEGAL_COMMAND or nothing. -/
theorem illegalWordsRaiseIllegalCommand : Obligations.IllegalWordsRaiseIllegalCommand := by
  refine ⟨fun w => legal_eq_false_iff.symm.trans legal_eq_false_iff_fields, fun w => legal_eq_false_iff, fun w s hw hs => ?_,
    fun w s hw hs => ?_⟩ <;> obtain ⟨e, he⟩ := legal_eq_false_iff.mp hw
  · rw [execute_of_illegal s he, illegalCommand_of_ok hs]
  · rw [execute_of_illegal s he, illegalCommand_of_err hs]

/-- Settles O6: the step of a block with a word on its channel is that word's command, or the response to an illegal word. -/
theorem stepRunsTheDecodedCommand : Obligations.StepRunsTheDecodedCommand := by
  intro s w ws h
  rw [step_command s h]
  refine ⟨rfl, fun i hi => execute_of_decode _ hi, fun e he hs => ?_, fun e he hs => ?_⟩
  · exact (execute_of_illegal _ he).trans (illegalCommand_of_ok hs)
  · exact (execute_of_illegal _ he).trans (illegalCommand_of_err hs)

end IllegalWords

end Sys2Proof.Machine
end

section
/-! SUPPORT. The response word: its fields, and what each effect of a command word puts into them (30_encoding.md R75). -/

namespace Sys2Proof.Machine

section ResponseFields

variable (err trig : Bool) (data : Word)

@[simp] theorem responseWord_data : (responseWord err trig data).extractLsb' 0 32 = data :=
  BitVec.extractLsb'_append_eq_right

@[simp] theorem responseWord_trig : (responseWord err trig data)[32] = trig := by
  rw [← BitVec.getLsbD_eq_getElem, responseWord, BitVec.getLsbD_append, BitVec.getLsbD_append]
  simp [flagBit]

@[simp] theorem responseWord_err : (responseWord err trig data)[33] = err := by
  rw [← BitVec.getLsbD_eq_getElem, responseWord, BitVec.getLsbD_append, BitVec.getLsbD_append, BitVec.getLsbD_append]
  simp [flagBit]

/-- Bits 63:34 lie above the data and the two flags. -/
@[simp] theorem responseWord_reserved : (responseWord err trig data).extractLsb' 34 30 = 0#30 := by
  have hassoc : responseWord err trig data = (0#30 ++ (flagBit err ++ flagBit trig ++ data) : BitVec (30 + 34)) := by
    simp only [responseWord, BitVec.append_assoc, BitVec.cast_eq]
  rw [hassoc]
  exact BitVec.extractLsb'_append_eq_left

end ResponseFields

section Responses

variable {P : Config.Parameters} {w : CommandWord} {s t : State}

/-- The output slot is emitted as it stood before the step: a grain never writes its own anchor (44_sample_step.md R162). -/
theorem grainedState_readY_pos (x : Word) (s : State) : (grainedState x s).readY s.pos = s.readY s.pos := by
  have hanchor := grainedState_readY x s 0 (by norm_num)
  rwa [if_pos (.inl rfl), ringPlus_natCast, BitVec.add_zero] at hanchor

/-- The one response to a word that is not STATUS: that of a completed SAMPLE, or one without data (30_encoding.md R75). -/
theorem WordEffect.responses_eq (h : WordEffect P w s t) (hw : decode w ≠ .ok .status) :
    ((∃ x, decode w = .ok (.sample x)) ∧ t.err = false ∧ t.responses =
      s.responses ++ [responseWord t.err (decide (2 ^ 32 ≤ s.phase.toNat + s.delta.toNat)) (s.readY s.pos)]) ∨
    ((∀ x, decode w = .ok (.sample x) → t.err = true) ∧
      t.responses = s.responses ++ [responseWord t.err false zeroWord]) := by
  cases h with
  | ignored herr => exact .inr ⟨fun _ _ => by simpa using herr, by simp⟩
  | faulted _ c => exact .inr ⟨fun _ _ => raiseFault_err s c, by simp⟩
  | reset _ hd => exact .inr ⟨by simp [hd], by simp⟩
  | noteOn _ hd => exact .inr ⟨by simp [hd], by simp⟩
  | sample herr hd =>
    refine .inl ⟨⟨_, hd⟩, by simpa using herr, ?_⟩
    rw [sampleStep_responses, sampleStep_err, trigFlag_eq_carry, grainedState_readY_pos]
  | status hd => exact absurd hd hw

/-- STATUS answers its register, whatever the state (45_control.md R182). -/
theorem execute_status (hd : decode w = .ok .status) (s : State) : execute w s = .next (respond (statusWord s) false s) :=
  execute_of_decode s hd

/-- Settles O9: a SAMPLE that completes emits its slot and carry, STATUS its register, and every other effect answers no data. -/
theorem responseWordFields : Obligations.ResponseWordFields := by
  intro w s t h
  by_cases hstatus : decode w = .ok .status
  · rw [execute_status hstatus] at h
    cases h
    exact ⟨_, respond_responses .., by simp [hstatus]⟩
  · rcases (WordEffect.of_execute h).responses_eq hstatus with ⟨⟨x, hx⟩, hok, hrsp⟩ | ⟨hfault, hrsp⟩
    · exact ⟨_, hrsp, by simp [hx, hok]⟩
    · refine ⟨_, hrsp, by simp, by simp, fun x hx hok => ?_, fun hd => absurd hd hstatus, by simp [zeroWord]⟩
      simp [hfault x hx] at hok

/-- Settles O8: STATUS and every other word append their one response. -/
theorem everyWordGetsOneResponse : Obligations.EveryWordGetsOneResponse := by
  intro w s
  obtain ⟨t, ht, heff⟩ := executeOver_effect defaultParameters w s
  rw [← execute_eq_executeOver] at ht
  obtain ⟨rsp, hrsp, -⟩ := responseWordFields w s t ht
  exact ⟨t, rsp, ht, hrsp, heff.commands_eq⟩

end Responses

end Sys2Proof.Machine
end

section
/-! SUPPORT. The assembler: the word of each command as a number, and the rounding of a decimal operand (30_encoding.md R79, R80). -/

namespace Sys2Proof.Machine

section Words

/-- A command word with RSV zero, as a number (30_encoding.md R71). -/
theorem commandWord_eq_ofNat (op : BitVec 8) (pay : Word) :
    commandWord op 0#24 pay = BitVec.ofNat 64 (op.toNat * 2 ^ 56 + pay.toNat) := by
  apply BitVec.eq_of_toNat_eq
  have hop := op.isLt
  have hpay := pay.isLt
  rw [commandWord, BitVec.toNat_append, BitVec.toNat_append, ← Nat.shiftLeft_add_eq_or_of_lt hpay, BitVec.toNat_ofNat,
    BitVec.toNat_ofNat, Nat.zero_mod, Nat.or_zero, Nat.shiftLeft_eq, Nat.shiftLeft_eq]
  omega

theorem encode_reset_ofNat {f : Nat} (hf : f < 2 ^ 32) :
    encode (.reset (BitVec.ofNat 32 f)) = BitVec.ofNat 64 (0x01 * 2 ^ 56 + f) := by
  rw [encode, commandWord_eq_ofNat, BitVec.toNat_ofNat, BitVec.toNat_ofNat, Nat.mod_eq_of_lt hf]

theorem encode_sample_ofNat {b : Nat} (hb : b < 2 ^ 32) :
    encode (.sample (BitVec.ofNat 32 b)) = BitVec.ofNat 64 (0x03 * 2 ^ 56 + b) := by
  rw [encode, commandWord_eq_ofNat, BitVec.toNat_ofNat, BitVec.toNat_ofNat, Nat.mod_eq_of_lt hb]

theorem encode_noteOn_ofNat {n : Nat} (hn : n ≤ 127) :
    encode (.noteOn (BitVec.ofNat 7 n)) = BitVec.ofNat 64 (0x02 * 2 ^ 56 + n) := by
  have hpay : (0#25 ++ BitVec.ofNat 7 n : Word).toNat = n := by
    rw [BitVec.toNat_append, BitVec.toNat_ofNat, BitVec.toNat_ofNat, Nat.zero_mod, Nat.zero_shiftLeft, Nat.zero_or]
    omega
  rw [encode, commandWord_eq_ofNat, BitVec.toNat_ofNat, hpay]

end Words

section Decimals

variable (m : Int) (places : Nat)

/-- A decimal operand in units. -/
noncomputable def decimalUnits : ℝ := ((m.natAbs * 2 ^ 149 : ℕ) : ℝ) / (10 ^ places : ℕ)

/-- A decimal operand is its sign times its units. -/
theorem decimal_eq_units : (m : ℝ) / 10 ^ places = (signValue (decide (m < 0)) : ℝ) * (decimalUnits m places * unitValue) := by
  have hm : (m : ℝ) = (signValue (decide (m < 0)) : ℝ) * m.natAbs := by exact_mod_cast (signValue_mul_natAbs m).symm
  rw [decimalUnits, unitValue]
  nth_rw 1 [hm]
  push_cast
  field_simp
  norm_num

/-- The magnitude of a decimal operand is rounded correctly (30_encoding.md R79). -/
theorem decimalMagnitude_roundsToMagnitude : RoundsToMagnitude (decimalUnits m places) (decimalMagnitude m places) :=
  roundMagnitude_roundsToMagnitude (by positivity)

variable {m}

theorem decimalUnits_pos (hm : m ≠ 0) : 0 < decimalUnits m places := by
  have := Int.natAbs_pos.mpr hm
  unfold decimalUnits
  positivity

/-- A decimal operand is refused exactly where it overflows (30_encoding.md R79). -/
theorem decimalMagnitude_overflow_iff (hm : m ≠ 0) :
    decimalMagnitude m places = infinityMagnitude ↔ (2 : ℝ) ^ 128 - 2 ^ 103 ≤ |(m : ℝ) / 10 ^ places| := by
  have hU : (0 : ℝ) < unitValue := by exact_mod_cast unitValue_pos
  have hsign : |(signValue (decide (m < 0)) : ℝ)| = 1 := by exact_mod_cast abs_signValue _
  rw [(decimalMagnitude_roundsToMagnitude m places).overflow, decimal_eq_units, abs_mul, hsign, one_mul,
    abs_of_pos (mul_pos (decimalUnits_pos places hm) hU), ← overflowUnits_mul_unitValue, mul_le_mul_iff_left₀ hU]

theorem assemble_sampleDecimal_zero : assemble (.sampleDecimal 0 places) = some [0x0300000000000000#64] := by
  have hzero : decimalMagnitude 0 places = 0 := by rw [decimalMagnitude, Int.natAbs_zero, Nat.zero_mul, roundMagnitude_zero]
  rw [assemble, hzero]
  rfl

/-- What the assembler makes of a nonzero decimal operand (30_encoding.md R79). -/
theorem assemble_sampleDecimal (hm : m ≠ 0) :
    (assemble (.sampleDecimal m places) = none ↔ (2 : ℝ) ^ 128 - 2 ^ 103 ≤ |(m : ℝ) / 10 ^ places|) ∧
    ∀ ws, assemble (.sampleDecimal m places) = some ws →
      ∃ x : Word, ws = [encode (.sample x)] ∧ RoundsTo ((m : ℝ) / 10 ^ places) x := by
  have hround := decimalMagnitude_roundsToMagnitude m places
  rw [← decimalMagnitude_overflow_iff places hm, assemble]
  split_ifs with hfin
  · refine ⟨by simp [hfin.ne], fun ws hws => ⟨_, (Option.some.inj hws).symm, ?_⟩⟩
    exact hround.roundsTo (decimalUnits_pos places hm) (decimal_eq_units m places)
  · exact ⟨by simp [le_antisymm hround.le (not_lt.mp hfin)], fun ws hws => nomatch hws⟩

/-- Settles O5: each line gives the numbers of its words, and a decimal operand is rounded in units. -/
theorem assemblerFollowsTheSyntax : Obligations.AssemblerFollowsTheSyntax := by
  refine ⟨fun f => ?_, fun n => ?_, fun b => ?_, fun w => rfl, rfl, rfl, fun k => rfl, assemble_sampleDecimal_zero,
    fun m places hm => assemble_sampleDecimal places hm⟩ <;> rw [assemble] <;> split_ifs with h
  · rw [encode_reset_ofNat h]
  · rfl
  · rw [encode_noteOn_ofNat h]
  · rfl
  · rw [encode_sample_ofNat h]
  · rfl

end Decimals

end Sys2Proof.Machine
end

section
/-! SUPPORT. The order of patterns and rounding against it: the units of a pattern grow with its bits 30:0, and on which side of a
pattern a quotient is rounded is decided by the middle between it and the next one (00_scope.md R11, R12). -/

namespace Sys2Proof.Machine

section Order

/-- A pattern in steps: it and the next one lie `2^k` units apart (00_scope.md R11). -/
theorem exists_steps (p : Nat) : ∃ k m, p = k * 2 ^ 23 + m ∧ m < 2 ^ 24 ∧ (k = 0 ∨ 2 ^ 23 ≤ m) ∧
    patternUnits p = m * 2 ^ k ∧ patternUnits (p + 1) = (m + 1) * 2 ^ k := by
  obtain ⟨k, m, hp, hm, hk⟩ : ∃ k m, p = k * 2 ^ 23 + m ∧ m < 2 ^ 24 ∧ (k = 0 ∨ 2 ^ 23 ≤ m) :=
    ⟨p / 2 ^ 23 - 1, p - (p / 2 ^ 23 - 1) * 2 ^ 23, by omega, by omega, by omega⟩
  have hsucc : p + 1 = k * 2 ^ 23 + (m + 1) := by omega
  refine ⟨k, m, hp, hm, hk, ?_, ?_⟩
  · rw [hp, patternUnits_steps hm.le hk]
  · rw [hsucc, patternUnits_steps hm (by omega)]

theorem patternUnits_strictMono : StrictMono patternUnits := by
  refine strictMono_nat_of_lt_succ fun p => ?_
  obtain ⟨k, m, -, -, -, hp, hsucc⟩ := exists_steps p
  rw [hp, hsucc]
  exact Nat.mul_lt_mul_of_pos_right (Nat.lt_succ_self m) (by positivity)

theorem patternUnits_lt_succ (p : Nat) : patternUnits p < patternUnits (p + 1) := patternUnits_strictMono (Nat.lt_succ_self p)

theorem patternUnits_le {p q : Nat} (h : p ≤ q) : patternUnits p ≤ patternUnits q := patternUnits_strictMono.monotone h

/-- The middle between the greatest finite magnitude and the next step is the overflow bound (00_scope.md R12). -/
theorem middle_le_overflowUnits {p : Nat} (hp : p < infinityMagnitude) :
    patternUnits p + patternUnits (p + 1) ≤ 2 * overflowUnits := by
  have hlast : patternUnits (infinityMagnitude - 1) + patternUnits infinityMagnitude = 2 * overflowUnits := by decide
  have hp1 : patternUnits p ≤ patternUnits (infinityMagnitude - 1) := patternUnits_le (by omega)
  have hp2 : patternUnits (p + 1) ≤ patternUnits infinityMagnitude := patternUnits_le hp
  omega

end Order

section Sides

variable {num den p : Nat}

/-- Below the middle between `p` and the next pattern nothing is rounded past `p`. -/
theorem roundMagnitude_le_of_lt_middle (hd : 0 < den) (hp : p < infinityMagnitude)
    (h : 2 * num < (patternUnits p + patternUnits (p + 1)) * den) : roundMagnitude num den ≤ p := by
  by_contra! hlt
  rcases (roundMagnitude_le (num := num) (den := den)).lt_or_eq with hfin | hinf
  · have hnear := (roundMagnitude_nearest hd hfin p).1
    have hsucc : patternUnits (p + 1) * den ≤ patternUnits (roundMagnitude num den) * den :=
      Nat.mul_le_mul_right den (patternUnits_le hlt)
    have hstep := Nat.mul_lt_mul_of_pos_right (patternUnits_lt_succ p) hd
    rw [Nat.add_mul] at h
    simp only [distance] at hnear
    omega
  · have hover := (roundMagnitude_overflow hd).mp hinf
    have hmid := Nat.mul_le_mul_right den (middle_le_overflowUnits hp)
    rw [Nat.mul_assoc] at hmid
    omega

/-- Past the middle between `p` and the next pattern everything is rounded past `p`. -/
theorem lt_roundMagnitude_of_middle_lt (hd : 0 < den) (hp : p < infinityMagnitude)
    (h : (patternUnits p + patternUnits (p + 1)) * den < 2 * num) : p < roundMagnitude num den := by
  by_contra! hle
  have hnear := (roundMagnitude_nearest hd (lt_of_le_of_lt hle hp) (p + 1)).1
  have hmono := Nat.mul_le_mul_right den (patternUnits_le hle)
  have hstep := Nat.mul_lt_mul_of_pos_right (patternUnits_lt_succ p) hd
  rw [Nat.add_mul] at h
  simp only [distance] at hnear
  omega

/-- What is at most a finite magnitude is not rounded past it. -/
theorem roundMagnitude_le_of_le (hd : 0 < den) (hp : p < infinityMagnitude) (h : num ≤ patternUnits p * den) :
    roundMagnitude num den ≤ p := by
  refine roundMagnitude_le_of_lt_middle hd hp ?_
  have hstep := Nat.mul_lt_mul_of_pos_right (patternUnits_lt_succ p) hd
  rw [Nat.add_mul]
  omega

/-- What is at least a finite magnitude is not rounded below it. -/
theorem le_roundMagnitude_of_le (hd : 0 < den) (hp : p ≤ infinityMagnitude) (h : patternUnits p * den ≤ num) :
    p ≤ roundMagnitude num den := by
  cases p with
  | zero => exact Nat.zero_le _
  | succ q =>
    refine lt_roundMagnitude_of_middle_lt hd hp ?_
    have hstep := Nat.mul_lt_mul_of_pos_right (patternUnits_lt_succ q) hd
    rw [Nat.add_mul]
    omega

/-- A finite magnitude is rounded to itself. -/
theorem roundMagnitude_patternUnits (hp : p < infinityMagnitude) : roundMagnitude (patternUnits p) 1 = p :=
  le_antisymm (roundMagnitude_le_of_le Nat.one_pos hp (Nat.mul_one _).ge)
    (le_roundMagnitude_of_le Nat.one_pos hp.le (Nat.mul_one _).le)

end Sides

section Bounds

variable {a b w : Word} {p : Nat}

theorem magnitudeUnits_le_of_magnitudeBits_le (h : magnitudeBits w ≤ p) : magnitudeUnits w ≤ patternUnits p := by
  rw [magnitudeUnits_eq_patternUnits]
  exact patternUnits_le h

theorem isFinite_of_magnitudeBits_le (h : magnitudeBits w ≤ p) (hp : p < infinityMagnitude) : isFinite w :=
  (isFinite_iff_magnitudeBits w).mpr (lt_of_le_of_lt h hp)

/-- A product is not rounded past a finite magnitude that it does not pass. -/
theorem magnitudeBits_fmul_le (ha : isFinite a) (hb : isFinite b) (hp : p < infinityMagnitude)
    (h : magnitudeUnits a * magnitudeUnits b ≤ patternUnits p * 2 ^ 149) : magnitudeBits (fmul a b) ≤ p := by
  rw [fmul_of_isFinite ha hb, magnitudeBits_packFloat (lt_of_le_infinityMagnitude roundMagnitude_le)]
  exact roundMagnitude_le_of_le (by positivity) hp h

theorem natAbs_signedUnits (neg : Bool) (m : Nat) : (signedUnits neg m).natAbs = m := by
  cases neg <;> simp [signedUnits]

theorem natAbs_sumUnits_le (a b : Word) : (sumUnits a b).natAbs ≤ magnitudeUnits a + magnitudeUnits b := by
  have htri := Int.natAbs_add_le (signedUnits (signBit a) (magnitudeUnits a)) (signedUnits (signBit b) (magnitudeUnits b))
  rwa [natAbs_signedUnits, natAbs_signedUnits] at htri

/-- A sum is not rounded past a finite magnitude that the operands' magnitudes together do not pass. -/
theorem magnitudeBits_fadd_le (ha : isFinite a) (hb : isFinite b) (hp : p < infinityMagnitude)
    (h : magnitudeUnits a + magnitudeUnits b ≤ patternUnits p) : magnitudeBits (fadd a b) ≤ p := by
  rw [fadd_of_isFinite ha hb]
  split_ifs
  · rw [magnitudeBits_packFloat (by norm_num)]
    exact Nat.zero_le p
  · rw [magnitudeBits_packFloat (lt_of_le_infinityMagnitude roundMagnitude_le)]
    refine roundMagnitude_le_of_le Nat.one_pos hp ?_
    rw [Nat.mul_one]
    exact (natAbs_sumUnits_le a b).trans h

end Bounds

end Sys2Proof.Machine
end

section
/-! SUPPORT. The constants of the update and what decay does to a finite value: it keeps the sign, and it stops at the 200 smallest
subnormals (41_leaky_autocorrelator.md R101, R105). -/

namespace Sys2Proof.Machine

section Constants

/-- `DECAY` in units: `0xFF5C29 / 2^24` of the units of 1.0 (41_leaky_autocorrelator.md R101). -/
theorem magnitudeUnits_decayWord : magnitudeUnits decayWord = 0xFF5C29 * 2 ^ 125 := by decide

theorem isFinite_decayWord : isFinite decayWord := by decide

theorem isFinite_weightWord : isFinite weightWord := by decide

theorem signBit_decayWord : signBit decayWord = false := by decide

/-- A positive decimal literal rounds to the pattern that the assembler gives it (30_encoding.md R79). -/
theorem roundsTo_decimal {m : Int} (places : Nat) (hm : m ≠ 0) :
    RoundsTo ((m : ℝ) / 10 ^ places) (packFloat (decide (m < 0)) (decimalMagnitude m places)) :=
  (decimalMagnitude_roundsToMagnitude m places).roundsTo (decimalUnits_pos places hm) (decimal_eq_units m places)

/-- Settles O52: the two literals are rounded as decimals with four places, and the other values are those of their units. -/
theorem constantsAreNearest : Obligations.ConstantsAreNearest := by
  have hdecay : packFloat false (decimalMagnitude 9975 4) = decayWord := by decide
  have hweight : packFloat false (decimalMagnitude 25 4) = weightWord := by decide
  have heps : magnitudeUnits epsilonWord = 2 ^ 139 := by decide
  have hone : magnitudeUnits oneWord = 2 ^ 149 := by decide
  have hpositive : signBit epsilonWord = false ∧ signBit oneWord = false := by decide
  refine ⟨?_, ?_, ?_, ?_, by decide, rfl⟩
  · have h := roundsTo_decimal (m := 9975) 4 (by decide)
    norm_num [hdecay] at h ⊢
    exact h
  · have h := roundsTo_decimal (m := 25) 4 (by decide)
    norm_num [hweight] at h ⊢
    exact h
  · rw [binary32Value_eq_units, heps, hpositive.1, signValue, unitValue]
    norm_num
  · rw [binary32Value_eq_units, hone, hpositive.2, signValue, unitValue]
    norm_num

end Constants

section Decay

variable {p q : Nat} {w : Word}

/-- Bits 30:0 of the product of a finite pattern with `DECAY`, from its own bits 30:0. -/
def decayedBits (p : Nat) : Nat := roundMagnitude (patternUnits p * magnitudeUnits decayWord) (2 ^ 149)

/-- Decay keeps the sign of a finite value. -/
theorem fmul_decayWord (hw : isFinite w) : fmul w decayWord = packFloat (signBit w) (decayedBits (magnitudeBits w)) := by
  rw [fmul_of_isFinite hw isFinite_decayWord, signBit_decayWord, Bool.xor_false, magnitudeUnits_eq_patternUnits w, decayedBits]

theorem decayedBits_lt (p : Nat) : decayedBits p < 2 ^ 31 := lt_of_le_infinityMagnitude roundMagnitude_le

/-- Decay as the fraction `0xFF5C29 / 2^24`, still with the factor that the units of both operands share. -/
theorem decayedBits_eq (p : Nat) : decayedBits p = roundMagnitude (patternUnits p * 0xFF5C29 * 2 ^ 125) (2 ^ 24 * 2 ^ 125) := by
  rw [decayedBits, magnitudeUnits_decayWord, ← Nat.mul_assoc, ← Nat.pow_add]

/-- Decay rounds to `q` or below where the exact product lies below the middle above `q`. -/
theorem decayedBits_le (hq : q < infinityMagnitude)
    (h : 2 * (patternUnits p * 0xFF5C29) < (patternUnits q + patternUnits (q + 1)) * 2 ^ 24) : decayedBits p ≤ q := by
  rw [decayedBits_eq]
  refine roundMagnitude_le_of_lt_middle (by positivity) hq ?_
  rw [← Nat.mul_assoc 2, ← Nat.mul_assoc _ (2 ^ 24)]
  exact Nat.mul_lt_mul_of_pos_right h (by positivity)

/-- Decay rounds past `q` where the exact product lies past the middle above `q`. -/
theorem lt_decayedBits (hq : q < infinityMagnitude)
    (h : (patternUnits q + patternUnits (q + 1)) * 2 ^ 24 < 2 * (patternUnits p * 0xFF5C29)) : q < decayedBits p := by
  rw [decayedBits_eq]
  refine lt_roundMagnitude_of_middle_lt (by positivity) hq ?_
  rw [← Nat.mul_assoc 2, ← Nat.mul_assoc _ (2 ^ 24)]
  exact Nat.mul_lt_mul_of_pos_right h (by positivity)

theorem patternUnits_subnormal (h : p < 2 ^ 23) : patternUnits p = p := by
  simpa using patternUnits_steps (k := 0) (m := p) (by omega) (.inl rfl)

/-- Up to 200 units, decay takes off less than half a unit (41_leaky_autocorrelator.md R105). -/
theorem decayedBits_residue (h1 : 1 ≤ p) (h200 : p ≤ 200) : decayedBits p = p := by
  have hunits : ∀ q ≤ 201, patternUnits q = q := fun q hq => patternUnits_subnormal (by omega)
  apply le_antisymm
  · apply decayedBits_le (by unfold infinityMagnitude; omega)
    rw [hunits p (by omega), hunits (p + 1) (by omega)]
    omega
  · obtain ⟨q, rfl⟩ : ∃ q, p = q + 1 := ⟨p - 1, by omega⟩
    apply lt_decayedBits (by unfold infinityMagnitude; omega)
    rw [hunits q (by omega), hunits (q + 1) (by omega)]
    omega

/-- Above 200 steps, decay takes off more than half a step (41_leaky_autocorrelator.md R105). -/
theorem decayedBits_shrinks (hp : p < infinityMagnitude) (h200 : 200 < p) : decayedBits p < p := by
  obtain ⟨q, rfl⟩ : ∃ q, p = q + 1 := ⟨p - 1, by omega⟩
  obtain ⟨k, m, hqm, -, hk, hq, hsucc⟩ := exists_steps q
  have hm : 200 ≤ m := by
    rcases hk with rfl | hk <;> omega
  apply Nat.lt_succ_of_le
  apply decayedBits_le (by omega)
  rw [hq, hsucc]
  have hsteps : 2 * ((m + 1) * 0xFF5C29) < (m + (m + 1)) * 2 ^ 24 := by omega
  calc 2 * ((m + 1) * 2 ^ k * 0xFF5C29) = 2 * ((m + 1) * 0xFF5C29) * 2 ^ k := by ring
    _ < (m + (m + 1)) * 2 ^ 24 * 2 ^ k := Nat.mul_lt_mul_of_pos_right hsteps (by positivity)
    _ = (m * 2 ^ k + (m + 1) * 2 ^ k) * 2 ^ 24 := by ring

/-- Decay does not pass 200 units: 201 of them still lose less than one and a half (41_leaky_autocorrelator.md R105). -/
theorem le_decayedBits (h200 : 200 < p) : 200 ≤ decayedBits p := by
  have hp : 201 ≤ patternUnits p := by
    have := patternUnits_le (show 201 ≤ p from h200)
    rwa [patternUnits_subnormal (by norm_num)] at this
  apply lt_decayedBits (by unfold infinityMagnitude; omega)
  rw [patternUnits_subnormal (by norm_num), patternUnits_subnormal (by norm_num)]
  omega

/-- Decay of a value within the residue, under either sign (41_leaky_autocorrelator.md R105). -/
theorem fmul_decayWord_residue (neg : Bool) (h1 : 1 ≤ p) (h200 : p ≤ 200) :
    fmul (packFloat neg p) decayWord = packFloat neg p := by
  have hlt : p < 2 ^ 31 := by omega
  have hfin : isFinite (packFloat neg p) := by
    rw [isFinite_iff_magnitudeBits, magnitudeBits_packFloat hlt]
    unfold infinityMagnitude
    omega
  rw [fmul_decayWord hfin, magnitudeBits_packFloat hlt, signBit_packFloat hlt, decayedBits_residue h1 h200]

/-- Settles O37: decay takes off less than half a step up to 200 units, and more than half a step above. -/
theorem decayStopsAtTheResidue : Obligations.DecayStopsAtTheResidue := by
  refine ⟨fun m h1 h200 => ⟨?_, fmul_decayWord_residue true h1 h200⟩, fun w hw h200 => ?_⟩
  · simpa [packFloat] using fmul_decayWord_residue false h1 h200
  · have hlt := decayedBits_lt (magnitudeBits w)
    rw [fmul_decayWord hw, magnitudeBits_packFloat hlt, signBit_packFloat hlt]
    exact ⟨decayedBits_shrinks ((isFinite_iff_magnitudeBits w).mp hw) h200, le_decayedBits h200, rfl⟩

end Decay

end Sys2Proof.Machine
end

section
/-! SUPPORT. The autocorrelator over a whole update: the lag updates commute, silence leaves decay alone, and bounded inputs keep the
profile bounded (41_leaky_autocorrelator.md R102, R105, R106). -/

namespace Sys2Proof.Machine

section LagOrder

variable (p : RingAddr) (xNow : Word) (s : State)

theorem lagIndex_inj {K L : Nat} (hK : K < 128) (hL : L < 128) (h : lagIndex K = lagIndex L) : K = L := by
  rw [← lagIndex_toNat hK, ← lagIndex_toNat hL, h]

theorem State.writeR_comm {K L : Lag} (h : K ≠ L) (v u : Word) : (s.writeR K v).writeR L u = (s.writeR L u).writeR K v := by
  have hne : K.toNat ≠ L.toNat := fun he => h (BitVec.eq_of_toNat_eq he)
  simp only [State.writeR, Vector.set_comm _ _ hne]

/-- Two lag updates in either order: neither reads what the other writes (41_leaky_autocorrelator.md R102). -/
theorem updateLag_comm {K L : Nat} (hK : K < 128) (hL : L < 128) :
    updateLag p xNow L (updateLag p xNow K s) = updateLag p xNow K (updateLag p xNow L s) := by
  by_cases h : K = L
  · rw [h]
  · have hne : lagIndex K ≠ lagIndex L := fun he => h (lagIndex_inj hK hL he)
    simp only [updateLag, State.readX_writeR, State.readR_writeR_ne _ _ hne, State.readR_writeR_ne _ _ hne.symm]
    exact State.writeR_comm s hne _ _

theorem acuUpdate_eq_foldl : acuUpdate p s = (List.range 128).foldl (fun t L => updateLag p (s.readX p) L t) s := by
  rw [List.range_eq_range']
  rfl

/-- Settles O34: each lag reads values from before the update, and updates of different lags commute. -/
theorem lagUpdatesAreIndependent : Obligations.LagUpdatesAreIndependent := by
  refine fun p s => ⟨fun L hL => ?_, acuUpdate_frame p s, fun order horder => ?_⟩
  · rw [acuUpdate_readR, lagIndex_toNat (by omega), blendLag]
  · rw [acuUpdate_eq_foldl]
    refine horder.foldl_eq' (fun K hK L hL t => ?_) s
    rw [horder.mem_iff, List.mem_range] at hK hL
    exact updateLag_comm p (s.readX p) t hK hL

end LagOrder

section SampledLags

/-- One lag of a configured block after SAMPLE, where `Q` holds of the input and of every entry of `X`: the blend of the old lag with
two values that meet `Q` (44_sample_step.md R160). -/
theorem exec_sample_readR {Q : Word → Prop} {s t : State} {x : Word} (he : s.err = false) (hc : s.cfg = true)
    (h : exec (.sample x) s = .next t) (hx : Q x) (hX : ∀ a, Q (s.readX a)) (L : Lag) :
    ∃ xLag, Q xLag ∧ t.readR L = blendLag (s.readR L) x xLag := by
  rw [exec_sample_configured he hc] at h
  cases h
  refine ⟨if L = 0#7 then x else s.readX (ringMinus s.pos L.toNat), ?_, ?_⟩
  · split_ifs
    · exact hx
    · exact hX _
  · rw [readR_sampleStep, blendedState_readR]

end SampledLags

section Silence

variable {a b z : Word}

theorem magnitudeUnits_eq_zero_iff (w : Word) : magnitudeUnits w = 0 ↔ magnitudeBits w = 0 := by
  rw [magnitudeUnits_eq_patternUnits]
  exact patternUnits_strictMono.injective.eq_iff' (show patternUnits 0 = 0 by decide)

theorem isFinite_of_zero (hz : magnitudeBits z = 0) : isFinite z := isFinite_of_magnitudeBits_le hz.le (by decide)

/-- A pattern of the class of an infinity is that infinity (00_scope.md R11). -/
theorem eq_infinity {neg : Bool} (h : classify a = .infinite neg) : a = packFloat neg infinityMagnitude := by
  rw [classify] at h
  split_ifs at h with he hf
  cases h
  have hbits : magnitudeBits a = infinityMagnitude := by
    rw [exponentField_eq_magnitudeBits] at he
    rw [fractionField_eq_magnitudeBits] at hf
    unfold infinityMagnitude
    omega
  rw [← hbits, packFloat_signBit_magnitudeBits]

/-- A zero factor of a finite product makes it a zero (00_scope.md R12). -/
theorem magnitudeBits_fmul_zero (ha : isFinite a) (hb : isFinite b) (h0 : magnitudeBits a = 0 ∨ magnitudeBits b = 0) :
    magnitudeBits (fmul a b) = 0 := by
  rw [← magnitudeUnits_eq_zero_iff, ← magnitudeUnits_eq_zero_iff, ← Nat.mul_eq_zero] at h0
  exact Nat.le_zero.mp (magnitudeBits_fmul_le ha hb (by decide) (h0.trans_le (Nat.zero_le _)))

/-- A finite pattern is the number of its units, rounded: no rounding is left to do. -/
theorem packFloat_roundMagnitude_units (ha : isFinite a) : packFloat (signBit a) (roundMagnitude (magnitudeUnits a) 1) = a := by
  rw [magnitudeUnits_eq_patternUnits, roundMagnitude_patternUnits ((isFinite_iff_magnitudeBits a).mp ha),
    packFloat_signBit_magnitudeBits]

/-- The sum with a zero has the units of the other operand. -/
theorem sumUnits_zero_right (hz : magnitudeBits z = 0) : sumUnits a z = signedUnits (signBit a) (magnitudeUnits a) := by
  rw [sumUnits, (magnitudeUnits_eq_zero_iff z).mpr hz]
  cases signBit z <;> exact Int.add_zero _

/-- A zero added to a clean value leaves it as it is (00_scope.md R12). -/
theorem fadd_zero_right (ha : isClean a) (hz : magnitudeBits z = 0) : fadd a z = a := by
  have hfz := isFinite_of_zero hz
  rcases classify_cases a with ⟨hn, -⟩ | hinf | ⟨hfin, -⟩
  · rw [fadd_nan_left hn, ha.2 hn]
  · rw [fadd_infinite_finite hinf (classify_of_isFinite hfz), ← eq_infinity hinf]
  · have hexact := packFloat_roundMagnitude_units hfin
    rw [fadd_of_isFinite hfin hfz, sumUnits_zero_right hz, natAbs_signedUnits]
    by_cases h0 : magnitudeUnits a = 0
    · have hs : signBit a = false := Bool.eq_false_of_not_eq_true (fun hs => ha.1 (eq_negZero hs h0))
      rw [hs, h0, roundMagnitude_zero] at hexact
      rw [hs, h0]
      exact hexact
    · have hne : signedUnits (signBit a) (magnitudeUnits a) ≠ 0 := by
        rw [← Int.natAbs_ne_zero, natAbs_signedUnits]
        exact h0
      have hs : decide (signedUnits (signBit a) (magnitudeUnits a) < 0) = signBit a := by
        cases signBit a with
        | false => simp [signedUnits]
        | true => simp [signedUnits]; omega
      rw [if_neg hne, hs, hexact]

/-- The blend of a silent input is the decay (41_leaky_autocorrelator.md R105). -/
theorem blendLag_zero {old xLag : Word} (hclean : isClean old) (hz : magnitudeBits z = 0) (hx : isFinite xLag) :
    blendLag old z xLag = fmul old decayWord ∧ isClean (fmul old decayWord) := by
  have hdecayed : isClean (fmul old decayWord) := (fmul_isResult _ _).isClean (fmul_decayWord_ne_negZero hclean.1)
  have hweighted := magnitudeBits_fmul_zero isFinite_weightWord (isFinite_of_zero hz) (.inr hz)
  have hterm := magnitudeBits_fmul_zero (isFinite_of_zero hweighted) hx (.inl hweighted)
  exact ⟨fadd_zero_right hdecayed hterm, hdecayed⟩

/-- Settles O36: the term that a silent input adds to a lag is a zero, and decay keeps a lag clean. -/
theorem silenceOnlyDecays : Obligations.SilenceOnlyDecays := by
  intro s t x he hc hx hX hR h L
  have hzero : magnitudeBits x = 0 := by
    rcases hx with rfl | rfl <;> decide
  obtain ⟨xLag, hfin, hL⟩ := exec_sample_readR (Q := isFinite) he hc h (isFinite_of_zero hzero) hX L
  obtain ⟨hblend, hdecayed⟩ := blendLag_zero (hR L) hzero hfin
  rw [hL, hblend]
  exact ⟨rfl, hdecayed⟩

end Silence

section Bounded

variable {a b old x xLag : Word} {A B p : Nat}

/-- A bound on a product from bounds on its operands, all three as patterns. -/
theorem magnitudeBits_fmul_le_of_le (ha : magnitudeBits a ≤ A) (hb : magnitudeBits b ≤ B) (hA : A < infinityMagnitude)
    (hB : B < infinityMagnitude) (hp : p < infinityMagnitude) (h : patternUnits A * patternUnits B ≤ patternUnits p * 2 ^ 149) :
    magnitudeBits (fmul a b) ≤ p :=
  magnitudeBits_fmul_le (isFinite_of_magnitudeBits_le ha hA) (isFinite_of_magnitudeBits_le hb hB) hp
    ((Nat.mul_le_mul (magnitudeUnits_le_of_magnitudeBits_le ha) (magnitudeUnits_le_of_magnitudeBits_le hb)).trans h)

/-- A bound on a sum from bounds on its operands, all three as patterns. -/
theorem magnitudeBits_fadd_le_of_le (ha : magnitudeBits a ≤ A) (hb : magnitudeBits b ≤ B) (hA : A < infinityMagnitude)
    (hB : B < infinityMagnitude) (hp : p < infinityMagnitude) (h : patternUnits A + patternUnits B ≤ patternUnits p) :
    magnitudeBits (fadd a b) ≤ p :=
  magnitudeBits_fadd_le (isFinite_of_magnitudeBits_le ha hA) (isFinite_of_magnitudeBits_le hb hB) hp
    ((Nat.add_le_add (magnitudeUnits_le_of_magnitudeBits_le ha) (magnitudeUnits_le_of_magnitudeBits_le hb)).trans h)

/-- The blend keeps a lag below `2^101` (`0x72000000`): decay leaves at most `2^101 * DECAY` (`0x71FF5C29`), and two factors of at most
`2^50` (`0x58800000`) with the weight give at most `2^100 * CW` (`0x6D23D70A`) (41_leaky_autocorrelator.md R106). -/
theorem blendLag_bounded (hold : magnitudeBits old < 0x72000000) (hx : magnitudeBits x ≤ 0x58800000)
    (hxLag : magnitudeBits xLag ≤ 0x58800000) : magnitudeBits (blendLag old x xLag) < 0x72000000 := by
  have hdecayed : magnitudeBits (fmul old decayWord) ≤ 0x71FF5C29 :=
    magnitudeBits_fmul_le_of_le hold.le (le_refl _) (by decide) (by decide) (by decide) (by decide)
  have hweighted : magnitudeBits (fmul weightWord x) ≤ 0x5423D70A :=
    magnitudeBits_fmul_le_of_le (le_refl _) hx (by decide) (by decide) (by decide) (by decide)
  have hterm : magnitudeBits (fmul (fmul weightWord x) xLag) ≤ 0x6D23D70A :=
    magnitudeBits_fmul_le_of_le hweighted hxLag (by decide) (by decide) (by decide) (by decide)
  have hsum : magnitudeBits (blendLag old x xLag) ≤ 0x71FFFFFF :=
    magnitudeBits_fadd_le_of_le hdecayed hterm (by decide) (by decide) (by decide) (by decide)
  omega

/-- Settles O38: what decay leaves of `2^101` and what the input adds to it stay together below `2^101`. -/
theorem boundedInputsKeepProfileFinite : Obligations.BoundedInputsKeepProfileFinite := by
  intro s t x he hc hx hX hR h
  refine ⟨fun a => ?_, fun L => ?_⟩
  · rw [exec_sample_configured he hc] at h
    cases h
    rw [readX_sampleStep]
    split_ifs
    · exact hx
    · exact hX a
  · obtain ⟨xLag, hxLag, hL⟩ := exec_sample_readR (Q := fun w => magnitudeBits w ≤ 0x58800000) he hc h hx hX L
    rw [hL]
    exact blendLag_bounded (hR L) hx hxLag

end Bounded

end Sys2Proof.Machine
end

section
/-! SUPPORT. When the energy is a NaN: which products and sums are, what one word does to an entry of `R`, and a stream of commands
without a fault (41_leaky_autocorrelator.md R104). -/

namespace Sys2Proof.Machine

section NaNResults

variable {a b c : Word}

theorem packFloat_ne_canonicalNaN {neg : Bool} {M : Nat} (hM : M ≤ infinityMagnitude) : packFloat neg M ≠ canonicalNaN := by
  intro h
  have hnan := isNaN_canonicalNaN
  rw [← h, isNaN_iff_magnitudeBits, magnitudeBits_packFloat (lt_of_le_infinityMagnitude hM)] at hnan
  omega

theorem fmul_ne_canonicalNaN (ha : isFinite a) (hb : isFinite b) : fmul a b ≠ canonicalNaN := by
  rw [fmul_of_isFinite ha hb]
  exact packFloat_ne_canonicalNaN roundMagnitude_le

/-- The product of an infinity with a nonzero number is an infinity (00_scope.md R12). -/
theorem fmul_infinity_left {neg : Bool} (ha : classify a = .infinite neg) (hc : isFinite c) (h0 : magnitudeUnits c ≠ 0) :
    fmul a c = packFloat (neg ^^ signBit c) infinityMagnitude := by
  rw [fmul_infinite_finite ha (classify_of_isFinite hc), if_neg h0]

/-- Decay gives a NaN only from a NaN (00_scope.md R12, R13). -/
theorem fmul_decayWord_eq_canonicalNaN_iff (a : Word) : fmul a decayWord = canonicalNaN ↔ isNaN a := by
  refine ⟨fun h => ?_, fun h => fmul_nan_left h _⟩
  rcases classify_cases a with ⟨hn, -⟩ | hinf | ⟨hfin, -⟩
  · exact hn
  · rw [fmul_infinity_left hinf isFinite_decayWord (by decide)] at h
    exact absurd h (packFloat_ne_canonicalNaN (le_refl _))
  · exact absurd h (fmul_ne_canonicalNaN hfin isFinite_decayWord)

/-- The weight, below 1, leaves a finite input finite. -/
theorem fmul_weightWord_isFinite (ha : isFinite a) : isFinite (fmul weightWord a) := by
  have hbits := (isFinite_iff_magnitudeBits a).mp ha
  refine isFinite_of_magnitudeBits_le (magnitudeBits_fmul_le isFinite_weightWord ha hbits ?_) hbits
  rw [magnitudeUnits_eq_patternUnits a, Nat.mul_comm]
  exact Nat.mul_le_mul_left _ (show magnitudeUnits weightWord ≤ 2 ^ 149 by decide)

/-- The input's own term is a NaN only for a NaN input (41_leaky_autocorrelator.md R104). -/
theorem inputTerm_eq_canonicalNaN_iff (x : Word) : fmul (fmul weightWord x) x = canonicalNaN ↔ isNaN x := by
  refine ⟨fun h => ?_, fun h => fmul_nan_right _ h⟩
  rcases classify_cases x with ⟨hn, -⟩ | hinf | ⟨hfin, -⟩
  · exact hn
  · have hweighted : fmul weightWord x = packFloat (signBit weightWord ^^ signBit x) infinityMagnitude :=
      (fmul_finite_infinite (classify_of_isFinite isFinite_weightWord) hinf).trans (if_neg (by decide))
    rw [hweighted, fmul_infinite_infinite (classify_packFloat_infinity _) hinf] at h
    exact absurd h (packFloat_ne_canonicalNaN (le_refl _))
  · exact absurd h (fmul_ne_canonicalNaN (fmul_weightWord_isFinite hfin) hfin)

theorem fadd_ne_canonicalNaN (ha : isFinite a) (hb : isFinite b) : fadd a b ≠ canonicalNaN := by
  rw [fadd_of_isFinite ha hb]
  split_ifs
  · exact packFloat_ne_canonicalNaN (Nat.zero_le _)
  · exact packFloat_ne_canonicalNaN roundMagnitude_le

/-- A sum of two operands of one sign is a NaN only where an operand is (00_scope.md R12, R13). -/
theorem fadd_eq_canonicalNaN_iff (hs : signBit a = signBit b) : fadd a b = canonicalNaN ↔ isNaN a ∨ isNaN b := by
  refine ⟨fun h => ?_, fun h => h.elim (fun ha => fadd_nan_left ha b) (fun hb => fadd_nan_right a hb)⟩
  have hinf : ∀ neg, packFloat neg infinityMagnitude ≠ canonicalNaN := fun _ => packFloat_ne_canonicalNaN (le_refl _)
  rcases classify_cases a with ⟨hna, -⟩ | ha | ⟨hfa, ha⟩
  · exact .inl hna
  · rcases classify_cases b with ⟨hnb, -⟩ | hb | ⟨-, hb⟩
    · exact .inr hnb
    · rw [fadd_infinite_infinite ha hb, if_pos hs] at h
      exact absurd h (hinf _)
    · rw [fadd_infinite_finite ha hb] at h
      exact absurd h (hinf _)
  · rcases classify_cases b with ⟨hnb, -⟩ | hb | ⟨hfb, -⟩
    · exact .inr hnb
    · rw [fadd_finite_infinite ha hb] at h
      exact absurd h (hinf _)
    · exact absurd h (fadd_ne_canonicalNaN hfa hfb)

/-- The one NaN that a result can be is the canonical NaN (00_scope.md R13). -/
theorem IsResult.isNaN_iff {neg : Bool} {w : Word} (h : IsResult neg w) : isNaN w ↔ w = canonicalNaN :=
  ⟨h.eq_canonicalNaN, fun hw => hw ▸ isNaN_canonicalNaN⟩

/-- Decay of an energy is a result without a sign. -/
theorem fmul_decayWord_isResult {old : Word} (h : isEnergy old) : IsResult false (fmul old decayWord) := by
  have hres := fmul_isResult old decayWord
  rwa [(isEnergy_iff_isResult.mp h).signBit_eq_false, signBit_decayWord] at hres

/-- The new energy is the canonical NaN exactly where the old one is, or the input is a NaN (41_leaky_autocorrelator.md R104). -/
theorem blendLag_eq_canonicalNaN_iff {old : Word} (h : isEnergy old) (x : Word) :
    blendLag old x x = canonicalNaN ↔ old = canonicalNaN ∨ isNaN x := by
  have hdecayed := fmul_decayWord_isResult h
  have hterm := inputTerm_isResult x
  have hs := hdecayed.signBit_eq_false.trans hterm.signBit_eq_false.symm
  calc blendLag old x x = canonicalNaN
      ↔ isNaN (fmul old decayWord) ∨ isNaN (fmul (fmul weightWord x) x) := fadd_eq_canonicalNaN_iff hs
    _ ↔ old = canonicalNaN ∨ isNaN x := by
      rw [hdecayed.isNaN_iff, fmul_decayWord_eq_canonicalNaN_iff, (isEnergy_iff_isResult.mp h).isNaN_iff, hterm.isNaN_iff,
        inputTerm_eq_canonicalNaN_iff]

end NaNResults

section ProfileEffects

variable {P : Config.Parameters} {w : CommandWord} {s t : State}

/-- What one word does to an entry of `R`: it keeps it, where it faults or is ignored, or is a NOTE_ON or a STATUS; a RESET clears it;
and a SAMPLE blends it (10_state.md R38). -/
theorem WordEffect.readR_cases (h : WordEffect P w s t) (L : Lag) :
    (t.readR L = s.readR L ∧ (t.err = true ∨ (∃ n, decode w = .ok (.noteOn n)) ∨ decode w = .ok .status)) ∨
    (t.readR L = 0#32 ∧ ∃ f, decode w = .ok (.reset f)) ∨
    ∃ x, decode w = .ok (.sample x) ∧ t.readR L = (blendedState x s).readR L := by
  cases h with
  | ignored herr => exact .inl ⟨State.readR_ignoreCommand s L, .inl ((ignoreCommand_err s).trans herr)⟩
  | faulted _ c => exact .inl ⟨State.readR_raiseFault s c L, .inl (raiseFault_err s c)⟩
  | reset _ hd => exact .inr (.inl ⟨by simp, _, hd⟩)
  | noteOn _ hd => exact .inl ⟨by simp, .inr (.inl ⟨_, hd⟩)⟩
  | sample _ hd => exact .inr (.inr ⟨_, hd, readR_sampleStep _ s L⟩)
  | status hd => exact .inl ⟨State.readR_respond .., .inr (.inr hd)⟩

/-- Lag 0 of a blend takes the input twice (41_leaky_autocorrelator.md R103). -/
theorem blendedState_readR_zero (x : Word) (s : State) : (blendedState x s).readR 0#7 = blendLag (s.readR 0#7) x x := by
  rw [blendedState_readR, if_pos rfl]

/-- Every word keeps the energy non-negative (41_leaky_autocorrelator.md R104). -/
theorem WordEffect.keeps_isEnergy (h : WordEffect P w s t) (hs : isEnergy (s.readR 0#7)) : isEnergy (t.readR 0#7) := by
  rcases h.readR_cases 0#7 with ⟨hR, -⟩ | ⟨hR, -⟩ | ⟨x, -, hR⟩ <;> rw [hR]
  · exact hs
  · decide
  · rw [blendedState_readR_zero]
    exact blendLag_isEnergy hs x

theorem step_keeps_isEnergy (h : step s = .next t) (hs : isEnergy (s.readR 0#7)) : isEnergy (t.readR 0#7) := by
  rcases step_next_cases h with rfl | ⟨w, ws, -, heff⟩
  · exact hs
  · exact heff.keeps_isEnergy hs

/-- A command other than RESET that ends without a fault makes the energy the canonical NaN exactly where it was, or where the command is
a SAMPLE of a NaN (41_leaky_autocorrelator.md R104). -/
theorem WordEffect.energy_eq_canonicalNaN_iff {i : Instr} (h : WordEffect P (encode i) s t) (hi : ∀ f, i ≠ .reset f)
    (hs : isEnergy (s.readR 0#7)) (hok : t.err = false) :
    t.readR 0#7 = canonicalNaN ↔ s.readR 0#7 = canonicalNaN ∨ ∃ x, i = .sample x ∧ isNaN x := by
  have hcases := h.readR_cases 0#7
  simp only [decode_encode, Except.ok.injEq, hok, Bool.false_eq_true, false_or] at hcases
  rcases hcases with ⟨hR, ⟨n, rfl⟩ | rfl⟩ | ⟨-, f, rfl⟩ | ⟨x, rfl, hR⟩
  · simp [hR]
  · simp [hR]
  · exact absurd rfl (hi f)
  · rw [hR, blendedState_readR_zero, blendLag_eq_canonicalNaN_iff hs]
    simp

end ProfileEffects

section Streams

variable {w : CommandWord} {ws : List CommandWord} {s t : State}

/-- A run whose first step completes goes on from the state that it gives. -/
theorem core_run_succ (k : Nat) (h : step s = .next t) :
    Host.Core.run Sys2Proof.core (k + 1) s = Host.Core.run Sys2Proof.core k t := by
  have hcore : Sys2Proof.core.step s = .next t := h
  simp only [Host.Core.run, hcore]

/-- A stream executes its first word, and then the others (30_encoding.md R70). -/
theorem afterCommands_cons (h : afterCommands (w :: ws) s = .next t) :
    ∃ u, WordEffect defaultParameters w { s with commands := ws } u ∧ afterCommands ws u = .next t := by
  obtain ⟨u, hu, heff⟩ := executeOver_effect defaultParameters w { s with commands := ws }
  refine ⟨u, heff, ?_⟩
  have hstep : step { s with commands := w :: ws } = .next u := by
    rw [step_command _ rfl, execute_eq_executeOver, hu]
  have hcommands : ({ u with commands := ws } : State) = u := by
    rw [← show u.commands = ws from heff.commands_eq]
  rw [afterCommands, hcommands, ← core_run_succ ws.length hstep]
  exact h

/-- A stream that ends without a fault starts without one (10_state.md R30). -/
theorem err_of_afterCommands (h : afterCommands ws s = .next t) (hok : t.err = false) : s.err = false := by
  induction ws generalizing s with
  | nil =>
    rw [afterCommands_nil] at h
    cases h
    exact hok
  | cons w ws ih =>
    obtain ⟨u, heff, hrest⟩ := afterCommands_cons h
    have hu := ih hrest
    rcases heff.err_cause with ⟨herr, -⟩ | ⟨-, herr, -⟩
    · exact herr.symm.trans hu
    · simp [hu] at herr

/-- The energy after a stream without a RESET that ends without a fault: the canonical NaN exactly where it was, or where the stream
holds a SAMPLE of a NaN (41_leaky_autocorrelator.md R104). -/
theorem afterCommands_energy_eq_canonicalNaN_iff {later : List Instr} (hreset : ∀ f, Instr.reset f ∉ later)
    (hs : isEnergy (s.readR 0#7)) (h : afterCommands (later.map encode) s = .next t) (hok : t.err = false) :
    t.readR 0#7 = canonicalNaN ↔ s.readR 0#7 = canonicalNaN ∨ ∃ x, Instr.sample x ∈ later ∧ isNaN x := by
  induction later generalizing s with
  | nil =>
    rw [List.map_nil, afterCommands_nil] at h
    cases h
    simp [State.readR]
  | cons i later ih =>
    obtain ⟨u, heff, hrest⟩ := afterCommands_cons h
    have hi : ∀ f, i ≠ .reset f := fun f hf => hreset f (by simp [hf])
    have hu := heff.energy_eq_canonicalNaN_iff hi hs (err_of_afterCommands hrest hok)
    rw [ih (fun f hf => hreset f (List.mem_cons_of_mem i hf)) (heff.keeps_isEnergy hs) hrest, hu]
    simp only [List.mem_cons, or_and_right, exists_or, eq_comm (a := i), or_assoc]
    exact Iff.rfl

/-- Settles O35: lag 0 blends a value without a sign with the input's own term, which is a NaN only for a NaN input. -/
theorem energyIsNeverNegative : Obligations.EnergyIsNeverNegative := by
  refine ⟨by decide, fun s t hs h => step_keeps_isEnergy h hs, fun s t f later _ _ hreset h hok => ?_⟩
  obtain ⟨u, heff, hrest⟩ := afterCommands_cons h
  have hu : u.readR 0#7 = 0#32 := by
    have hcases := heff.readR_cases 0#7
    simpa [decode_encode, err_of_afterCommands hrest hok] using hcases
  rw [afterCommands_energy_eq_canonicalNaN_iff hreset (by rw [hu]; decide) hrest hok, hu]
  exact or_iff_right (by decide)

end Streams

end Sys2Proof.Machine
end

section
/-! SUPPORT. The default `DELTA_OF` against its definition over the reals, exactly where it is rational, and its bounds
(42_phase_accumulator_trigger.md R123, R124, R126). -/

namespace Sys2Proof.Machine

section RealPitch

variable {f n b : Nat}

/-- `f(n)`, the frequency of a note in Hz (42_phase_accumulator_trigger.md R124). -/
noncomputable def noteFrequency (n : Nat) : ℝ := 440 * (2 : ℝ) ^ (((n : ℝ) - 69) / 12)

theorem noteFrequency_nonneg (n : Nat) : 0 ≤ noteFrequency n := by
  unfold noteFrequency
  positivity

/-- The 12th power clears the twelfths of an octave: `2^315` is `2^(32 * 12 - 69)`. -/
theorem noteFrequency_scaled_pow (n : Nat) : (noteFrequency n * 2 ^ 32) ^ 12 = 440 ^ 12 * 2 ^ (n + 315) := by
  have hroot : ((2 : ℝ) ^ (((n : ℝ) - 69) / 12)) ^ 12 * 2 ^ 69 = 2 ^ n := by
    rw [← Real.rpow_mul_natCast two_pos.le, ← Real.rpow_natCast 2 69, ← Real.rpow_add two_pos, ← Real.rpow_natCast 2 n]
    congr 1
    push_cast
    ring
  calc (noteFrequency n * 2 ^ 32) ^ 12
      = 440 ^ 12 * ((2 : ℝ) ^ (((n : ℝ) - 69) / 12)) ^ 12 * 2 ^ (69 + 315) := by
        rw [noteFrequency, mul_pow, mul_pow, ← pow_mul]
    _ = 440 ^ 12 * (2 ^ n * 2 ^ 315) := by rw [pow_add, ← hroot, mul_assoc, mul_assoc]
    _ = 440 ^ 12 * 2 ^ (n + 315) := by rw [← pow_add]

/-- The default `DELTA_OF` is the greatest whole number whose product with the rate is at most `f(n) * 2^32`
(42_phase_accumulator_trigger.md R123). -/
theorem le_defaultDeltaOf_iff_real (hf : 1 ≤ f) (hn : n ≤ 127) :
    b ≤ defaultDeltaOf f n ↔ (b : ℝ) * f ≤ noteFrequency n * 2 ^ 32 := by
  have hscaled : 0 ≤ noteFrequency n * 2 ^ 32 := mul_nonneg (noteFrequency_nonneg n) (by positivity)
  rw [le_defaultDeltaOf_iff hf hn, ← pow_le_pow_iff_left₀ (by positivity) hscaled (by norm_num : 12 ≠ 0),
    noteFrequency_scaled_pow]
  exact_mod_cast Iff.rfl

/-- Settles O23: the same whole numbers lie below `DELTA_OF` and below the real quotient. -/
theorem deltaOfIsTheExactFloor : Obligations.DeltaOfIsTheExactFloor := by
  intro f n hf hn
  have hpos : (0 : ℝ) < f := by exact_mod_cast hf
  change defaultDeltaOf f n = ⌊noteFrequency n * 2 ^ 32 / f⌋₊
  have hquot : 0 ≤ noteFrequency n * 2 ^ 32 / f :=
    div_nonneg (mul_nonneg (noteFrequency_nonneg n) (by positivity)) hpos.le
  refine eq_of_forall_le_iff fun b => ?_
  rw [le_defaultDeltaOf_iff_real hf hn, Nat.le_floor_iff hquot, le_div_iff₀ hpos]

end RealPitch

section PitchValues

variable {f n d : Nat}

/-- The default `DELTA_OF` of a note whole octaves from A4 is a quotient of whole numbers (42_phase_accumulator_trigger.md R126). -/
theorem defaultDeltaOf_octave (hf : 1 ≤ f) {k : Nat} (hk : 9 + 12 * k ≤ 127) :
    defaultDeltaOf f (9 + 12 * k) = 440 * 2 ^ (27 + k) / f := by
  refine eq_of_forall_le_iff fun b => ?_
  have hpow : 440 ^ 12 * 2 ^ (9 + 12 * k + 315) = (440 * 2 ^ (27 + k)) ^ 12 := by
    rw [Nat.mul_pow, ← Nat.pow_mul]
    congr 2
    omega
  rw [le_defaultDeltaOf_iff hf hk, hpow, Nat.pow_le_pow_iff_left (by norm_num), Nat.le_div_iff_mul_le hf]

/-- The default `DELTA_OF` of the default note, the A below middle C. -/
theorem defaultDeltaOf_defaultNote (hf : 1 ≤ f) : defaultDeltaOf f 57 = 440 * 2 ^ 31 / f :=
  defaultDeltaOf_octave (k := 4) hf (by norm_num)

/-- Settles O25: each of these notes is a number of whole octaves from A4. -/
theorem deltaTableAt1760 : Obligations.DeltaTableAt1760 :=
  ⟨defaultDeltaOf_octave (k := 3) (by norm_num) (by norm_num), defaultDeltaOf_octave (k := 4) (by norm_num) (by norm_num),
    defaultDeltaOf_octave (k := 5) (by norm_num) (by norm_num), defaultDeltaOf_octave (k := 6) (by norm_num) (by norm_num),
    defaultDeltaOf_octave (k := 7) (by norm_num) (by norm_num)⟩

/-- A value of the default `DELTA_OF` between two 12th powers. The power of two is cut up so that numerals evaluate. -/
theorem defaultDeltaOf_eq_iff (hf : 1 ≤ f) (hn : n ≤ 127) : defaultDeltaOf f n = d ↔
    (d * f) ^ 12 ≤ 440 ^ 12 * (2 ^ 105) ^ 3 * 2 ^ n ∧ 440 ^ 12 * (2 ^ 105) ^ 3 * 2 ^ n < ((d + 1) * f) ^ 12 := by
  have hradicand : 440 ^ 12 * (2 ^ 105) ^ 3 * 2 ^ n = 440 ^ 12 * 2 ^ (n + 315) := by
    rw [← Nat.pow_mul, mul_assoc, ← Nat.pow_add, Nat.add_comm]
  rw [hradicand, ← le_defaultDeltaOf_iff hf hn, ← not_le, ← le_defaultDeltaOf_iff hf hn]
  omega

/-- DELTA_RANGE in whole numbers: the 12th power of `fs <= f(n)` (42_phase_accumulator_trigger.md R124). -/
theorem overflow_defaultDeltaOf_iff (hf : 1 ≤ f) (hn : n ≤ 127) :
    2 ^ 32 ≤ defaultDeltaOf f n ↔ f ^ 12 * 2 ^ 69 ≤ 440 ^ 12 * 2 ^ n := by
  have hcut : (2 ^ 32 * f) ^ 12 = f ^ 12 * 2 ^ 69 * 2 ^ 315 := by
    rw [Nat.mul_pow, ← Nat.pow_mul, Nat.mul_comm, mul_assoc, ← Nat.pow_add]
  rw [le_defaultDeltaOf_iff hf hn, hcut, Nat.pow_add, ← mul_assoc, Nat.mul_le_mul_right_iff (by positivity)]

/-- No note overflows above 12543 Hz, the highest note's frequency (42_phase_accumulator_trigger.md R124). -/
theorem defaultDeltaOf_lt_of_rate_gt (hf : 12543 < f) (hn : n ≤ 127) : defaultDeltaOf f n < 2 ^ 32 := by
  rw [← not_le, overflow_defaultDeltaOf_iff (by omega) hn, not_le]
  calc 440 ^ 12 * 2 ^ n ≤ 440 ^ 12 * 2 ^ 127 := Nat.mul_le_mul_left _ (Nat.pow_le_pow_right Nat.two_pos hn)
    _ < 12544 ^ 12 * 2 ^ 69 := by norm_num
    _ ≤ f ^ 12 * 2 ^ 69 := Nat.mul_le_mul_right _ (Nat.pow_le_pow_left hf 12)

theorem overflow_highestNote_iff (hf : 1 ≤ f) : 2 ^ 32 ≤ defaultDeltaOf f 127 ↔ f ≤ 12543 := by
  refine ⟨fun h => not_lt.mp fun hgt => absurd (defaultDeltaOf_lt_of_rate_gt hgt le_rfl) (not_lt.mpr h), fun h => ?_⟩
  rw [overflow_defaultDeltaOf_iff hf le_rfl]
  calc f ^ 12 * 2 ^ 69 ≤ 12543 ^ 12 * 2 ^ 69 := Nat.mul_le_mul_right _ (Nat.pow_le_pow_left h 12)
    _ ≤ 440 ^ 12 * 2 ^ 127 := by norm_num

theorem overflow_defaultNote_iff (hf : 1 ≤ f) : 2 ^ 32 ≤ defaultDeltaOf f 57 ↔ f ≤ 220 := by
  rw [defaultDeltaOf_defaultNote hf, Nat.le_div_iff_mul_le hf]
  omega

/-- Settles O24: the overflow bound from the real reading, the others from the whole-number one. -/
theorem deltaOfRange : Obligations.DeltaOfRange := by
  refine ⟨fun f n hf hn => ?_, fun f n hf hf32 hn => eight_le_defaultDeltaOf hf hf32 hn, fun f hf => overflow_defaultNote_iff hf,
    fun f hf => overflow_highestNote_iff hf,
    fun n hn => ⟨defaultDeltaOf_lt_of_rate_gt (by norm_num) hn, defaultDeltaOf_lt_of_rate_gt (by norm_num) hn⟩,
    ?_, defaultDeltaOf_defaultNote (by norm_num), defaultDeltaOf_defaultNote (by norm_num), ?_, ?_, ?_⟩
  · rw [le_defaultDeltaOf_iff_real hf hn, Nat.cast_pow, Nat.cast_ofNat, mul_comm]
    exact mul_le_mul_iff_left₀ (by positivity : (0 : ℝ) < 2 ^ 32)
  all_goals
    rw [defaultDeltaOf_eq_iff (by norm_num) (by norm_num)]
    norm_num

end PitchValues

end Sys2Proof.Machine
end

section
/-! SUPPORT. The pitch commands and the trigger of a run: a stream word by word, what NOTE_ON and a run of pitch hints leave, and the
phase accumulator over a run of samples (42_phase_accumulator_trigger.md R120 to R125). -/

namespace Sys2Proof.Machine

section EncodedStreams

variable {s t : State} {i : Instr} {ws : List CommandWord}

/-- A stream that begins with the word of a command goes on from the state that the command leaves. -/
theorem afterCommands_encode_cons (h : exec i { s with commands := ws } = .next t) :
    afterCommands (encode i :: ws) s = afterCommands ws t := by
  have hexec : execute (encode i) { s with commands := ws } = .next t := (execute_of_decode _ (decode_encode i)).trans h
  have hcommands : ({ t with commands := ws } : State) = t := by
    rw [← show t.commands = ws from (WordEffect.of_execute hexec).commands_eq]
  have hstep : step { s with commands := encode i :: ws } = .next t := by rw [step_command _ rfl, hexec]
  rw [afterCommands, afterCommands, hcommands, List.length_cons, core_run_succ _ hstep]

/-- A SAMPLE on an unfaulted and configured block is a sample step (44_sample_step.md R160). -/
theorem exec_sample (he : s.err = false) (hc : s.cfg = true) (x : Word) : exec (.sample x) s = .next (sampleStep x s) := by
  rw [exec_eq_execOver, execOver, execSample, unlessFaulted_of_ok he]
  rcases sampleCommand_cases s x with ⟨hc', -⟩ | ⟨-, h⟩
  · rw [hc] at hc'; contradiction
  · rw [h]

/-- A NOTE_ON whose `DELTA` cannot be stored (42_phase_accumulator_trigger.md R122). -/
theorem exec_noteOn_overflow (he : s.err = false) (hc : s.cfg = true) {n : Note}
    (hge : 2 ^ 32 ≤ defaultDeltaOf s.fs.toNat n.toNat) : exec (.noteOn n) s = .next (raiseFault .deltaRange s) := by
  rw [exec_eq_execOver, execOver_noteOn he hc, defaultParameters_deltaOf, if_pos hge]

/-- A NOTE_ON that completes writes `DELTA` alone, and answers zero (42_phase_accumulator_trigger.md R122). -/
theorem exec_noteOn_stores (he : s.err = false) (hc : s.cfg = true) {n : Note}
    (hlt : defaultDeltaOf s.fs.toNat n.toNat < 2 ^ 32) : exec (.noteOn n) s =
    .next { s with
      delta := BitVec.ofNat 32 (defaultDeltaOf s.fs.toNat n.toNat)
      responses := s.responses ++ [0x0000000000000000#64] } := by
  rw [exec_eq_execOver, execOver_noteOn he hc, defaultParameters_deltaOf, if_neg (not_le.mpr hlt), respond, State.setDelta_err, he,
    responseWord_ok_zero]
  rfl

/-- A stream that begins with a pitch hint in range goes on with its `DELTA` (42_phase_accumulator_trigger.md R125). -/
theorem afterCommands_noteOn_cons (he : s.err = false) (hc : s.cfg = true) {n : Note}
    (hlt : defaultDeltaOf s.fs.toNat n.toNat < 2 ^ 32) (ws : List CommandWord) :
    afterCommands (encode (.noteOn n) :: ws) s = afterCommands ws { s with
      delta := BitVec.ofNat 32 (defaultDeltaOf s.fs.toNat n.toNat)
      responses := s.responses ++ [0x0000000000000000#64] } :=
  (afterCommands_encode_cons (exec_noteOn_stores (s := { s with commands := ws }) he hc hlt)).trans rfl

/-- A stream that begins with a sample goes on from its sample step (44_sample_step.md R160). -/
theorem afterCommands_sample_cons (he : s.err = false) (hc : s.cfg = true) (x : Word) (ws : List CommandWord) :
    afterCommands (encode (.sample x) :: ws) s = afterCommands ws (sampleStep x { s with commands := ws }) :=
  afterCommands_encode_cons (exec_sample (s := { s with commands := ws }) he hc x)

end EncodedStreams

section PitchHints

/-- The word of a NOTE_ON as the spec writes it, its note in the low bits (42_phase_accumulator_trigger.md R122). -/
theorem encode_noteOn_eq_or (n : Note) : encode (.noteOn n) = 0x0200000000000000#64 ||| n.setWidth 64 := by
  have hn := n.isLt
  have hor := Nat.two_pow_add_eq_or_of_lt (i := 57) (b := n.toNat) (by omega) 1
  have henc := encode_noteOn_ofNat (Nat.le_of_lt_succ hn)
  rw [BitVec.ofNat_toNat, BitVec.setWidth_eq] at henc
  apply BitVec.eq_of_toNat_eq
  rw [henc, BitVec.toNat_or, BitVec.toNat_setWidth, BitVec.toNat_ofNat, Nat.mod_eq_of_lt (by omega), Nat.mod_eq_of_lt (by omega)]
  exact hor

/-- Settles O21: the decoder reads the words the encoder writes, and each of the three cases is a branch of NOTE_ON. -/
theorem noteOnWritesDelta : Obligations.NoteOnWritesDelta := by
  refine ⟨fun n => decode_eq_ok_iff.mpr (encode_noteOn_eq_or n), by decide,
    defaultDeltaOf_octave (k := 7) (by norm_num) (by norm_num), defaultDeltaOf_octave (k := 5) (by norm_num) (by norm_num),
    fun s n he => ⟨fun hc => ?_, fun hc hge => ?_, fun hc hlt => exec_noteOn_stores he hc hlt⟩⟩
  · rw [exec_eq_execOver, execOver, execNoteOnOver, unlessFaulted_of_ok he]
    rcases noteOnCommand_cases defaultParameters s n with ⟨-, h⟩ | ⟨hc', -⟩ | ⟨hc', -⟩
    · rw [h, raiseFault_eq, faultCode]
    · rw [hc] at hc'; contradiction
    · rw [hc] at hc'; contradiction
  · rw [exec_noteOn_overflow he hc hge, raiseFault_eq, faultCode]

/-- Settles O22, by induction on the hints before the last: each overwrites `DELTA` and leaves `FS`, which decides the next. -/
theorem lastPitchHintWins : Obligations.LastPitchHintWins := by
  intro s hints last he hc hlt
  induction hints generalizing s with
  | nil =>
    rw [List.nil_append, List.map_singleton, afterCommands_noteOn_cons he hc (hlt last (by simp)), afterCommands_nil]
    rfl
  | cons n hints ih =>
    rw [List.cons_append, List.map_cons, afterCommands_noteOn_cons he hc (hlt n (by simp)), ih]
    · rw [List.length_cons, List.replicate_succ (n := hints.length + 1), List.append_assoc, List.singleton_append]
    · exact he
    · exact hc
    · exact fun m hm => hlt m (List.mem_cons_of_mem n hm)

end PitchHints

section PhaseStep

/-- Settles O26: 32-bit addition carries out exactly where the sum comes out below the addend. -/
theorem phaseStepTriggersOnCarry : Obligations.PhaseStepTriggersOnCarry := by
  intro s
  have hp := s.phase.isLt
  have hd := s.delta.isLt
  have hphase : (phaseStep s).1.phase = s.phase + s.delta := State.setPhase_phase s _
  have htrig : (phaseStep s).2 = decide (2 ^ 32 ≤ s.phase.toNat + s.delta.toNat) := trigFlag_eq_carry _ _
  refine ⟨?_, ?_, by rw [htrig, decide_eq_true_iff], fun hsum => ⟨?_, ?_⟩, fun hmax => ?_, fun hzero => ?_⟩
  · rw [← BitVec.toNat_add, BitVec.ofNat_toNat, BitVec.setWidth_eq]
    rfl
  · rw [hphase]
    exact decide_eq_true_iff
  · rw [hphase]
    exact BitVec.eq_of_toNat_eq (by rw [BitVec.toNat_add, hsum]; rfl)
  · rw [htrig, hsum]
    rfl
  · have hne : s.phase ≠ 0#32 ↔ s.phase.toNat ≠ 0 := BitVec.toNat_ne_iff_ne.symm
    rw [htrig, hmax, decide_eq_true_iff, hne, show (0xFFFFFFFF#32).toNat = 2 ^ 32 - 1 from rfl]
    omega
  · rw [htrig, hzero, decide_eq_false_iff_not, show (0#32).toNat = 0 from rfl]
    omega

end PhaseStep

section Wraps

variable {p d i j k M N : Nat}

/-- How often the phase has wrapped after `M` steps by `d` from `p` (42_phase_accumulator_trigger.md R121). -/
def wraps (p d M : Nat) : Nat := (p + M * d) / 2 ^ 32

/-- Whether step `i`, counted from 0, carries out of the 32-bit addition. -/
def carriesAt (p d i : Nat) : Bool := decide (2 ^ 32 ≤ (p + i * d) % 2 ^ 32 + d)

/-- The steps after the first are those of the phase that it leaves. -/
theorem carriesAt_succ (p d i : Nat) : carriesAt p d (i + 1) = carriesAt ((p + d) % 2 ^ 32) d i := by
  rw [carriesAt, carriesAt, Nat.mod_add_mod, Nat.add_mul, Nat.one_mul, Nat.add_right_comm, Nat.add_assoc p (i * d)]

/-- A step wraps once where it carries, and else not at all. -/
theorem wraps_succ (p i : Nat) (hd : d < 2 ^ 32) : wraps p d (i + 1) = wraps p d i + (carriesAt p d i).toNat := by
  have hmod := Nat.mod_lt (p + i * d) (Nat.two_pow_pos 32)
  rw [wraps, wraps, carriesAt, Nat.add_mul, Nat.one_mul, ← Nat.add_assoc]
  by_cases h : 2 ^ 32 ≤ (p + i * d) % 2 ^ 32 + d
  · rw [decide_eq_true h, Bool.toNat_true]
    omega
  · rw [decide_eq_false h, Bool.toNat_false]
    omega

/-- The carries of the first `M` steps are the wraps. -/
theorem countP_carriesAt (hp : p < 2 ^ 32) (hd : d < 2 ^ 32) (M : Nat) : (List.range M).countP (carriesAt p d) = wraps p d M := by
  induction M with
  | zero => rw [wraps, Nat.zero_mul, Nat.add_zero, Nat.div_eq_of_lt hp]; rfl
  | succ M ih =>
    rw [List.range_succ, List.countP_append, ih, wraps_succ p M hd]
    cases hc : carriesAt p d M <;> simp [hc]

/-- Step `i` is the one of the `k`-th wrap where the phase's total passes `k * 2^32` on it. -/
theorem carriesAt_and_wraps_iff (hd : d < 2 ^ 32) :
    (carriesAt p d i = true ∧ wraps p d (i + 1) = k) ↔ p + i * d < k * 2 ^ 32 ∧ k * 2 ^ 32 ≤ p + i * d + d := by
  rw [carriesAt, decide_eq_true_iff, wraps, Nat.add_mul, Nat.one_mul]
  omega

/-- The total passes `k * 2^32` on the step that the ceiling names (42_phase_accumulator_trigger.md R121). -/
theorem passes_iff_ceil (hd : 1 ≤ d) :
    (p + i * d < k * 2 ^ 32 ∧ k * 2 ^ 32 ≤ p + i * d + d) ↔ i + 1 = (k * 2 ^ 32 - p + d - 1) / d := by
  rw [eq_comm (a := i + 1), Nat.div_eq_iff hd, Nat.add_mul, Nat.one_mul]
  omega

/-- Steps without a carry do not wrap. -/
theorem wraps_eq_of_no_carry (hd : d < 2 ^ 32) (hij : i ≤ j) (h : ∀ l, i ≤ l → l < j → carriesAt p d l = false) :
    wraps p d j = wraps p d i := by
  induction j, hij using Nat.le_induction with
  | base => rfl
  | succ j hij ih =>
    rw [wraps_succ p j hd, h j hij (Nat.lt_succ_self j), ih fun l hil hlj => h l hil (Nat.lt_succ_of_lt hlj)]
    rfl

/-- A number of steps between two bounds a step apart is the floor or the ceiling (42_phase_accumulator_trigger.md R121). -/
theorem eq_floor_or_ceil {T m : Nat} (hd : 1 ≤ d) (hlo : T < m * d + d) (hhi : m * d < T + d) :
    m = T / d ∨ m = (T + d - 1) / d := by
  have hfloor : T / d < m + 1 := (Nat.div_lt_iff_lt_mul hd).mpr (by rw [Nat.add_mul, Nat.one_mul]; exact hlo)
  have hceil : m ≤ (T + d - 1) / d := (Nat.le_div_iff_mul_le hd).mpr (by omega)
  have hgap : (T + d - 1) / d ≤ T / d + 1 := (Nat.div_le_div_right (Nat.sub_le _ 1)).trans_eq (Nat.add_div_right T hd)
  omega

/-- Two consecutive carries are the floor or the ceiling of `2^32 / d` steps apart (42_phase_accumulator_trigger.md R121). -/
theorem carriesAt_distance (hd1 : 1 ≤ d) (hd : d < 2 ^ 32) (hij : i < j) (hi : carriesAt p d i = true)
    (hj : carriesAt p d j = true) (hbetween : ∀ l, i < l → l < j → carriesAt p d l = false) :
    j - i = 2 ^ 32 / d ∨ j - i = (2 ^ 32 + d - 1) / d := by
  obtain ⟨m, rfl⟩ := Nat.exists_eq_add_of_lt hij
  have hstart := wraps_succ p i hd
  have hend := wraps_succ p (i + m + 1) hd
  rw [wraps_eq_of_no_carry (i := i + 1) hd hij hbetween, hj, hstart, hi] at hend
  rw [hi] at hstart
  obtain ⟨hi1, hi2⟩ := (carriesAt_and_wraps_iff hd).mp ⟨hi, hstart⟩
  obtain ⟨hj1, hj2⟩ := (carriesAt_and_wraps_iff hd).mp ⟨hj, hend⟩
  rw [Bool.toNat_true] at hi1 hi2 hj1 hj2
  have hsplit : (i + m + 1) * d = i * d + (m + 1) * d := by rw [Nat.add_assoc, Nat.add_mul]
  rw [show i + m + 1 - i = m + 1 by omega]
  exact eq_floor_or_ceil hd1 (by omega) (by omega)

/-- Where `d` divides `2^32`, the carries from phase 0 fall on every `N`-th step (42_phase_accumulator_trigger.md R121). -/
theorem carriesAt_exact_period (hd : d < 2 ^ 32) (hN : d * N = 2 ^ 32) (i : Nat) :
    carriesAt 0 d i = true ↔ (i + 1) % N = 0 := by
  have hpos : 0 < d := Nat.pos_of_mul_pos_right (hN ▸ Nat.two_pow_pos 32)
  have hwraps : ∀ M, wraps 0 d M = M / N := fun M => by
    rw [wraps, Nat.zero_add, ← hN, Nat.mul_comm M, Nat.mul_div_mul_left M N hpos]
  have hsucc := wraps_succ 0 i hd
  rw [hwraps, hwraps, Nat.succ_div, Nat.add_left_cancel_iff] at hsucc
  rw [← Nat.dvd_iff_mod_eq_zero]
  cases hc : carriesAt 0 d i <;> simpa [hc] using hsucc

end Wraps

section SampleRuns

variable {s : State}

@[simp] theorem responseTrig_responseWord (err trig : Bool) (data : Word) : responseTrig (responseWord err trig data) = trig := by
  rw [responseTrig, BitVec.getLsbD_eq_getElem (by norm_num), responseWord_trig]

/-- A run of samples on an unfaulted and configured block completes, and the triggers of its responses are the carries of the phase
(44_sample_step.md R160, 42_phase_accumulator_trigger.md R120). -/
theorem sampleWords_triggers (he : s.err = false) (hc : s.cfg = true) (xs : List Word) :
    ∃ (t : State) (rs : List ResponseWord), afterCommands (sampleWords xs) s = .next t ∧ t.responses = s.responses ++ rs ∧
      rs.map responseTrig = (List.range xs.length).map (carriesAt s.phase.toNat s.delta.toNat) := by
  induction xs generalizing s with
  | nil => exact ⟨_, [], afterCommands_nil s, (List.append_nil _).symm, rfl⟩
  | cons x xs ih =>
    obtain ⟨u, hu⟩ : ∃ u, u = sampleStep x { s with commands := sampleWords xs } := ⟨_, rfl⟩
    have hfirst : trigFlag (s.phase + s.delta) s.delta = carriesAt s.phase.toNat s.delta.toNat 0 := by
      rw [trigFlag_eq_carry, carriesAt, Nat.zero_mul, Nat.add_zero, Nat.mod_eq_of_lt s.phase.isLt]
    obtain ⟨rsp, hrsp, hrspTrig⟩ : ∃ rsp, u.responses = s.responses ++ [rsp] ∧
        responseTrig rsp = carriesAt s.phase.toNat s.delta.toNat 0 :=
      ⟨_, hu ▸ sampleStep_responses x _, (responseTrig_responseWord _ _ _).trans hfirst⟩
    have hphase : u.phase.toNat = (s.phase.toNat + s.delta.toNat) % 2 ^ 32 := by rw [hu, sampleStep_phase, BitVec.toNat_add]
    have hdelta : u.delta = s.delta := by rw [hu, sampleStep_delta]
    obtain ⟨t, rs, hrun, hrs, htrig⟩ := ih (s := u) (by rw [hu, sampleStep_err]; exact he) (by rw [hu, sampleStep_cfg]; exact hc)
    refine ⟨t, rsp :: rs, (afterCommands_sample_cons he hc x _).trans (hu ▸ hrun), ?_, ?_⟩
    · rw [hrs, hrsp, List.append_assoc, List.singleton_append]
    · rw [List.map_cons, htrig, hrspTrig, List.length_cons, List.range_succ_eq_map, List.map_cons, List.map_map, hphase, hdelta]
      congr 2
      funext i
      exact (carriesAt_succ _ _ i).symm

/-- The number of triggers among responses. -/
theorem triggerCount_eq_countP (rs : List ResponseWord) : triggerCount rs = (rs.map responseTrig).countP id := by
  rw [List.countP_map, List.countP_eq_length_filter]
  rfl

/-- Settles O27: the responses of the run carry the phase's carries, and what the rule says of them is arithmetic. -/
theorem triggersFollowThePhase : Obligations.TriggersFollowThePhase := by
  intro s xs he hc hd1
  have hp := s.phase.isLt
  have hd := s.delta.isLt
  obtain ⟨t, rs, hrun, hrs, htrig⟩ := sampleWords_triggers he hc xs
  have hlen : rs.length = xs.length := by simpa using congrArg List.length htrig
  have hat : ∀ i, i < xs.length → responseTrig (rs.getD i 0#64) = carriesAt s.phase.toNat s.delta.toNat i := fun i hi => by
    have hget := congrArg (fun l => l[i]?) htrig
    simpa [hlen, hi] using hget
  have hcount : ∀ M, M ≤ xs.length → triggerCount (rs.take M) = wraps s.phase.toNat s.delta.toNat M := fun M hM => by
    rw [triggerCount_eq_countP, List.map_take, htrig, ← List.map_take, List.take_range, Nat.min_eq_left hM, List.countP_map,
      Function.id_comp, countP_carriesAt hp hd]
  refine ⟨t, rs, hrun, hrs, hlen, hcount, fun k i _ hi => ?_, fun i j hij hj hti htj hbetween => ?_, fun h0 N hN i hi => ?_⟩
  · rw [hat i hi, hcount (i + 1) hi, carriesAt_and_wraps_iff hd, passes_iff_ceil hd1]
  · rw [hat i (hij.trans hj)] at hti
    rw [hat j hj] at htj
    exact carriesAt_distance hd1 hd hij hti htj fun l hil hlj => (hat l (hlj.trans hj)).symm.trans (hbetween l hil hlj)
  · rw [hat i hi, h0]
    exact carriesAt_exact_period hd hN i

end SampleRuns

end Sys2Proof.Machine
end

section
/-! SUPPORT. Where the terms of a grain land: the slots around its centre, what adding any set of terms leaves in `Y`, and that the
grain is this sum in any order (43_overlap_add_synthesizer.md R144). -/

namespace Sys2Proof.Machine

section Offsets

theorem ringPlus_ringPlus (p : RingAddr) (a b : Int) : ringPlus (ringPlus p a) b = ringPlus p (a + b) := by
  rw [ringPlus, ringPlus, ringPlus, BitVec.ofInt_add, BitVec.add_assoc]

/-- A distance `d` from the centre is the offset `128 + d` from the anchor, a whole number from 1 to 255
(43_overlap_add_synthesizer.md R144). -/
theorem exists_offset {d : Int} (hlo : -127 ≤ d) (hhi : d ≤ 127) : ∃ j : Nat, 1 ≤ j ∧ j < 256 ∧ 128 + d = j :=
  ⟨(128 + d).toNat, by omega, by omega, by omega⟩

end Offsets

section SameButY

variable {s t u : State}

/-- Two states that differ from a third in `Y` alone are the same where their entries of `Y` are. -/
theorem State.eq_of_sameButY (ht : t = { s with y := t.y }) (hu : u = { s with y := u.y }) (hy : ∀ a, t.readY a = u.readY a) :
    t = u := by
  rw [ht, hu, State.y_ext hy]

end SameButY

section AddedTerms

variable (p : RingAddr) (g : Nat → Word)

/-- The terms `g j` added to the slots at the offsets `j` of a list, one after the other. -/
def addTerms (order : List Nat) (t : State) : State := order.foldl (fun t (j : Nat) => addToSlot (ringPlus p j) (g j) t) t

theorem addTerms_frame (order : List Nat) (t : State) : addTerms p g order t = { t with y := (addTerms p g order t).y } := by
  induction order generalizing t with
  | nil => rfl
  | cons i order ih => exact ih (addToSlot (ringPlus p i) (g i) t)

/-- Distinct offsets name distinct slots, so each slot of the list gains its own term and every other slot stays as it was. -/
theorem addTerms_readY {order : List Nat} (hnodup : order.Nodup) (hlt : ∀ i ∈ order, i < 256) (t : State) {j : Nat} (hj : j < 256) :
    (addTerms p g order t).readY (ringPlus p j) =
      if j ∈ order then fadd (t.readY (ringPlus p j)) (g j) else t.readY (ringPlus p j) := by
  induction order generalizing t with
  | nil => rfl
  | cons i order ih =>
    obtain ⟨hi, hnodup⟩ := List.nodup_cons.mp hnodup
    have hrest := ih hnodup (fun k hk => hlt k (List.mem_cons_of_mem i hk)) (addToSlot (ringPlus p i) (g i) t)
    rw [show addTerms p g (i :: order) t = addTerms p g order (addToSlot (ringPlus p i) (g i) t) from rfl, hrest, addToSlot]
    by_cases hji : j = i
    · subst hji
      rw [if_neg hi, State.readY_writeY_same, if_pos List.mem_cons_self]
    · have hne : ringPlus p i ≠ ringPlus p j := fun he => hji (ringPlus_inj (hlt i List.mem_cons_self) hj he).symm
      simp only [State.readY_writeY_ne _ _ hne, List.mem_cons, hji, false_or]

/-- A grain adds its 255 terms in any order: each list of the offsets 1 to 255 gives its state (43_overlap_add_synthesizer.md
R144). -/
theorem addTerms_eq_olaGrain (s : State) {order : List Nat} (horder : order.Perm (List.range' 1 255)) :
    addTerms p (offsetTerm s) order s = olaGrain p s := by
  have hmem : ∀ j, j ∈ order ↔ 1 ≤ j ∧ j < 256 := fun j => by rw [horder.mem_iff, List.mem_range'_1]
  refine State.eq_of_sameButY (addTerms_frame p _ order s) (olaGrain_frame p s) fun a => ?_
  have hj := (a - p).isLt
  rw [← ringPlus_offset p a, olaGrain_readY p s _ hj,
    addTerms_readY p _ (horder.nodup_iff.mpr List.nodup_range') (fun i hi => ((hmem i).mp hi).2) s hj]
  by_cases h0 : (a - p).toNat = 0
  · rw [if_neg (by rw [hmem]; omega), if_pos h0]
  · rw [if_pos (by rw [hmem]; omega), if_neg h0]

end AddedTerms

section Footprint

variable (p : RingAddr) (s : State)

/-- A slot of the grain gains exactly its own term (43_overlap_add_synthesizer.md R144). -/
theorem olaGrain_readY_slot {j : Nat} (h1 : 1 ≤ j) (hj : j < 256) :
    (olaGrain p s).readY (ringPlus p j) = fadd (s.readY (ringPlus p j)) (grainValue s ((j : Int) - 128)) := by
  rw [olaGrain_readY p s j hj, if_neg (by omega), offsetTerm_eq_grainValue s h1 hj]

/-- The anchor gains nothing (43_overlap_add_synthesizer.md R144). -/
theorem olaGrain_readY_anchor : (olaGrain p s).readY p = s.readY p := by
  have h := olaGrain_readY p s 0 (by decide)
  rwa [if_pos rfl, ringPlus_natCast, BitVec.add_zero] at h

/-- Settles O39: slot by slot a grain adds the term of that slot's offset, and any order of the 255 additions leaves the same `Y`. -/
theorem grainFootprint : Obligations.GrainFootprint := by
  refine fun p s => ⟨olaGrain_readY_anchor p s, fun d hlo hhi => ?_, fun d e hdlo hdhi helo hehi h => ?_, olaGrain_frame p s,
    fun order horder => ?_⟩
  · obtain ⟨j, h1, hj, hd⟩ := exists_offset hlo hhi
    have hdist : d = (j : Int) - 128 := by omega
    rw [ringPlus_ringPlus, hd, olaGrain_readY_slot p s h1 hj, hdist]
    exact ⟨rfl, rfl⟩
  · obtain ⟨j, -, hj, hd⟩ := exists_offset hdlo hdhi
    obtain ⟨k, -, hk, he⟩ := exists_offset helo hehi
    rw [ringPlus_ringPlus, ringPlus_ringPlus, hd, he] at h
    have := ringPlus_inj hj hk h
    omega
  · rw [← addTerms_eq_olaGrain p s horder, bind_pure_comp, List.map_eq_map, List.foldl_map]
    refine List.foldl_ext _ _ s fun t j hj => ?_
    rw [horder.mem_iff, List.mem_range'_1] at hj
    rw [offsetTerm_eq_grainValue s hj.1 hj.2]

end Footprint

end Sys2Proof.Machine
end

section
/-! SUPPORT. The window: index 0 is never read, and the default table entry by entry, a palindrome of numbers from 0 to 1
(43_overlap_add_synthesizer.md R147, R148). -/

namespace Sys2Proof.Machine

section UnreadEntry

/-- The window index of a term that a grain adds is never 0 (43_overlap_add_synthesizer.md R148). -/
theorem readW_set_zero (s : State) (v : Word) {j : Nat} (h1 : 1 ≤ j) (hj : j < 256) :
    State.readW { s with w := s.w.set 0 v } (windowIndex j) = s.readW (windowIndex j) := by
  have hne : 0 ≠ (windowIndex j).toNat := by rw [windowIndex_toNat hj]; omega
  exact Vector.getElem_set_ne (by decide) _ hne

/-- A grain is the same whatever stands in `W[0]` (43_overlap_add_synthesizer.md R148). -/
theorem olaGrain_set_zero_y (p : RingAddr) (s : State) (v : Word) : (olaGrain p { s with w := s.w.set 0 v }).y = (olaGrain p s).y := by
  refine State.y_ext fun a => ?_
  have hj := (a - p).isLt
  rw [← ringPlus_offset p a, olaGrain_readY _ _ _ hj, olaGrain_readY _ _ _ hj]
  by_cases h0 : (a - p).toNat = 0
  · rw [if_pos h0, if_pos h0]
    rfl
  · rw [if_neg h0, if_neg h0, offsetTerm, readW_set_zero s v (by omega) hj]
    rfl

end UnreadEntry

section DefaultTable

theorem hannTable_tail_length : hannTable.tail.length = 255 := by decide +kernel

/-- From index 1 on the default table reads the same in both directions (43_overlap_add_synthesizer.md R148). -/
theorem hannTable_palindrome : hannTable.tail.reverse = hannTable.tail := by decide +kernel

/-- No entry of the default table is past 1.0 as a pattern, so none has its sign bit set (43_overlap_add_synthesizer.md R148). -/
theorem hannTable_le_one {v : Word} (hv : v ∈ hannTable) : v.toNat ≤ 0x3F800000 := by
  have hall : hannTable.all (fun u => decide (u.toNat ≤ 0x3F800000)) = true := by decide +kernel
  exact of_decide_eq_true (List.all_eq_true.mp hall v hv)

variable {s : State} (h : s.w = defaultWindowRom)
include h

theorem getElem?_hannTable (i : RingAddr) : hannTable[i.toNat]? = some (s.readW i) := by
  rw [State.readW, ← Vector.getElem?_eq_getElem, h, defaultWindowRom, Vector.getElem?_mk, List.getElem?_toArray]

theorem getElem?_hannTable_index {i : Nat} (hi : i < 256) : hannTable[i]? = some (s.readW (windowIndex i)) := by
  rw [← getElem?_hannTable h, windowIndex_toNat hi]

/-- The default window is symmetric about index 128 (43_overlap_add_synthesizer.md R148). -/
theorem readW_default_symm {i : Nat} (h1 : 1 ≤ i) (hi : i ≤ 255) : s.readW (windowIndex i) = s.readW (windowIndex (256 - i)) := by
  have hmirror : hannTable[i]? = hannTable[256 - i]? := by
    obtain ⟨k, rfl⟩ : ∃ k, i = k + 1 := ⟨i - 1, by omega⟩
    rw [show 256 - (k + 1) = 255 - 1 - k + 1 by omega, ← List.getElem?_tail, ← List.getElem?_tail, ← hannTable_tail_length,
      ← List.getElem?_reverse (by rw [hannTable_tail_length]; omega), hannTable_palindrome]
  rwa [getElem?_hannTable_index h (by omega), getElem?_hannTable_index h (by omega), Option.some_inj] at hmirror

theorem readW_default_le_one (i : RingAddr) : (s.readW i).toNat ≤ 0x3F800000 := by
  exact hannTable_le_one (List.mem_of_getElem? (getElem?_hannTable h i))

end DefaultTable

section UnitInterval

variable {w : Word}

/-- A pattern up to 1.0 has its sign bit clear. -/
theorem signBit_eq_false_of_le (hw : w.toNat ≤ 0x7FFFFFFF) : signBit w = false := by
  rw [signBit_eq_decide, decide_eq_false (by omega)]

theorem magnitudeBits_eq_toNat (hw : w.toNat ≤ 0x7FFFFFFF) : magnitudeBits w = w.toNat := Nat.mod_eq_of_lt (by omega)

/-- A pattern up to that of 1.0 stands for a number from 0 to 1 (00_scope.md R11). -/
theorem binary32Value_mem_unit (hw : w.toNat ≤ 0x3F800000) :
    isFinite w ∧ 0 ≤ binary32Value w ∧ binary32Value w ≤ 1 := by
  have hbits : magnitudeBits w ≤ 0x3F800000 := by rwa [magnitudeBits_eq_toNat (by omega)]
  have hunits : (magnitudeUnits w : ℚ) ≤ 2 ^ 149 := by exact_mod_cast magnitudeUnits_le_of_magnitudeBits_le hbits
  have hvalue : binary32Value w = magnitudeUnits w / 2 ^ 149 := by
    rw [binary32Value_eq_units, signBit_eq_false_of_le (by omega), signValue, unitValue]
    simp [div_eq_mul_inv]
  refine ⟨isFinite_of_magnitudeBits_le hbits (by decide), ?_, ?_⟩
  · rw [hvalue]
    positivity
  · rw [hvalue]
    exact div_le_one_of_le₀ hunits (by positivity)

end UnitInterval

/-- Settles O41: a grain reads `W` from index 1 on, and the default table has the listed properties entry by entry. -/
theorem windowTableProperties : Obligations.WindowTableProperties := by
  refine ⟨olaGrain_set_zero_y, fun s h => ?_⟩
  have hentry : ∀ (i : RingAddr) (v : Word), hannTable[i.toNat]? = some v → s.readW i = v := fun i v hv =>
    Option.some_injective _ ((getElem?_hannTable h i).symm.trans hv)
  exact ⟨hentry _ _ rfl, hentry _ _ rfl, hentry _ _ rfl, hentry _ _ rfl, hentry _ _ rfl, hentry _ _ rfl,
    fun i h1 hi => readW_default_symm h h1 hi, fun i => binary32Value_mem_unit (readW_default_le_one h i)⟩

end Sys2Proof.Machine
end

section
/-! SUPPORT. The grain scale as a function of the energy: its value for the listed energies, for a NaN and for an infinite energy, and
its bounds for every finite one (43_overlap_add_synthesizer.md R141, R149). -/

namespace Sys2Proof.Machine

/-- The grain scale of an energy (43_overlap_add_synthesizer.md R141). -/
def scaleOf (energy : Word) : Word := fdiv oneWord (fsqrt (fadd energy epsilonWord))

theorem grainScale_eq_scaleOf (s : State) : grainScale s = scaleOf (s.readR 0#7) := rfl

section ListedValues

theorem scaleOf_zero : scaleOf 0x00000000#32 = 0x42000000#32 := by decide +kernel

theorem scaleOf_one : scaleOf 0x3F800000#32 = 0x3F7FE006#32 := by decide +kernel

theorem scaleOf_four : scaleOf 0x40800000#32 = 0x3EFFF800#32 := by decide +kernel

theorem scaleOf_epsilon : scaleOf 0x3A800000#32 = 0x41B504F3#32 := by decide +kernel

/-- Settles O42: the scale reads the state through `R[0]` alone, and its value for each listed energy is computed. -/
theorem grainScaleValues : Obligations.GrainScaleValues := by
  intro s
  rw [grainScale_eq_scaleOf]
  exact ⟨fun h => h ▸ scaleOf_zero, fun h => h ▸ scaleOf_one, fun h => h ▸ scaleOf_four, fun h => h ▸ scaleOf_epsilon⟩

end ListedValues

section SpecialEnergies

variable {a : Word}

theorem isFinite_oneWord : isFinite oneWord := by decide

theorem isFinite_epsilonWord : isFinite epsilonWord := by decide

/-- A NaN energy gives a NaN scale (43_overlap_add_synthesizer.md R149). -/
theorem scaleOf_nan (ha : isNaN a) : scaleOf a = canonicalNaN := by
  rw [scaleOf, fadd_nan_left ha, fsqrt_nan isNaN_canonicalNaN, fdiv_nan_right _ isNaN_canonicalNaN]

/-- An infinite energy gives the scale +0 (43_overlap_add_synthesizer.md R149). -/
theorem scaleOf_infinity : scaleOf (packFloat false infinityMagnitude) = packFloat false 0 := by
  have hsum : fadd (packFloat false infinityMagnitude) epsilonWord = packFloat false infinityMagnitude :=
    fadd_infinite_finite (classify_packFloat_infinity false) (classify_of_isFinite isFinite_epsilonWord)
  have hroot : fsqrt (packFloat false infinityMagnitude) = packFloat false infinityMagnitude :=
    fsqrt_infinite (classify_packFloat_infinity false)
  rw [scaleOf, hsum, hroot]
  exact fdiv_finite_infinite (classify_of_isFinite isFinite_oneWord) (classify_packFloat_infinity false)

end SpecialEnergies

section Bounds

variable {a : Word}

/-- A finite energy with `EPS` is a finite sum of at least `EPS`: the greatest energy absorbs it. -/
theorem fadd_epsilonWord_bounds (ha : a.toNat ≤ 0x7F7FFFFF) :
    ∃ M, fadd a epsilonWord = packFloat false M ∧ 0x3A800000 ≤ M ∧ M < infinityMagnitude := by
  have hbits : magnitudeBits a ≤ 0x7F7FFFFF := by rwa [magnitudeBits_eq_toNat (by omega)]
  have hsum : sumUnits a epsilonWord = ((magnitudeUnits a + magnitudeUnits epsilonWord : Nat) : Int) := by
    rw [sumUnits, signBit_eq_false_of_le (by omega), show signBit epsilonWord = false by decide]
    rfl
  have hunits := magnitudeUnits_le_of_magnitudeBits_le hbits
  have heps : magnitudeUnits epsilonWord = 2 ^ 139 := by decide
  refine ⟨roundMagnitude (magnitudeUnits a + magnitudeUnits epsilonWord) 1, ?_, ?_, ?_⟩
  · rw [fadd_of_isFinite (isFinite_of_magnitudeBits_le hbits (by decide)) isFinite_epsilonWord, hsum, Int.natAbs_natCast,
      if_neg (by omega), decide_eq_false (by omega)]
  · refine le_roundMagnitude_of_le Nat.one_pos (by decide) ?_
    have hp : patternUnits 0x3A800000 = 2 ^ 139 := by decide
    omega
  · refine lt_of_le_of_lt (roundMagnitude_le_of_lt_middle (p := 0x7F7FFFFF) Nat.one_pos (by decide) ?_) (by decide)
    have hmid : 2 * (patternUnits 0x7F7FFFFF + 2 ^ 139) < patternUnits 0x7F7FFFFF + patternUnits (0x7F7FFFFF + 1) := by decide
    rw [heps, Nat.mul_one]
    exact (Nat.mul_le_mul_left 2 (Nat.add_le_add_right hunits _)).trans_lt hmid

/-- The root of a finite pattern from `EPS` on lies from `sqrt EPS = 2^-5` (`0x3D000000`) up to `2^65` (`0x60000000`). -/
theorem fsqrt_bounds {M : Nat} (hlo : 0x3A800000 ≤ M) (hhi : M < infinityMagnitude) :
    ∃ Q, fsqrt (packFloat false M) = packFloat false Q ∧ 0x3D000000 ≤ Q ∧ Q ≤ 0x60000000 := by
  have hM := lt_of_le_infinityMagnitude hhi.le
  have hfin : isFinite (packFloat false M) := by rwa [isFinite_iff_magnitudeBits, magnitudeBits_packFloat hM]
  have hunits : 2 ^ 139 ≤ magnitudeUnits (packFloat false M) := by
    rw [magnitudeUnits_eq_patternUnits, magnitudeBits_packFloat hM]
    exact (show 2 ^ 139 = patternUnits 0x3A800000 by decide).trans_le (patternUnits_le hlo)
  have hlt := magnitudeUnits_lt hfin
  rw [fsqrt_of_isFinite hfin (by omega) (signBit_packFloat hM)]
  obtain ⟨hsq, hsucc⟩ := rootFloor_radicand hlt
  generalize rootFloor 2 (magnitudeUnits (packFloat false M) * 2 ^ 149) 214 0 = r at *
  have hr : 2 ^ 144 ≤ r := by
    refine Nat.le_of_lt_succ (lt_of_pow_lt_pow_left₀ 2 (Nat.zero_le _) (lt_of_le_of_lt ?_ hsucc))
    exact Nat.mul_le_mul_right (2 ^ 149) hunits
  have hr' : r < 2 ^ 213 := by
    refine lt_of_pow_lt_pow_left₀ 2 (Nat.zero_le _) (lt_of_le_of_lt hsq ?_)
    exact (Nat.mul_lt_mul_of_pos_right hlt (by positivity)).trans_eq (by norm_num)
  refine ⟨_, rfl, le_roundMagnitude_of_le Nat.two_pos (by decide) ?_, roundMagnitude_le_of_le Nat.two_pos (by decide) ?_⟩
  · rw [show patternUnits 0x3D000000 = 2 ^ 144 by decide]
    omega
  · rw [show patternUnits 0x60000000 = 2 ^ 214 by decide]
    split_ifs <;> omega

/-- The scale of a finite energy: the quotient of 1.0 by the root, from `2^-65` (`0x1F000000`) up to 32.0 (`0x42000000`)
(43_overlap_add_synthesizer.md R149). -/
theorem scaleOf_bounds (ha : a.toNat ≤ 0x7F7FFFFF) : 0x1F000000 ≤ (scaleOf a).toNat ∧ (scaleOf a).toNat ≤ 0x42000000 := by
  obtain ⟨M, hsum, hMlo, hMhi⟩ := fadd_epsilonWord_bounds ha
  obtain ⟨Q, hroot, hQlo, hQhi⟩ := fsqrt_bounds hMlo hMhi
  have hQ : Q < 2 ^ 31 := by omega
  have hunits : magnitudeUnits (packFloat false Q) = patternUnits Q := by
    rw [magnitudeUnits_eq_patternUnits, magnitudeBits_packFloat hQ]
  have hlo : 2 ^ 144 ≤ patternUnits Q := (show 2 ^ 144 = patternUnits 0x3D000000 by decide).trans_le (patternUnits_le hQlo)
  have hhi : patternUnits Q ≤ 2 ^ 214 := (patternUnits_le hQhi).trans_eq (by decide)
  have hfin : isFinite (packFloat false Q) :=
    isFinite_of_magnitudeBits_le ((magnitudeBits_packFloat hQ).trans_le hQhi) (by decide)
  rw [scaleOf, hsum, hroot, fdiv_of_isFinite isFinite_oneWord hfin (by omega), signBit_packFloat hQ, hunits,
    show (signBit oneWord ^^ false) = false by decide, show magnitudeUnits oneWord = 2 ^ 149 by decide,
    packFloat_toNat (lt_of_le_infinityMagnitude roundMagnitude_le), if_neg Bool.false_ne_true, Nat.zero_add]
  constructor
  · refine le_roundMagnitude_of_le (by omega) (by decide) ?_
    rw [show patternUnits 0x1F000000 = 2 ^ 84 by decide]
    omega
  · refine roundMagnitude_le_of_le (by omega) (by decide) ?_
    rw [show patternUnits 0x42000000 = 2 ^ 154 by decide]
    omega

/-- Settles O43: the root under the scale is at least `2^-5` and finite. -/
theorem grainScaleIsBounded : Obligations.GrainScaleIsBounded := by
  intro s hs
  obtain ⟨hlo, hhi⟩ := scaleOf_bounds hs
  rw [grainScale_eq_scaleOf]
  exact ⟨by omega, hhi⟩

end Bounds

end Sys2Proof.Machine
end

section
/-! SUPPORT. The terms of a grain with the default window: they are a palindrome about its centre, zeros for a silent profile, and what
a NaN or an infinite energy makes of them (43_overlap_add_synthesizer.md R145, R149). -/

namespace Sys2Proof.Machine

section Products

variable {a b w : Word}

/-- 1.0 is neutral in a product of what is no NaN (00_scope.md R12). -/
theorem fmul_oneWord (ha : ¬ isNaN a) : fmul a oneWord = a := by
  rcases classify_cases a with ⟨hn, -⟩ | hinf | ⟨hfin, -⟩
  · exact absurd hn ha
  · rw [fmul_infinity_left hinf isFinite_oneWord (by decide), show signBit oneWord = false by decide, Bool.xor_false,
      ← eq_infinity hinf]
  · have hbits := (isFinite_iff_magnitudeBits a).mp hfin
    have hexact : roundMagnitude (magnitudeUnits a * 2 ^ 149) (2 ^ 149) = magnitudeBits a := by
      rw [magnitudeUnits_eq_patternUnits]
      exact le_antisymm (roundMagnitude_le_of_le (by positivity) hbits (le_refl _))
        (le_roundMagnitude_of_le (by positivity) hbits.le (le_refl _))
    rw [fmul_of_isFinite hfin isFinite_oneWord, show magnitudeUnits oneWord = 2 ^ 149 by decide, hexact,
      show signBit oneWord = false by decide, Bool.xor_false, packFloat_signBit_magnitudeBits]

/-- A factor up to 1.0 leaves a finite value finite. -/
theorem fmul_isFinite_of_le_one (ha : isFinite a) (hw : w.toNat ≤ 0x3F800000) : isFinite (fmul a w) := by
  have hbits : magnitudeBits w ≤ 0x3F800000 := by rwa [magnitudeBits_eq_toNat (by omega)]
  have hfin := (isFinite_iff_magnitudeBits a).mp ha
  refine isFinite_of_magnitudeBits_le
    (magnitudeBits_fmul_le ha (isFinite_of_magnitudeBits_le hbits (by decide)) hfin ?_) hfin
  rw [magnitudeUnits_eq_patternUnits a]
  exact Nat.mul_le_mul_left _ ((magnitudeUnits_le_of_magnitudeBits_le hbits).trans_eq (by decide))

/-- The patterns of a zero magnitude are the two zeros. -/
theorem eq_zero_or_negZero (h : magnitudeBits w = 0) : w = 0x00000000#32 ∨ w = 0x80000000#32 := by
  rw [← packFloat_signBit_magnitudeBits w, h]
  cases signBit w
  · exact .inl rfl
  · exact .inr rfl

end Products

section DefaultWindow

variable {s : State} (h : s.w = defaultWindowRom)
include h

theorem readW_default_centre : s.readW (windowIndex 128) = oneWord :=
  Option.some_injective _ (getElem?_hannTable_index h (by decide)).symm

theorem grainValue_neg {d : Int} (hlo : -127 ≤ d) (hhi : d ≤ 127) : grainValue s (-d) = grainValue s d := by
  have hmirror : 256 - (128 + d).toNat = (128 + -d).toNat := by omega
  rw [grainValue, grainValue, Int.natAbs_neg, readW_default_symm h (i := (128 + d).toNat) (by omega) (by omega), hmirror]

/-- The centre term, whatever the energy: a NaN energy makes both sides the canonical NaN (43_overlap_add_synthesizer.md R145). -/
theorem grainValue_zero : grainValue s 0 = fmul (s.readR 0#7) (grainScale s) := by
  have hterm : grainValue s 0 = fmul (fmul (s.readR 0#7) oneWord) (grainScale s) := by
    rw [← readW_default_centre h]
    rfl
  rw [hterm]
  by_cases hnan : isNaN (s.readR 0#7)
  · rw [fmul_nan_left hnan, fmul_nan_left hnan, fmul_nan_left isNaN_canonicalNaN]
  · rw [fmul_oneWord hnan]

/-- A finite lag with a finite scale gives a zero where the lag or the scale is a zero. -/
theorem magnitudeBits_grainValue_zero {d : Int} (hR : isFinite (s.readR (lagIndex d.natAbs))) (hscale : isFinite (grainScale s))
    (h0 : magnitudeBits (s.readR (lagIndex d.natAbs)) = 0 ∨ magnitudeBits (grainScale s) = 0) : magnitudeBits (grainValue s d) = 0 := by
  have hw := readW_default_le_one h (windowIndex (128 + d).toNat)
  refine magnitudeBits_fmul_zero (fmul_isFinite_of_le_one hR hw) hscale (h0.imp_left fun hzero => ?_)
  exact magnitudeBits_fmul_zero hR (binary32Value_mem_unit hw).1 (.inl hzero)

end DefaultWindow

/-- Settles O40: the window is symmetric about index 128, where it is 1.0. -/
theorem grainIsAPalindrome : Obligations.GrainIsAPalindrome :=
  fun _ h => ⟨fun _ hlo hhi => (grainValue_neg h hlo hhi).symm, grainValue_zero h⟩

/-- Settles O44: every term of a silent grain is a zero, and a zero added to a clean slot leaves it as it is. -/
theorem silentGrainChangesNothing : Obligations.SilentGrainChangesNothing := by
  intro p s h hR hclean
  have hscale : grainScale s = 0x42000000#32 := by rw [grainScale_eq_scaleOf, hR, scaleOf_zero]
  refine ⟨hscale, State.eq_of_sameButY (olaGrain_frame p s) rfl fun a => ?_⟩
  have hj := (a - p).isLt
  rw [← ringPlus_offset p a]
  by_cases h0 : (a - p).toNat = 0
  · rw [olaGrain_readY p s _ hj, if_pos h0]
  · rw [olaGrain_readY_slot p s (by omega) hj]
    refine fadd_zero_right (hclean _) (magnitudeBits_grainValue_zero h ?_ ?_ (.inl ?_))
    · rw [hR]; decide
    · rw [hscale]; decide
    · rw [hR]; decide

/-- Settles O45: a NaN scale makes every term a NaN; the scale +0 makes the centre a NaN, from `+inf * 0`, and every other finite lag a
zero. -/
theorem naNAndInfiniteEnergyGrains : Obligations.NaNAndInfiniteEnergyGrains := by
  refine fun p s => ⟨fun hnan j h1 hj => ?_, fun h hR => ?_⟩
  · have hterm : grainValue s ((j : Int) - 128) = canonicalNaN := by
      rw [grainValue, grainTerm, grainScale_eq_scaleOf, scaleOf_nan hnan, fmul_nan_right _ isNaN_canonicalNaN]
    rw [olaGrain_readY_slot p s h1 (by omega), hterm, fadd_nan_right _ isNaN_canonicalNaN]
  · have hscale : grainScale s = packFloat false 0 := by
      rw [grainScale_eq_scaleOf, hR]
      exact scaleOf_infinity
    have hcentre : grainValue s 0 = canonicalNaN := by
      rw [grainValue_zero h, hscale, hR]
      exact (fmul_infinite_finite (classify_packFloat_infinity false) (classify_packFloat_zero false)).trans (if_pos rfl)
    refine ⟨hscale, ?_, fun d _ _ hfin => eq_zero_or_negZero (magnitudeBits_grainValue_zero h hfin ?_ (.inr ?_))⟩
    · have hslot := olaGrain_readY_slot p s (j := 128) (by decide) (by decide)
      exact hslot.trans (by rw [show ((128 : Nat) : Int) - 128 = 0 from rfl, hcentre, fadd_nan_right _ isNaN_canonicalNaN])
    · rw [hscale]; decide
    · rw [hscale]; decide

end Sys2Proof.Machine
end

section
/-! SUPPORT. The sample step as one command: what it answers and what it leaves in every slot, the runs of samples, and the latency of a
grain (44_sample_step.md R160 to R164). -/

namespace Sys2Proof.Machine

section SampleStepEffects

variable {s : State} {x : Word}

/-- A value of a grain reads `R` and `W` alone (43_overlap_add_synthesizer.md R144). -/
theorem grainValue_congr {t u : State} (hr : t.r = u.r) (hw : t.w = u.w) (d : Int) : grainValue t d = grainValue u d := by
  simp only [grainValue, grainScale, State.readR, State.readW, hr, hw]

/-- The response of a sample step: the carry, and the output slot as it stood before the step (44_sample_step.md R160, R162). -/
theorem sampleStep_responses_eq (x : Word) (s : State) : (sampleStep x s).responses =
    s.responses ++ [responseWord s.err (decide (2 ^ 32 ≤ s.phase.toNat + s.delta.toNat)) (s.readY s.pos)] := by
  rw [sampleStep_responses, trigFlag_eq_carry, grainedState_readY_pos]

/-- Lag `L >= 1` after a sample step blends the input with an entry of `X` from before it (41_leaky_autocorrelator.md R100). -/
theorem readR_sampleStep_lag {L : Nat} (h1 : 1 ≤ L) (h127 : L ≤ 127) : (sampleStep x s).readR (lagIndex L) =
    blendLag (s.readR (lagIndex L)) x (s.readX (ringMinus s.pos L)) := by
  have hL : (lagIndex L).toNat = L := lagIndex_toNat (by omega)
  have h0 : lagIndex L ≠ 0#7 := fun h => by
    rw [h, BitVec.toNat_ofNat] at hL
    omega
  rw [readR_sampleStep, blendedState_readR, if_neg h0, hL]

/-- A slot at an offset from 1 to 255 from the output slot is another slot (43_overlap_add_synthesizer.md R144). -/
theorem ringPlus_ne_self (p : RingAddr) {j : Nat} (h1 : 1 ≤ j) (hj : j < 256) : ringPlus p j ≠ p := fun h => by
  have h0 : ringPlus p j = ringPlus p (0 : Nat) := by rw [h, ringPlus_natCast, BitVec.add_zero]
  have := ringPlus_inj hj (by norm_num) h0
  omega

/-- A slot at an offset from 1 to 255 after a sample step: it gains its term, computed from the new `R`, exactly where the step triggers
(43_overlap_add_synthesizer.md R144, 44_sample_step.md R160). -/
theorem readY_sampleStep_slot {j : Nat} (h1 : 1 ≤ j) (hj : j < 256) : (sampleStep x s).readY (ringPlus s.pos j) =
    if 2 ^ 32 ≤ s.phase.toNat + s.delta.toNat then
      fadd (s.readY (ringPlus s.pos j)) (grainValue (sampleStep x s) ((j : Int) - 128))
    else s.readY (ringPlus s.pos j) := by
  split_ifs with hcarry
  · have htrig : ¬ (j = 0 ∨ trigFlag (s.phase + s.delta) s.delta = false) := by
      rw [trigFlag_eq_carry, decide_eq_true hcarry, or_iff_left (by decide)]
      omega
    have hterm : offsetTerm (blendedState x s) j = grainValue (sampleStep x s) ((j : Int) - 128) := by
      rw [offsetTerm_eq_grainValue _ h1 hj]
      exact grainValue_congr (sampleStep_r x s).symm (by rw [blendedState_w, sampleStep_w]) _
    rw [readY_sampleStep, if_neg (ringPlus_ne_self _ h1 hj), grainedState_readY x s j hj, if_neg htrig, hterm]
  · exact readY_sampleStep_of_no_carry x (not_le.mp hcarry) (ringPlus_ne_self _ h1 hj)

/-- Settles O28: a configured block runs the sample step, and each clause is what one of its steps (a) to (g) leaves. -/
theorem sampleRunsOneSampleStep : Obligations.SampleRunsOneSampleStep := by
  intro s x he hc
  refine ⟨sampleStep x s, exec_sample he hc x, ?_, fun a ha => ?_, ?_, fun L h1 h127 => ?_, sampleStep_phase x s, ?_,
    fun d hlo hhi => ?_, sampleStep_pos x s, ?_, sampleStep_w x s, sampleStep_delta x s, sampleStep_fs x s, sampleStep_cfg x s,
    sampleStep_err x s, sampleStep_cause x s, sampleStep_commands x s, ?_⟩
  · rw [readX_sampleStep, if_pos rfl]
  · rw [readX_sampleStep, if_neg ha]
  · rw [readR_sampleStep, blendedState_readR_zero, blendLag]
  · rw [readR_sampleStep_lag h1 h127, blendLag]
  · rw [readY_sampleStep, if_pos rfl, zeroWord]
  · obtain ⟨j, h1, hj, hd⟩ := exists_offset hlo hhi
    rw [hd, readY_sampleStep_slot h1 hj, show (j : Int) - 128 = d by omega]
  · rw [sampleStep_pos, ringMinus, ringPlus, BitVec.add_sub_cancel, readX_sampleStep, if_pos rfl]
  · rw [sampleStep_responses_eq, he]

/-- Settles O29: an unconfigured block takes the fault branch of SAMPLE. -/
theorem sampleBeforeResetFaults : Obligations.SampleBeforeResetFaults := by
  intro s x he hc
  rw [exec_eq_execOver, execOver, execSample, unlessFaulted_of_ok he]
  rcases sampleCommand_cases s x with ⟨-, h⟩ | ⟨hc', -⟩
  · rw [h, raiseFault_eq, faultCode]
  · rw [hc] at hc'; contradiction

end SampleStepEffects

section Streams

variable {s : State}

/-- Two states with the same block and the same channels are the same. -/
theorem State.eq_of_sameBlock {t u : State} (h : t.sameBlock u) (hcommands : t.commands = u.commands)
    (hresponses : t.responses = u.responses) : t = u := by
  cases t
  cases u
  simp_all [State.sameBlock]

/-- The words on the command channel have no part in the new profile. -/
theorem blendedState_r_withCommands (x : Word) (s : State) (ws : List CommandWord) :
    (blendedState x { s with commands := ws }).r = (blendedState x s).r :=
  State.r_ext fun L => by
    rw [blendedState_readR, blendedState_readR]
    rfl

/-- The words on the command channel have no part in the slots before the readout. -/
theorem grainedState_y_withCommands (x : Word) (s : State) (ws : List CommandWord) :
    (grainedState x { s with commands := ws }).y = (grainedState x s).y := by
  refine State.y_ext fun a => ?_
  have hleft := grainedState_readY x { s with commands := ws } _ (a - s.pos).isLt
  have hright := grainedState_readY x s _ (a - s.pos).isLt
  rw [offsetTerm_congr (u := blendedState x s) (blendedState_r_withCommands x s ws) (by rw [blendedState_w, blendedState_w])] at hleft
  rw [ringPlus_offset] at hleft hright
  exact hleft.trans hright.symm

/-- No sample step reads or writes the command channel (30_encoding.md R70). -/
theorem sampleStep_withCommands (x : Word) (s : State) (ws : List CommandWord) :
    sampleStep x { s with commands := ws } = { sampleStep x s with commands := ws } := by
  refine State.eq_of_sameBlock ?_ (by rw [sampleStep_commands]) (by rw [sampleStep_responses_eq, sampleStep_responses_eq]; rfl)
  simp only [State.sameBlock, sampleStep_x, sampleStep_y, sampleStep_r, sampleStep_w, sampleStep_phase, sampleStep_delta,
    sampleStep_pos, sampleStep_fs, sampleStep_cfg, sampleStep_err, sampleStep_cause, blendedState_r_withCommands,
    grainedState_y_withCommands, and_self]

/-- What a host has on the channel gives way to the stream that it issues (30_encoding.md R70). -/
theorem afterCommands_withCommands (ws cs : List CommandWord) (s : State) :
    afterCommands ws { s with commands := cs } = afterCommands ws s := rfl

/-- A stream of samples goes on from the sample step of its first one (44_sample_step.md R160). -/
theorem afterCommands_sampleWords_cons (he : s.err = false) (hc : s.cfg = true) (x : Word) (xs : List Word) :
    afterCommands (sampleWords (x :: xs)) s = afterCommands (sampleWords xs) (sampleStep x s) := by
  rw [sampleWords, List.map_cons, afterCommands_sample_cons he hc, sampleStep_withCommands,
    afterCommands_withCommands, sampleWords]

/-- A single sample completes, with the response of its sample step (44_sample_step.md R160). -/
theorem exists_afterCommands_sample (he : s.err = false) (hc : s.cfg = true) (x : Word) :
    ∃ t, afterCommands (sampleWords [x]) s = .next t ∧ t.responses = (sampleStep x s).responses :=
  ⟨_, (afterCommands_sampleWords_cons he hc x []).trans (afterCommands_nil _), rfl⟩

/-- The default `DELTA_OF` of the default note fits 32 bits from 221 Hz on (45_control.md R181). -/
theorem defaultDeltaOf_defaultNote_lt {f : Nat} (hf : 221 ≤ f) : defaultDeltaOf f 57 < 2 ^ 32 := by
  rw [← not_le, overflow_defaultNote_iff (by omega)]
  omega

/-- A stream that begins with a RESET from 221 Hz on goes on from the block that it clears (45_control.md R180, R181). -/
theorem afterCommands_reset_cons (he : s.err = false) {f : Word} (hf : 221 ≤ f.toNat) (ws : List CommandWord) :
    afterCommands (encode (.reset f) :: ws) s =
      afterCommands ws (respond zeroWord false (warmReset f (defaultDeltaOf f.toNat 57) s)) := by
  have hexec : exec (.reset f) { s with commands := ws } =
      .next (respond zeroWord false (warmReset f (defaultDeltaOf f.toNat 57) { s with commands := ws })) := by
    rw [exec_eq_execOver, execOver_reset (s := { s with commands := ws }) he (by omega), defaultParameters_deltaOf,
      if_neg (not_le.mpr (defaultDeltaOf_defaultNote_lt hf))]
  exact (afterCommands_encode_cons hexec).trans rfl

end Streams

section PositionOfRuns

variable {s : State}

/-- A run of samples moves `POS` by its length modulo 256 (10_state.md R27). -/
theorem sampleWords_pos (he : s.err = false) (hc : s.cfg = true) (xs : List Word) :
    ∃ t, afterCommands (sampleWords xs) s = .next t ∧ t.pos = ringPlus s.pos xs.length := by
  induction xs generalizing s with
  | nil => exact ⟨_, afterCommands_nil s, by simp [ringPlus]⟩
  | cons x xs ih =>
    obtain ⟨t, hrun, hpos⟩ := ih (s := sampleStep x s) ((sampleStep_err x s).trans he) ((sampleStep_cfg x s).trans hc)
    refine ⟨t, (afterCommands_sampleWords_cons he hc x xs).trans hrun, ?_⟩
    rw [hpos, sampleStep_pos, ringPlus_ringPlus, List.length_cons, Nat.cast_succ, add_comm]

/-- The first sample step after a RESET: `PHASE` is 0, so it becomes `DELTA` without a carry, and the output slot is clear
(44_sample_step.md R164). -/
theorem sampleStep_warmReset_responses (he : s.err = false) (f x : Word) {d : Nat} (hd : d < 2 ^ 32) :
    (sampleStep x (respond zeroWord false (warmReset f d s))).responses =
      s.responses ++ [0x0000000000000000#64, 0x0000000000000000#64] := by
  have hcarry : ¬ 2 ^ 32 ≤ (0#32).toNat + (BitVec.ofNat 32 d).toNat := by
    rw [BitVec.toNat_ofNat, BitVec.toNat_ofNat, Nat.mod_eq_of_lt hd, Nat.zero_mod]
    omega
  rw [sampleStep_responses_eq, respond_responses, respond_err, warmReset_err, he, warmReset_responses, respond_phase, warmReset_phase,
    respond_delta, warmReset_delta, State.readY_respond, readY_warmReset, decide_eq_false hcarry, List.append_assoc,
    List.singleton_append, ← zeroWord, responseWord_ok_zero]

/-- Settles O30: each sample step adds 1 to `POS`, and after a RESET the first phase is `DELTA` itself, without a carry. -/
theorem posCountsSamples : Obligations.PosCountsSamples := by
  refine ⟨fun s xs he hc => ?_, fun s f x he hf => ?_⟩
  · obtain ⟨t, hrun, hpos⟩ := sampleWords_pos he hc xs
    refine ⟨t, hrun, hpos, fun hlen => ?_⟩
    rw [hpos, hlen, ringPlus_natCast, show BitVec.ofNat 8 256 = 0#8 from rfl, BitVec.add_zero]
  · obtain ⟨t, hrun, hrsp⟩ := exists_afterCommands_sample (s := respond zeroWord false (warmReset f (defaultDeltaOf f.toNat 57) s))
      (by rwa [respond_err, warmReset_err]) (by rw [respond_cfg, warmReset_cfg]) x
    exact ⟨t, (afterCommands_reset_cons he hf _).trans hrun,
      hrsp.trans (sampleStep_warmReset_responses he f x (defaultDeltaOf_defaultNote_lt hf))⟩

end PositionOfRuns

section GrainLatency

variable {s : State}

/-- A run of the samples `xs` completes with a response to each, and the last one carries `v` (44_sample_step.md R160). -/
def EmitsLast (xs : List Word) (s : State) (v : Word) : Prop :=
  ∃ (t : State) (rs : List ResponseWord) (rsp : ResponseWord), afterCommands (sampleWords xs) s = .next t ∧
    t.responses = s.responses ++ rs ++ [rsp] ∧ rs.length + 1 = xs.length ∧ rsp.extractLsb' 0 32 = v

/-- A single sample emits the output slot as it stood before the step (44_sample_step.md R162). -/
theorem emitsLast_singleton (he : s.err = false) (hc : s.cfg = true) (x : Word) : EmitsLast [x] s (s.readY s.pos) := by
  obtain ⟨t, hrun, hrsp⟩ := exists_afterCommands_sample he hc x
  refine ⟨t, [], _, hrun, ?_, rfl, responseWord_data s.err (decide (2 ^ 32 ≤ s.phase.toNat + s.delta.toNat)) _⟩
  rw [hrsp, sampleStep_responses_eq, List.append_nil]

/-- A sample before a run leaves the run's last response the last one. -/
theorem EmitsLast.cons {x v : Word} {xs : List Word} (h : EmitsLast xs (sampleStep x s) v) (he : s.err = false)
    (hc : s.cfg = true) : EmitsLast (x :: xs) s v := by
  obtain ⟨t, rs, rsp, hrun, hrs, hcount, hdata⟩ := h
  obtain ⟨first, hfirst⟩ : ∃ rsp, (sampleStep x s).responses = s.responses ++ [rsp] := ⟨_, sampleStep_responses_eq x s⟩
  refine ⟨t, first :: rs, rsp, (afterCommands_sampleWords_cons he hc x xs).trans hrun, ?_, congrArg (· + 1) hcount, hdata⟩
  rw [hrs, hfirst, List.append_assoc s.responses, List.singleton_append]

/-- The slot at offset `j` from `POS` is at offset `j + 1` from the `POS` before the sample step (10_state.md R27). -/
theorem ringPlus_sampleStep_pos (x : Word) (s : State) (j : Nat) :
    ringPlus (sampleStep x s).pos j = ringPlus s.pos (j + 1 : Nat) := by
  rw [sampleStep_pos, ringPlus_ringPlus, Nat.cast_succ, add_comm]

/-- A run of at most 256 samples, none of which but the last may trigger, ends by emitting its slot as it stood before the run: a step
without a trigger changes only the slot it emits, and the last step's own grain leaves that slot alone (44_sample_step.md R162, R163). -/
theorem emitsLast_of_quiet (he : s.err = false) (hc : s.cfg = true) (x : Word) (xs : List Word) (hlen : xs.length < 256)
    (hquiet : s.phase.toNat + xs.length * s.delta.toNat < 2 ^ 32) : EmitsLast (x :: xs) s (s.readY (ringPlus s.pos xs.length)) := by
  induction xs generalizing s x with
  | nil =>
    rw [List.length_nil, ringPlus_natCast, BitVec.add_zero]
    exact emitsLast_singleton he hc x
  | cons y ys ih =>
    rw [List.length_cons, Nat.succ_mul] at hquiet
    have hslot := readY_sampleStep_of_no_carry x (show s.phase.toNat + s.delta.toNat < 2 ^ 32 by omega)
      (ringPlus_ne_self s.pos (Nat.succ_pos ys.length) hlen)
    have hphase : (sampleStep x s).phase.toNat + ys.length * (sampleStep x s).delta.toNat < 2 ^ 32 := by
      rw [sampleStep_phase, sampleStep_delta, BitVec.toNat_add]
      omega
    have hrest := ih ((sampleStep_err x s).trans he) ((sampleStep_cfg x s).trans hc) y (Nat.lt_of_succ_lt hlen) hphase
    rw [ringPlus_sampleStep_pos, hslot] at hrest
    exact hrest.cons he hc

/-- A value of the grain that a sample step adds, from the profile of steps (a) and (b) (44_sample_step.md R160). -/
theorem grainValue_sampleStep (x : Word) (s : State) (d : Int) :
    grainValue (sampleStep x s) d = grainValue (acuUpdate s.pos (s.writeX s.pos x)) d :=
  grainValue_congr (u := blendedState x s) (sampleStep_r x s) (by rw [sampleStep_w, blendedState_w]) d

/-- Settles O31: the triggering step adds the term to its slot, and the quiet run after it emits the slot as that step left it. -/
theorem grainIsHeardAtItsOffset : Obligations.GrainIsHeardAtItsOffset := by
  intro s x xs he hc hcarry h1 h255 hquiet
  obtain ⟨y, ys, rfl⟩ := List.exists_cons_of_length_pos h1
  rw [List.length_cons] at h255
  rw [List.length_cons, Nat.add_sub_cancel, ← sampleStep_phase x s, ← sampleStep_delta x s] at hquiet
  have hquietRun := emitsLast_of_quiet ((sampleStep_err x s).trans he) ((sampleStep_cfg x s).trans hc) y ys (by omega) hquiet
  obtain ⟨t, rs, rsp, hrun, hrs, hcount, hdata⟩ := hquietRun.cons he hc
  refine ⟨t, rs, rsp, hrun, hrs, Nat.succ.inj hcount, hdata.trans ?_⟩
  rw [ringPlus_sampleStep_pos, readY_sampleStep_slot (Nat.succ_pos _) (Nat.lt_succ_of_le h255), if_pos hcarry,
    grainValue_sampleStep, List.length_cons]

end GrainLatency

end Sys2Proof.Machine
end

section
/-! SUPPORT. The control commands: RESET with a rate below, inside and above the range of its check, the fields of the STATUS register,
and the channels, which no command reads, so that a STATUS in a stream leaves every other response as it was (45_control.md R181 to
R183). -/

namespace Sys2Proof.Machine

section ResetRates

variable {s : State} {f : Word}

/-- A RESET without a rate (45_control.md R181). -/
theorem exec_reset_zero (he : s.err = false) : exec (.reset 0#32) s = .next (raiseFault .badRate s) := by
  rw [exec_eq_execOver, execOver, execResetOver, unlessFaulted_of_ok he]
  rcases resetCommand_cases defaultParameters s 0#32 with ⟨-, h⟩ | ⟨h0, -⟩ | ⟨h0, -⟩
  · rw [h]
  · contradiction
  · contradiction

/-- A RESET whose `DELTA` cannot be stored (45_control.md R181). -/
theorem exec_reset_overflow (he : s.err = false) (hlo : 1 ≤ f.toNat) (hhi : f.toNat ≤ 220) :
    exec (.reset f) s = .next (raiseFault .deltaRange s) := by
  rw [exec_eq_execOver, execOver_reset he hlo, defaultParameters_deltaOf, if_pos ((overflow_defaultNote_iff hlo).mpr hhi)]

/-- A RESET that completes (45_control.md R180, R181). -/
theorem exec_reset_completes (he : s.err = false) (hf : 221 ≤ f.toNat) :
    exec (.reset f) s = .next (respond zeroWord false (warmReset f (defaultDeltaOf f.toNat 57) s)) := by
  rw [exec_eq_execOver, execOver_reset he (by omega), defaultParameters_deltaOf,
    if_neg (not_le.mpr (defaultDeltaOf_defaultNote_lt hf))]

/-- Settles O12: the default note is an octave below A4, so its `DELTA_OF` is a quotient of whole numbers, and the three ranges of
rates are the three branches of RESET. -/
theorem resetRateRange : Obligations.ResetRateRange := by
  refine ⟨fun f hf _ => ⟨defaultDeltaOf_defaultNote hf, overflow_defaultNote_iff hf⟩, fun s he => ?_, fun s f he hlo hhi => ?_,
    fun s f he hf => ⟨_, exec_reset_completes he hf, ?_, ?_⟩, ?_⟩
  · rw [exec_reset_zero he, raiseFault_eq, faultCode]
  · rw [exec_reset_overflow he hlo hhi, raiseFault_eq, faultCode]
  · rw [respond_cfg, warmReset_cfg]
  · rw [respond_err, warmReset_err, he]
  · refine ⟨?_, ?_, ?_, ?_, ?_⟩ <;> exact defaultDeltaOf_defaultNote (by norm_num)

end ResetRates

section StatusFields

variable (s : State)

theorem statusWord_cfg : (statusWord s).getLsbD 0 = s.cfg := by
  rw [statusWord, BitVec.getLsbD_append, if_pos (by norm_num)]
  simp [flagBit]

theorem statusWord_err : (statusWord s).getLsbD 1 = s.err := by
  rw [statusWord, BitVec.getLsbD_append, if_neg (by norm_num), BitVec.getLsbD_append, if_pos (by norm_num)]
  simp [flagBit]

/-- The bits above the two flags. -/
theorem statusWord_extract_of_le {start len : Nat} (h : 2 ≤ start) :
    (statusWord s).extractLsb' start len = (0#16 ++ s.pos ++ s.cause ++ 0#2).extractLsb' (start - 2) len := by
  rw [statusWord, BitVec.extractLsb'_append_eq_of_le (by omega), BitVec.extractLsb'_append_eq_of_le (by omega), Nat.sub_sub]

theorem statusWord_low_reserved : (statusWord s).extractLsb' 2 2 = 0#2 := by
  rw [statusWord_extract_of_le s le_rfl]
  exact BitVec.extractLsb'_append_eq_right

theorem statusWord_cause : (statusWord s).extractLsb' 4 4 = s.cause := by
  rw [statusWord_extract_of_le s (by norm_num), BitVec.extractLsb'_append_eq_of_le le_rfl]
  exact BitVec.extractLsb'_append_eq_right

theorem statusWord_pos : (statusWord s).extractLsb' 8 8 = s.pos := by
  rw [statusWord_extract_of_le s (by norm_num), BitVec.extractLsb'_append_eq_of_le (by norm_num),
    BitVec.extractLsb'_append_eq_of_le le_rfl]
  exact BitVec.extractLsb'_append_eq_right

theorem statusWord_high_reserved : (statusWord s).extractLsb' 16 16 = 0#16 := by
  rw [statusWord_extract_of_le s (by norm_num), BitVec.extractLsb'_append_eq_of_le (by norm_num),
    BitVec.extractLsb'_append_eq_of_le (by norm_num)]
  exact BitVec.extractLsb'_append_eq_left

/-- A bit of the data of a response. -/
theorem responseWord_getLsbD_data (err trig : Bool) (data : Word) {i : Nat} (hi : i < 32) :
    (responseWord err trig data).getLsbD i = data.getLsbD i := by
  rw [responseWord, BitVec.getLsbD_append, if_pos hi]

/-- A field of the data of a response. -/
theorem responseWord_extract_data (err trig : Bool) (data : Word) {start len : Nat} (h : start + len ≤ 32) :
    (responseWord err trig data).extractLsb' start len = data.extractLsb' start len :=
  BitVec.extractLsb'_append_eq_of_add_le h

/-- Settles O13: STATUS responds with the register, so each field of the response is one of the register or of the response word. -/
theorem statusReadsTheRegister : Obligations.StatusReadsTheRegister := by
  intro s
  refine ⟨responseWord s.err false (statusWord s), rfl, responseWord_data .., ?_, ?_, ?_, ?_, ?_, ?_, by simp, by simp,
    responseWord_reserved ..⟩
  · rw [responseWord_getLsbD_data _ _ _ (by norm_num), statusWord_cfg]
  · rw [responseWord_getLsbD_data _ _ _ (by norm_num), statusWord_err]
  · rw [responseWord_extract_data _ _ _ (by norm_num), statusWord_low_reserved]
  · rw [responseWord_extract_data _ _ _ (by norm_num), statusWord_cause]
  · rw [responseWord_extract_data _ _ _ (by norm_num), statusWord_pos]
  · rw [responseWord_extract_data _ _ _ (by norm_num), statusWord_high_reserved]

end StatusFields

section Channels

/-- The block of `s` with other words on its two channels. -/
def State.onChannels (cs : List CommandWord) (rs : List ResponseWord) (s : State) : State := { s with commands := cs, responses := rs }

variable (cs : List CommandWord) (rs : List ResponseWord) (s : State)

/-- The stream that the host issues stands in place of what is on the command channel (30_encoding.md R70). -/
theorem afterCommands_onChannels (ws : List CommandWord) : afterCommands ws (s.onChannels cs s.responses) = afterCommands ws s := rfl

/-- A loop whose body does not read the channels does not read them either. -/
theorem forRange_onChannels {body : Nat → State → State}
    (h : ∀ i t, body i (t.onChannels cs rs) = (body i t).onChannels cs rs) (a b : Nat) :
    forRange a b body (s.onChannels cs rs) = (forRange a b body s).onChannels cs rs :=
  List.foldl_hom (State.onChannels cs rs) fun t i => h i t

theorem acuUpdate_onChannels (p : RingAddr) :
    acuUpdate p (s.onChannels cs rs) = (acuUpdate p s).onChannels cs rs :=
  forRange_onChannels (body := updateLag p (s.readX p)) cs rs s (fun _ _ => rfl) 0 128

theorem olaGrain_onChannels (p : RingAddr) :
    olaGrain p (s.onChannels cs rs) = (olaGrain p s).onChannels cs rs := by
  have hbackward := forRange_onChannels (body := addBackwardTerm p (grainScale s)) cs rs s (fun _ _ => rfl) 1 128
  have hforward := fun t => forRange_onChannels (body := addForwardTerm p (grainScale s)) cs rs t (fun _ _ => rfl) 0 128
  rw [olaGrain, show grainScale (s.onChannels cs rs) = grainScale s from rfl, hbackward, hforward, olaGrain]

theorem grainIf_onChannels (trig : Bool) (p : RingAddr) :
    grainIf trig p (s.onChannels cs rs) = (grainIf trig p s).onChannels cs rs := by
  cases trig with
  | false => rfl
  | true => exact olaGrain_onChannels cs rs s p

theorem State.setPhase_onChannels (v : Word) : (s.onChannels cs rs).setPhase v = (s.setPhase v).onChannels cs rs := rfl

theorem grainedState_onChannels (x : Word) :
    grainedState x (s.onChannels cs rs) = (grainedState x s).onChannels cs rs := by
  have hblended : blendedState x (s.onChannels cs rs) = (blendedState x s).onChannels cs rs :=
    acuUpdate_onChannels cs rs (s.writeX s.pos x) s.pos
  rw [grainedState, hblended, State.setPhase_onChannels, grainIf_onChannels, grainedState]
  rfl

end Channels

section AnswersOnly

/-- `f` does not read the channels of `s`, keeps the command channel, and puts one response on the response channel
(30_encoding.md R70). -/
def AnswersOnly (f : State → State) (s : State) : Prop :=
  ∃ rsp : ResponseWord, ∀ cs rs, f (s.onChannels cs rs) = (f s).onChannels cs (rs ++ [rsp])

variable (P : Config.Parameters) {s : State} {f g : State → State}

/-- A response to a change of the block. -/
theorem answersOnly_respond {data : State → Word} (trig : Bool) (hdata : ∀ cs rs, data (s.onChannels cs rs) = data s)
    (hf : ∀ cs rs, f (s.onChannels cs rs) = (f s).onChannels cs rs) : AnswersOnly (fun t => respond (data t) trig (f t)) s :=
  ⟨responseWord (f s).err trig (data s), fun cs rs => by
    simp only [hdata, hf]
    rfl⟩

/-- A choice that does not depend on the channels. -/
theorem AnswersOnly.ite {p : State → Prop} [DecidablePred p] (hp : ∀ cs rs, p (s.onChannels cs rs) ↔ p s)
    (hf : AnswersOnly f s) (hg : AnswersOnly g s) : AnswersOnly (fun t => if p t then f t else g t) s := by
  by_cases h : p s
  · simpa only [AnswersOnly, hp, if_pos h] using hf
  · simpa only [AnswersOnly, hp, if_neg h] using hg

theorem answersOnly_raiseFault (c : FaultCause) : AnswersOnly (raiseFault c) s :=
  answersOnly_respond (data := fun _ => zeroWord) (f := fun t => { t with err := true, cause := faultCode c }) false
    (fun _ _ => rfl) (fun _ _ => rfl)

theorem answersOnly_status : AnswersOnly (fun t => respond (statusWord t) false t) s :=
  answersOnly_respond (f := id) false (fun _ _ => rfl) (fun _ _ => rfl)

theorem answersOnly_resetCommand (f : Word) : AnswersOnly (resetCommand P f) s :=
  .ite (p := fun _ => f = 0#32) (fun _ _ => Iff.rfl) (answersOnly_raiseFault _)
    (.ite (p := fun _ => 2 ^ 32 ≤ P.deltaOf f.toNat defaultNote.toNat) (fun _ _ => Iff.rfl) (answersOnly_raiseFault _)
      (answersOnly_respond (data := fun _ => zeroWord) false (fun _ _ => rfl) (fun _ _ => rfl)))

theorem answersOnly_noteOnCommand (n : Note) : AnswersOnly (noteOnCommand P n) s :=
  .ite (p := fun t => t.cfg = false) (fun _ _ => Iff.rfl) (answersOnly_raiseFault _)
    (.ite (p := fun t => 2 ^ 32 ≤ P.deltaOf t.fs.toNat n.toNat) (fun _ _ => Iff.rfl) (answersOnly_raiseFault _)
      (answersOnly_respond (data := fun _ => zeroWord) (f := fun t => t.setDelta (BitVec.ofNat 32 (P.deltaOf t.fs.toNat n.toNat)))
        false (fun _ _ => rfl) (fun _ _ => rfl)))

/-- The loops of a sample step do not read the channels, and the emission responds once (44_sample_step.md R160). -/
theorem answersOnly_sampleStep (x : Word) : AnswersOnly (sampleStep x) s := by
  refine ⟨responseWord s.err (trigFlag (s.phase + s.delta) s.delta) ((grainedState x s).readY s.pos), fun cs rs => ?_⟩
  have herr : (grainedState x s).err = s.err := grainedState_err x s
  rw [sampleStep_eq, grainedState_onChannels, sampleStep_eq, ← herr]
  rfl

theorem answersOnly_sampleCommand (x : Word) : AnswersOnly (sampleCommand x) s :=
  .ite (p := fun t => t.cfg = false) (fun _ _ => Iff.rfl) (answersOnly_raiseFault _) (answersOnly_sampleStep x)

/-- The gate of the faulted state reads `ERR` alone, and answers an ignored command (60_exceptions.md R204). -/
theorem AnswersOnly.unlessFaulted (h : AnswersOnly f s) : AnswersOnly (unlessFaulted f) s :=
  .ite (p := fun t => t.err = true) (fun _ _ => Iff.rfl)
    (answersOnly_respond (data := fun _ => zeroWord) (f := id) false (fun _ _ => rfl) (fun _ _ => rfl)) h

/-- Every word completes without reading the channels (30_encoding.md R70, R76). -/
theorem exists_execute_answersOnly (w : CommandWord) (s : State) : ∃ f, AnswersOnly f s ∧ ∀ t, execute w t = .next (f t) := by
  cases hd : decode w with
  | error e => exact ⟨_, (answersOnly_raiseFault _).unlessFaulted, fun t => execute_of_illegal t hd⟩
  | ok i =>
    cases i with
    | reset f => exact ⟨_, (answersOnly_resetCommand _ f).unlessFaulted, fun t => execute_of_decode t hd⟩
    | noteOn n => exact ⟨_, (answersOnly_noteOnCommand _ n).unlessFaulted, fun t => execute_of_decode t hd⟩
    | sample x => exact ⟨_, (answersOnly_sampleCommand x).unlessFaulted, fun t => execute_of_decode t hd⟩
    | status => exact ⟨_, answersOnly_status, fun t => execute_status hd t⟩

end AnswersOnly

section Answers

/-- The stream `ws` takes the block of `s` to that of `t` with the responses `out`, one for each word, whatever stands on the response
channel before it and on the command channel after it (30_encoding.md R70). -/
structure Answers (ws : List CommandWord) (out : List ResponseWord) (s t : State) : Prop where
  length_eq : out.length = ws.length
  run_append : ∀ rs later, afterCommands (ws ++ later) (s.onChannels [] rs) = afterCommands later (t.onChannels [] (rs ++ out))

variable {s t u : State} {ws ws' : List CommandWord} {out out' : List ResponseWord}

/-- What such a stream makes of `s` itself. -/
theorem Answers.afterCommands (h : Answers ws out s t) :
    afterCommands ws s = .next (t.onChannels [] (s.responses ++ out)) := by
  have hrun := h.run_append s.responses []
  rw [List.append_nil, afterCommands_onChannels, afterCommands_nil] at hrun
  exact hrun

theorem Answers.append (h : Answers ws out s t) (h' : Answers ws' out' t u) : Answers (ws ++ ws') (out ++ out') s u := by
  refine ⟨by rw [List.length_append, List.length_append, h.length_eq, h'.length_eq], fun rs later => ?_⟩
  rw [List.append_assoc, h.run_append, h'.run_append, List.append_assoc]

/-- One word, from what it does on any channels. -/
theorem answers_singleton {w : CommandWord} {rsp : ResponseWord}
    (h : ∀ cs rs, execute w (s.onChannels cs rs) = .next (t.onChannels cs (rs ++ [rsp]))) : Answers [w] [rsp] s t := by
  refine ⟨rfl, fun rs later => ?_⟩
  have hstep : step (s.onChannels (w :: later) rs) = .next (t.onChannels later (rs ++ [rsp])) :=
    (step_command _ rfl).trans (h later rs)
  exact core_run_succ later.length hstep

/-- STATUS leaves the block as it is (45_control.md R182). -/
theorem answers_status (s : State) : Answers [encode .status] [responseWord s.err false (statusWord s)] s s :=
  answers_singleton fun cs rs => execute_status (decode_encode .status) (s.onChannels cs rs)

/-- Every stream is answered word by word (30_encoding.md R70). -/
theorem exists_answers (ws : List CommandWord) (s : State) : ∃ t out, Answers ws out s t := by
  induction ws generalizing s with
  | nil => exact ⟨s, [], rfl, fun rs later => by rw [List.append_nil, List.nil_append]⟩
  | cons w ws ih =>
    obtain ⟨f, ⟨rsp, hf⟩, hexec⟩ := exists_execute_answersOnly w s
    have hw : Answers [w] [rsp] s (f s) := answers_singleton fun cs rs => by rw [hexec, hf]
    obtain ⟨t, out, hrest⟩ := ih (f s)
    exact ⟨t, _, hw.append hrest⟩

/-- Settles O14: both streams answer the two parts from the same blocks, and the STATUS between them leaves the block as it is. -/
theorem statusInsertionChangesNothingElse : Obligations.StatusInsertionChangesNothingElse := by
  intro s before after
  obtain ⟨u, ra, hbefore⟩ := exists_answers before s
  obtain ⟨t, rb, hafter⟩ := exists_answers after u
  have hinserted := (hbefore.append ((answers_status u).append hafter)).afterCommands
  refine ⟨_, ra, rb, responseWord u.err false (statusWord u), (hbefore.append hafter).afterCommands, (List.append_assoc ..).symm,
    hbefore.length_eq, hafter.length_eq, ?_⟩
  rw [List.append_assoc]
  exact hinserted

end Answers

end Sys2Proof.Machine
end

section
/-! SUPPORT. The exceptions: what the checks of 60_exceptions.md R203 come to for the word of each command, that a command on an
unfaulted block raises the first that it fails and that a fault is only that (60_exceptions.md R201 to R203), and the faulted state
(60_exceptions.md R204). -/

namespace Sys2Proof.Machine

section Checks

variable (s : State)

theorem firstFailedCheck_illegal {w : CommandWord} (h : CommandWord.legal w = false) :
    firstFailedCheck w s = some .illegalCommand := if_pos h

/-- RESET has a rate to check and the `DELTA` of the default note (60_exceptions.md R202). -/
theorem firstFailedCheck_reset (f : Word) : firstFailedCheck (encode (.reset f)) s =
    if f = 0#32 then some .badRate else if 2 ^ 32 ≤ defaultDeltaOf f.toNat 57 then some .deltaRange else none := by
  obtain ⟨hlegal, hop, -⟩ := Laws.EncodesLegally.reset f
  obtain ⟨-, -, hpay⟩ := Laws.EncodesLegally.fields_commandWord 0x01#8 0#24 f
  rw [← encode] at hpay
  simp [firstFailedCheck, hlegal, hop, hpay, Laws.EncodesLegally.opcode]

/-- NOTE_ON asks for a configured block and checks the `DELTA` of its note (60_exceptions.md R202). -/
theorem firstFailedCheck_noteOn (n : Note) : firstFailedCheck (encode (.noteOn n)) s =
    if s.cfg = false then some .notConfigured
    else if 2 ^ 32 ≤ defaultDeltaOf s.fs.toNat n.toNat then some .deltaRange else none := by
  obtain ⟨hlegal, hop, -⟩ := Laws.EncodesLegally.noteOn n
  obtain ⟨-, -, hpay⟩ := Laws.EncodesLegally.fields_commandWord 0x02#8 0#24 (0#25 ++ n)
  rw [← encode] at hpay
  have hnote : (CommandWord.pay (encode (.noteOn n))).toNat = n.toNat := by
    rw [hpay]
    exact (BitVec.toNat_append 0#25 n).trans (by simp)
  simp [firstFailedCheck, hlegal, hop, hnote, Laws.EncodesLegally.opcode]

/-- SAMPLE asks for a configured block (60_exceptions.md R202). -/
theorem firstFailedCheck_sample (x : Word) : firstFailedCheck (encode (.sample x)) s =
    if s.cfg = false then some .notConfigured else none := by
  obtain ⟨hlegal, hop, -⟩ := Laws.EncodesLegally.sample x
  simp [firstFailedCheck, hlegal, hop, Laws.EncodesLegally.opcode]

/-- STATUS has nothing to check once its word is legal (60_exceptions.md R202). -/
theorem firstFailedCheck_status : firstFailedCheck (encode .status) s = none := by
  obtain ⟨hlegal, hop, -⟩ := Laws.EncodesLegally.status
  simp [firstFailedCheck, hlegal, hop, Laws.EncodesLegally.opcode]

end Checks

section Outcomes

/-- What a check that fails, or none, makes of the unfaulted block `s` (60_exceptions.md R201, R203). -/
inductive CheckOutcome (s : State) : Option FaultCause → State → Prop where
  /-- The fault of the check that fails, and nothing else (60_exceptions.md R201). -/
  | raised (c : FaultCause) : CheckOutcome s (some c) (raiseFault c s)
  /-- A command that completes raises nothing. -/
  | passed {t : State} (herr : t.err = false) (hcause : t.cause = s.cause) : CheckOutcome s none t

variable {s t : State} {w : CommandWord}

theorem resetCommand_outcome (he : s.err = false) (f : Word) :
    CheckOutcome s (firstFailedCheck (encode (.reset f)) s) (resetCommand defaultParameters f s) := by
  rw [firstFailedCheck_reset, ← defaultParameters_deltaOf]
  rcases resetCommand_cases defaultParameters s f with ⟨h0, h⟩ | ⟨h0, hge, h⟩ | ⟨h0, hlt, h⟩ <;> rw [h]
  · rw [if_pos h0]; exact .raised _
  · rw [if_neg h0, if_pos hge]; exact .raised _
  · rw [if_neg h0, if_neg (not_le.mpr hlt)]; exact .passed (by simpa using he) (by simp)

theorem noteOnCommand_outcome (he : s.err = false) (n : Note) :
    CheckOutcome s (firstFailedCheck (encode (.noteOn n)) s) (noteOnCommand defaultParameters n s) := by
  rw [firstFailedCheck_noteOn, ← defaultParameters_deltaOf]
  rcases noteOnCommand_cases defaultParameters s n with ⟨hc, h⟩ | ⟨hc, hge, h⟩ | ⟨hc, hlt, h⟩ <;> rw [h]
  · rw [if_pos hc]; exact .raised _
  · rw [if_neg (by simp [hc]), if_pos hge]; exact .raised _
  · rw [if_neg (by simp [hc]), if_neg (not_le.mpr hlt)]; exact .passed (by simpa using he) (by simp)

theorem sampleCommand_outcome (he : s.err = false) (x : Word) :
    CheckOutcome s (firstFailedCheck (encode (.sample x)) s) (sampleCommand x s) := by
  rw [firstFailedCheck_sample]
  rcases sampleCommand_cases s x with ⟨hc, h⟩ | ⟨hc, h⟩ <;> rw [h]
  · rw [if_pos hc]; exact .raised _
  · rw [if_neg (by simp [hc])]; exact .passed ((sampleStep_err x s).trans he) (sampleStep_cause x s)

/-- Every command on an unfaulted block ends as its first failed check says. -/
theorem exec_outcome (he : s.err = false) (i : Instr) :
    ∃ t, exec i s = .next t ∧ CheckOutcome s (firstFailedCheck (encode i) s) t := by
  rw [exec_eq_execOver]
  cases i with
  | reset f => exact ⟨_, rfl, by rw [unlessFaulted_of_ok he]; exact resetCommand_outcome he f⟩
  | noteOn n => exact ⟨_, rfl, by rw [unlessFaulted_of_ok he]; exact noteOnCommand_outcome he n⟩
  | sample x => exact ⟨_, rfl, by rw [unlessFaulted_of_ok he]; exact sampleCommand_outcome he x⟩
  | status => exact ⟨_, rfl, by rw [firstFailedCheck_status]; exact .passed (by simpa using he) (by simp)⟩

/-- Every word on an unfaulted block ends as its first failed check says (60_exceptions.md R203). -/
theorem execute_outcome (he : s.err = false) (h : execute w s = .next t) : CheckOutcome s (firstFailedCheck w s) t := by
  cases hd : decode w with
  | ok i =>
    obtain ⟨u, hu, hout⟩ := exec_outcome he i
    rw [execute_of_decode s hd, hu] at h
    cases h
    rwa [decode_eq_ok_iff.mp hd] at hout
  | error e =>
    rw [execute_of_illegal s hd, illegalCommand, unlessFaulted_of_ok he] at h
    cases h
    rw [firstFailedCheck_illegal s (legal_eq_false_iff.mpr ⟨e, hd⟩)]
    exact .raised _

/-- A block that ends faulted has taken a fault and nothing else. -/
theorem CheckOutcome.eq_raiseFault {check : Option FaultCause} (h : CheckOutcome s check t) (ht : t.err = true) :
    ∃ c, t = raiseFault c s := by
  cases h with
  | raised c => exact ⟨c, rfl⟩
  | passed herr => simp [herr] at ht

/-- Settles O16: an unfaulted block ends faulted only where a check fails, and then it has raised that check's fault and no more. -/
theorem faultChangesOnlyErrAndCause : Obligations.FaultChangesOnlyErrAndCause := by
  refine ⟨raiseFault_eq, fun w s t he hexec ht => ?_⟩
  obtain ⟨c, hc⟩ := (execute_outcome he hexec).eq_raiseFault ht
  obtain ⟨hlo, hhi⟩ := faultCode_range c
  exact ⟨faultCode c, hlo, hhi, hc.trans (raiseFault_eq c s)⟩

/-- Settles O17: the codes are those of the table, and each word ends as its first failed check says. -/
theorem firstFailedCheckIsRaised : Obligations.FirstFailedCheckIsRaised := by
  refine ⟨⟨rfl, rfl, rfl, rfl⟩, fun w s t he hexec => ?_⟩
  have hout := execute_outcome he hexec
  constructor
  · intro c hc
    rw [hc] at hout
    cases hout with
    | raised => exact ⟨raiseFault_err s c, raiseFault_cause s c⟩
  · intro hnone
    rw [hnone] at hout
    cases hout with
    | passed herr hcause => exact ⟨herr, hcause⟩

end Outcomes

section FaultedState

variable {P : Config.Parameters} {w : CommandWord} {s t : State}

/-- STATUS is the one word that a faulted block does not ignore (60_exceptions.md R204). -/
theorem WordEffect.eq_ignoreCommand (h : WordEffect P w s t) (herr : s.err = true) (hw : decode w ≠ .ok .status) :
    t = ignoreCommand s := by
  cases h with
  | ignored => rfl
  | status hd => exact absurd hd hw
  | faulted hok | reset hok | noteOn hok | sample hok => exact absurd herr (by simp [hok])

theorem ignoreCommand_eq (herr : s.err = true) : ignoreCommand s =
    { s with responses := s.responses ++ [0x0000000200000000#64] } := by
  rw [ignoreCommand, respond, herr, responseWord_fault_zero]

theorem execute_ignored (herr : s.err = true) (hw : decode w ≠ .ok .status) : execute w s = .next (ignoreCommand s) := by
  obtain ⟨t, ht, heff⟩ := executeOver_effect defaultParameters w s
  rw [execute_eq_executeOver, ht, heff.eq_ignoreCommand herr hw]

/-- The one legal STATUS word (30_encoding.md R74, 45_control.md R182). -/
theorem decode_eq_status_iff : decode w = .ok .status ↔ w = 0x0400000000000000#64 :=
  decode_eq_ok_iff.trans eq_comm

/-- Settles O18: the one word of STATUS answers the register behind `ERR`, and every other word is ignored. -/
theorem faultedBlockIgnoresCommands : Obligations.FaultedBlockIgnoresCommands := by
  intro w s herr
  by_cases hw : w = 0x0400000000000000#64
  · rw [if_pos hw, execute_status (decode_eq_status_iff.mpr hw), respond, herr]
    rfl
  · rw [if_neg hw, execute_ignored herr (mt decode_eq_status_iff.mp hw), ignoreCommand_eq herr]

end FaultedState

section Waiting

/-- Settles O7: with no word to take off the channel, a step is the idle one (60_exceptions.md R211). -/
theorem stepWaitsForACommand : Obligations.StepWaitsForACommand := step_idle

end Waiting

end Sys2Proof.Machine
end

section
/-! SUPPORT. The two resets: the state that each leaves, element by element, that no step takes the block out of the faulted state, and
that a warm reset leaves nothing of the past for later commands (70_reset_and_hazards.md R230, R232, R233, R243). -/

namespace Sys2Proof.Machine

section PowerOn

/-- The STATUS register of an unfaulted block at the start of its rings shows `CFG` alone (10_state.md R32). -/
theorem statusWord_of_pos_cause_err {s : State} (hpos : s.pos = 0#8) (hcause : s.cause = 0#4) (herr : s.err = false) :
    statusWord s = if s.cfg then 0x00000001#32 else 0x00000000#32 := by
  rw [statusWord, hpos, hcause, herr]
  cases s.cfg <;> rfl

/-- Settles O10: the block that power-on leaves is unconfigured, so the invariant gives its memories and registers, and no word clears
`ERR`. -/
theorem powerOnValues : Obligations.PowerOnValues := by
  refine ⟨fun P => ?_, ⟨rfl, rfl⟩, fun s t hstep hs => ?_⟩
  · obtain ⟨hx, hy, hr, hphase, hdelta, hpos, hfs⟩ := (invOver_powerOn P).unconfigured rfl
    exact ⟨hx, hy, hr, rfl, hphase, hdelta, hpos, hfs, rfl, rfl, rfl, statusWord_of_pos_cause_err hpos rfl rfl⟩
  · rcases step_err_cause hstep with ⟨herr, -⟩ | ⟨-, herr, -⟩
    · exact herr.trans hs
    · exact herr

end PowerOn

section WarmReset

/-- Settles O11: from 221 Hz on RESET answers and leaves the block that it clears, with a `DELTA` that fits 32 bits. -/
theorem resetLeavesWarmResetValues : Obligations.ResetLeavesWarmResetValues := by
  intro s f he hf
  have hdelta : (BitVec.ofNat 32 (defaultDeltaOf f.toNat 57)).toNat = defaultDeltaOf f.toNat 57 :=
    (BitVec.toNat_ofNat ..).trans (Nat.mod_eq_of_lt (defaultDeltaOf_defaultNote_lt hf))
  refine ⟨_, exec_reset_completes he hf, ?_⟩
  have hstatus (hcause : s.cause = 0#4) :
      statusWord (respond zeroWord false (warmReset f (defaultDeltaOf f.toNat 57) s)) = 0x00000001#32 := by
    rw [statusWord_of_pos_cause_err (by simp) (by simpa using hcause) (by simpa using he), respond_cfg, warmReset_cfg, if_pos rfl]
  simpa [he, responseWord_ok_zero, -BitVec.toNat_ofNat] using And.intro hdelta hstatus

end WarmReset

section Forgetting

variable {s t : State} {ws : List CommandWord} {out : List ResponseWord}

/-- What stands on the two channels has no part in how a stream is answered (30_encoding.md R70). -/
theorem Answers.of_onChannels {cs : List CommandWord} {rs : List ResponseWord} (h : Answers ws out (s.onChannels cs rs) t) :
    Answers ws out s t := ⟨h.length_eq, h.run_append⟩

/-- A command that completes without data puts a 0 on the response channel (30_encoding.md R75). -/
theorem respond_zero_onChannels (he : s.err = false) (cs : List CommandWord) (rs : List ResponseWord) :
    respond zeroWord false (s.onChannels cs rs) = s.onChannels cs (rs ++ [0x0000000000000000#64]) := by
  have hrsp : responseWord s.err false zeroWord = 0x0000000000000000#64 := by rw [he, responseWord_ok_zero]
  rw [← hrsp]
  rfl

/-- A RESET from 221 Hz on clears the block and answers 0 (45_control.md R180). -/
theorem answers_reset (he : s.err = false) {f : Word} (hf : 221 ≤ f.toNat) :
    Answers [encode (.reset f)] [0x0000000000000000#64] s (warmReset f (defaultDeltaOf f.toNat 57) s) :=
  answers_singleton fun cs rs => by
    rw [execute_of_decode _ (decode_encode _), exec_reset_completes (s := s.onChannels cs rs) he hf]
    exact congrArg _ (respond_zero_onChannels ((warmReset_err ..).trans he) cs rs)

/-- A warm reset keeps of the block `W`, `ERR` and `CAUSE` alone (70_reset_and_hazards.md R232, R233). -/
theorem warmReset_eq_onChannels (hw : s.w = t.w) (herr : s.err = t.err) (hcause : s.cause = t.cause) (f : Word) (d : Nat) :
    warmReset f d s = (warmReset f d t).onChannels s.commands s.responses := by
  rw [warmReset, hw, herr, hcause]
  rfl

/-- Settles O15: the two blocks differ after the RESET in their channels alone, so one answer to the later words serves both. -/
theorem resetForgetsThePast : Obligations.ResetForgetsThePast := by
  intro s t f ws hs ht hw hcause hf
  obtain ⟨u, out, hlater⟩ := exists_answers ws (warmReset f (defaultDeltaOf f.toNat 57) s)
  have hlater' : Answers ws out (warmReset f (defaultDeltaOf f.toNat 57) t) u :=
    .of_onChannels (warmReset_eq_onChannels hw (hs.trans ht.symm) hcause f _ ▸ hlater)
  have hruns := ((answers_reset hs hf).append hlater).afterCommands
  have hrunt := ((answers_reset ht hf).append hlater').afterCommands
  exact ⟨_, _, _, hruns, hrunt, rfl, rfl, by simp [State.sameBlock, State.onChannels]⟩

end Forgetting

end Sys2Proof.Machine
end
